-- ==== Sys2Proof/Word.lean ====
section
/-! DEFINITION. The word types of AC-CORE (00_scope.md R7, R8): the 32-bit CMD, DATA and RESULT words and the channel's
byte. All values are unsigned; the arithmetic of the rules is on natural numbers and is narrowed where a register is written. -/

namespace Sys2Proof

/-- The 32-bit words of a transaction (30_encoding.md R80): CMD, DATA and RESULT. -/
abbrev Word := BitVec 32

/-- The channel's unit of transfer (20_memory.md R60). -/
abbrev Byte := BitVec 8

end Sys2Proof
end

