-- ==== Sys2Proof/Syntax.lean ====
section
/-! DEFINITION. The 24 commands of AC-CORE (30_encoding.md R85, opcode_table.json), one constructor each, with the operands
of R88; and the pseudo-commands of R98, which are only notation over them. -/

namespace Sys2Proof

/-- The operand of BS_BIND (R88): `dir` = 0 binds a reader, `dir` = 1 a writer. -/
inductive Direction where
  | reader
  | writer
  deriving DecidableEq, Repr

/-- One command (R85). `n` is a bit count, `c` a context id (R88); whether they are in range is checked when the command
runs (R248), not here. -/
inductive Instr where
  | bsBind (dir : Direction)
  | bsGetbits (n : Nat)
  | bsPutbits (n : Nat) (value : Word)
  | bsAlign
  | bsFlush
  | bsClose
  | bsSetLimit (limit : Word)
  | bsClearLimit
  | bsClearError
  | bsStatus
  | bsGetLimit
  | ctxInit (c : Nat) (one total maxf : BitVec 16) (adaptive : Bool)
  | ctxRead (c : Nat)
  | ctxReadCfg (c : Nat)
  | acInit
  | encStart
  | encRegular (c : Nat) (bit : Bool)
  | encBypass (bit : Bool)
  | encTerminate
  | decStart
  | decRegular (c : Nat)
  | decBypass
  | decTerminate
  | acStatus
  deriving DecidableEq, Repr

/-- The pseudo-commands of R98. -/
inductive Pseudo where
  | putHeader (numBlocks blockSize : BitVec 16)
  | getHeader
  | bsPutbyte (v : Byte)
  | ctxReset (c : Nat)
  | encBlockBegin
  | decBlockBegin
  deriving DecidableEq, Repr

end Sys2Proof
end

