-- ==== Sys2Proof/WellFormed.lean ====
section
/-! DEFINITION. Which terms of `Instr` are commands of the encoding: the operands fit their fields of the CMD word
(30_encoding.md R81): IMM16 is 16 bits wide and CTX 8 bits. The other operands have the width of their field as their type. -/

namespace Sys2Proof

/-- A bit count fits the 16-bit field IMM16 (R81, R88). -/
def fitsImm (n : Nat) : Bool := decide (n < 2 ^ 16)

/-- A context id fits the 8-bit field CTX (R81, R88). -/
def fitsCtx (c : Nat) : Bool := decide (c < 2 ^ 8)

/-- The operands fit the fields that carry them. -/
def Instr.wf : Instr → Bool
  | .bsBind _ => true
  | .bsGetbits n => fitsImm n
  | .bsPutbits n _ => fitsImm n
  | .bsAlign => true
  | .bsFlush => true
  | .bsClose => true
  | .bsSetLimit _ => true
  | .bsClearLimit => true
  | .bsClearError => true
  | .bsStatus => true
  | .bsGetLimit => true
  | .ctxInit c _ _ _ _ => fitsCtx c
  | .ctxRead c => fitsCtx c
  | .ctxReadCfg c => fitsCtx c
  | .acInit => true
  | .encStart => true
  | .encRegular c _ => fitsCtx c
  | .encBypass _ => true
  | .encTerminate => true
  | .decStart => true
  | .decRegular c => fitsCtx c
  | .decBypass => true
  | .decTerminate => true
  | .acStatus => true

end Sys2Proof
end

