-- ==== Sys2Proof/Decode.lean ====
section
/-! DEFINITION. The command encoding (30_encoding.md R80 to R88): the fields of CMD, the opcode map, the decoder, which is
total and rejects every other word by name (R86, R87), and after it the encoder (R97), the mask and match rows of R85, the
pseudo-commands' expansions (R98) and the assembler form (R97). -/

namespace Sys2Proof

/-- The fields of a CMD word (R81). -/
structure Fields where
  op : BitVec 5
  ctx : BitVec 8
  b : BitVec 1
  rsv : BitVec 2
  imm : BitVec 16
  deriving DecidableEq, Repr

/-- The field cut of R81: OP 31:27, CTX 26:19, B 18, RSV 17:16, IMM16 15:0. -/
def fieldsOf (cmd : Word) : Fields where
  op := cmd.extractLsb' 27 5
  ctx := cmd.extractLsb' 19 8
  b := cmd.extractLsb' 18 1
  rsv := cmd.extractLsb' 16 2
  imm := cmd.extractLsb' 0 16

/-- The 24 assigned operations (R85). -/
inductive Op where
  | bsBind | bsGetbits | bsPutbits | bsAlign | bsFlush | bsClose | bsSetLimit | bsClearLimit | bsClearError | bsStatus
  | bsGetLimit | ctxInit | ctxRead | ctxReadCfg | acInit | encStart | encRegular | encBypass | encTerminate | decStart
  | decRegular | decBypass | decTerminate | acStatus
  deriving DecidableEq, Repr

/-- The OP column of R85. -/
def Op.code : Op → BitVec 5
  | .bsBind => 0x01
  | .bsGetbits => 0x02
  | .bsPutbits => 0x03
  | .bsAlign => 0x04
  | .bsFlush => 0x05
  | .bsClose => 0x06
  | .bsSetLimit => 0x07
  | .bsClearLimit => 0x08
  | .bsClearError => 0x09
  | .bsStatus => 0x0A
  | .bsGetLimit => 0x0B
  | .ctxInit => 0x10
  | .ctxRead => 0x11
  | .ctxReadCfg => 0x12
  | .acInit => 0x14
  | .encStart => 0x15
  | .encRegular => 0x16
  | .encBypass => 0x17
  | .encTerminate => 0x18
  | .decStart => 0x19
  | .decRegular => 0x1A
  | .decBypass => 0x1B
  | .decTerminate => 0x1C
  | .acStatus => 0x1D

/-- All operations, in the order of R85. -/
def Op.all : List Op :=
  [.bsBind, .bsGetbits, .bsPutbits, .bsAlign, .bsFlush, .bsClose, .bsSetLimit, .bsClearLimit, .bsClearError, .bsStatus,
   .bsGetLimit, .ctxInit] ++
  [.ctxRead, .ctxReadCfg, .acInit, .encStart, .encRegular, .encBypass, .encTerminate, .decStart, .decRegular, .decBypass,
   .decTerminate, .acStatus]

/-- The operation an OP value names, if it is assigned (R85, R86). -/
def opOf (code : BitVec 5) : Option Op := Op.all.find? (fun o => o.code == code)

/-- Which fields of CMD an operation uses besides OP: the "fields" column of R85. -/
structure Uses where
  ctx : Bool
  b : Bool
  imm : Bool
  deriving DecidableEq, Repr

/-- The "fields" column of R85: C, B, I. -/
def Op.uses : Op → Uses
  | .bsBind | .encBypass => ⟨false, true, false⟩
  | .bsGetbits | .bsPutbits => ⟨false, false, true⟩
  | .ctxInit => ⟨true, true, true⟩
  | .ctxRead | .ctxReadCfg | .decRegular => ⟨true, false, false⟩
  | .encRegular => ⟨true, true, false⟩
  | .bsAlign | .bsFlush | .bsClose | .bsSetLimit | .bsClearLimit | .bsClearError | .bsStatus | .bsGetLimit => ⟨false, false, false⟩
  | .acInit | .encStart | .encTerminate | .decStart | .decBypass | .decTerminate | .acStatus => ⟨false, false, false⟩

/-- RSV and every field the operation does not use are zero (R83). -/
def unusedZero (o : Op) (f : Fields) : Bool :=
  f.rsv == 0 && (o.uses.ctx || f.ctx == 0) && (o.uses.b || f.b == 0) && (o.uses.imm || f.imm == 0)

/-- The operand B as a truth value (R88). -/
def Fields.bit (f : Fields) : Bool := f.b == 1

/-- The operand `dir` of BS_BIND (R88). -/
def Fields.dir (f : Fields) : Direction := if f.b == 1 then .writer else .reader

/-- DATA[31:16], the operand `one` of CTX_INIT (R82, R88). -/
def dataOne (data : Word) : BitVec 16 := data.extractLsb' 16 16

/-- DATA[15:0], the operand `total` of CTX_INIT (R82, R88). -/
def dataTotal (data : Word) : BitVec 16 := data.extractLsb' 0 16

/-- The command an operation stands for, its operands taken from the fields (R82, R88). -/
def operands (o : Op) (f : Fields) (data : Word) : Instr :=
  match o with
  | .bsBind => .bsBind f.dir
  | .bsGetbits => .bsGetbits f.imm.toNat
  | .bsPutbits => .bsPutbits f.imm.toNat data
  | .bsAlign => .bsAlign
  | .bsFlush => .bsFlush
  | .bsClose => .bsClose
  | .bsSetLimit => .bsSetLimit data
  | .bsClearLimit => .bsClearLimit
  | .bsClearError => .bsClearError
  | .bsStatus => .bsStatus
  | .bsGetLimit => .bsGetLimit
  | .ctxInit => .ctxInit f.ctx.toNat (dataOne data) (dataTotal data) f.imm f.bit
  | .ctxRead => .ctxRead f.ctx.toNat
  | .ctxReadCfg => .ctxReadCfg f.ctx.toNat
  | .acInit => .acInit
  | .encStart => .encStart
  | .encRegular => .encRegular f.ctx.toNat f.bit
  | .encBypass => .encBypass f.bit
  | .encTerminate => .encTerminate
  | .decStart => .decStart
  | .decRegular => .decRegular f.ctx.toNat
  | .decBypass => .decBypass
  | .decTerminate => .decTerminate
  | .acStatus => .acStatus

/-- Why a CMD word is no command (R86, R250). Both are answered BadCommand. -/
inductive BadCommand where
  | reservedOp (code : BitVec 5)
  | nonzeroUnused (o : Op)
  deriving DecidableEq, Repr

/-- The decoder of R87, a total function of the two words of a request. -/
def decode (cmd data : Word) : Except BadCommand Instr :=
  match opOf (fieldsOf cmd).op with
  | none => .error (.reservedOp (fieldsOf cmd).op)
  | some o => if unusedZero o (fieldsOf cmd) then .ok (operands o (fieldsOf cmd) data) else .error (.nonzeroUnused o)

/-- The first word of a request whose bits are `w` (R80): CMD is bits 31:0. -/
def cmdWord (nbits w : Nat) : Word := BitVec.ofNat 32 (w % 2 ^ nbits)

/-- The second word of a request whose bits are `w`: DATA is bits 63:32, zero where `nbits` gives it none (log entry 15). -/
def dataWord (nbits w : Nat) : Word := BitVec.ofNat 32 (w % 2 ^ nbits / 2 ^ 32)

/-- The command the decoder reads from the request whose bits are `w`, numbered as opcode_table.json numbers them. -/
def decodeTableWord (nbits w : Nat) : Option Instr :=
  match decode (cmdWord nbits w) (dataWord nbits w) with
  | .ok i => some i
  | .error _ => none

/-! ## The encoder -/

/-- The CMD word of R81 and R97 from its fields. -/
def pack (f : Fields) : Word :=
  f.op.setWidth 32 <<< 27 ||| f.ctx.setWidth 32 <<< 19 ||| f.b.setWidth 32 <<< 18 ||| f.rsv.setWidth 32 <<< 16 |||
    f.imm.setWidth 32

/-- The operation of a command. -/
def Instr.op : Instr → Op
  | .bsBind _ => .bsBind
  | .bsGetbits _ => .bsGetbits
  | .bsPutbits _ _ => .bsPutbits
  | .bsAlign => .bsAlign
  | .bsFlush => .bsFlush
  | .bsClose => .bsClose
  | .bsSetLimit _ => .bsSetLimit
  | .bsClearLimit => .bsClearLimit
  | .bsClearError => .bsClearError
  | .bsStatus => .bsStatus
  | .bsGetLimit => .bsGetLimit
  | .ctxInit _ _ _ _ _ => .ctxInit
  | .ctxRead _ => .ctxRead
  | .ctxReadCfg _ => .ctxReadCfg
  | .acInit => .acInit
  | .encStart => .encStart
  | .encRegular _ _ => .encRegular
  | .encBypass _ => .encBypass
  | .encTerminate => .encTerminate
  | .decStart => .decStart
  | .decRegular _ => .decRegular
  | .decBypass => .decBypass
  | .decTerminate => .decTerminate
  | .acStatus => .acStatus

/-- The field B of a truth value. -/
def bitField (b : Bool) : BitVec 1 := BitVec.ofBool b

/-- The fields of a command: its operation and operands, zero in every field it does not use (R97). -/
def encodeFields (i : Instr) : Fields :=
  let bare : Fields := ⟨i.op.code, 0, 0, 0, 0⟩
  match i with
  | .bsBind .reader => bare
  | .bsBind .writer => { bare with b := 1 }
  | .bsGetbits n => { bare with imm := BitVec.ofNat 16 n }
  | .bsPutbits n _ => { bare with imm := BitVec.ofNat 16 n }
  | .ctxInit c _ _ maxf adaptive => { bare with ctx := BitVec.ofNat 8 c, b := bitField adaptive, imm := maxf }
  | .ctxRead c => { bare with ctx := BitVec.ofNat 8 c }
  | .ctxReadCfg c => { bare with ctx := BitVec.ofNat 8 c }
  | .encRegular c bit => { bare with ctx := BitVec.ofNat 8 c, b := bitField bit }
  | .encBypass bit => { bare with b := bitField bit }
  | .decRegular c => { bare with ctx := BitVec.ofNat 8 c }
  | .bsAlign | .bsFlush | .bsClose | .bsSetLimit _ | .bsClearLimit | .bsClearError | .bsStatus | .bsGetLimit => bare
  | .acInit | .encStart | .encTerminate | .decStart | .decBypass | .decTerminate | .acStatus => bare

/-- The DATA word of a command (R82, R97): 0 where the command uses none. -/
def encodeData : Instr → Word
  | .bsPutbits _ value => value
  | .bsSetLimit limit => limit
  | .ctxInit _ one total _ _ => one.setWidth 32 <<< 16 ||| total.setWidth 32
  | .bsBind _ | .bsGetbits _ | .bsAlign | .bsFlush | .bsClose | .bsClearLimit | .bsClearError | .bsStatus | .bsGetLimit => 0
  | .ctxRead _ | .ctxReadCfg _ | .acInit | .encStart | .encRegular _ _ | .encBypass _ | .encTerminate => 0
  | .decStart | .decRegular _ | .decBypass | .decTerminate | .acStatus => 0

/-- The two words of a command (R97). -/
def encode (i : Instr) : Word × Word := (pack (encodeFields i), encodeData i)

/-! ## The mask and match rows -/

/-- The `match` column of R85. -/
def Op.matchWord : Op → Word
  | .bsBind => 0x08000000
  | .bsGetbits => 0x10000000
  | .bsPutbits => 0x18000000
  | .bsAlign => 0x20000000
  | .bsFlush => 0x28000000
  | .bsClose => 0x30000000
  | .bsSetLimit => 0x38000000
  | .bsClearLimit => 0x40000000
  | .bsClearError => 0x48000000
  | .bsStatus => 0x50000000
  | .bsGetLimit => 0x58000000
  | .ctxInit => 0x80000000
  | .ctxRead => 0x88000000
  | .ctxReadCfg => 0x90000000
  | .acInit => 0xA0000000
  | .encStart => 0xA8000000
  | .encRegular => 0xB0000000
  | .encBypass => 0xB8000000
  | .encTerminate => 0xC0000000
  | .decStart => 0xC8000000
  | .decRegular => 0xD0000000
  | .decBypass => 0xD8000000
  | .decTerminate => 0xE0000000
  | .acStatus => 0xE8000000

/-- The `mask` column of R85. -/
def Op.maskWord : Op → Word
  | .bsBind => 0xFFFBFFFF
  | .bsGetbits => 0xFFFF0000
  | .bsPutbits => 0xFFFF0000
  | .bsAlign => 0xFFFFFFFF
  | .bsFlush => 0xFFFFFFFF
  | .bsClose => 0xFFFFFFFF
  | .bsSetLimit => 0xFFFFFFFF
  | .bsClearLimit => 0xFFFFFFFF
  | .bsClearError => 0xFFFFFFFF
  | .bsStatus => 0xFFFFFFFF
  | .bsGetLimit => 0xFFFFFFFF
  | .ctxInit => 0xF8030000
  | .ctxRead => 0xF807FFFF
  | .ctxReadCfg => 0xF807FFFF
  | .acInit => 0xFFFFFFFF
  | .encStart => 0xFFFFFFFF
  | .encRegular => 0xF803FFFF
  | .encBypass => 0xFFFBFFFF
  | .encTerminate => 0xFFFFFFFF
  | .decStart => 0xFFFFFFFF
  | .decRegular => 0xF807FFFF
  | .decBypass => 0xFFFFFFFF
  | .decTerminate => 0xFFFFFFFF
  | .acStatus => 0xFFFFFFFF

/-- The row test of R83 and R87: `CMD & mask = match`. -/
def Op.selects (o : Op) (cmd : Word) : Bool := cmd &&& o.maskWord == o.matchWord

/-! ## Pseudo-commands and the assembler form -/

/-- The exact expansion of each pseudo-command (R98). -/
def Pseudo.expand : Pseudo → List Instr
  | .putHeader nb bs => [.bsPutbits 16 (nb.setWidth 32), .bsPutbits 16 (bs.setWidth 32)]
  | .getHeader => [.bsGetbits 16, .bsGetbits 16]
  | .bsPutbyte v => [.bsPutbits 8 (v.setWidth 32)]
  | .ctxReset c => [.ctxInit c 1 2 65535 true]
  | .encBlockBegin => [.acInit, .encStart]
  | .decBlockBegin => [.acInit, .decStart]

/-- The mnemonic column of R85. -/
def Op.mnemonic : Op → String
  | .bsBind => "BS_BIND"
  | .bsGetbits => "BS_GETBITS"
  | .bsPutbits => "BS_PUTBITS"
  | .bsAlign => "BS_ALIGN"
  | .bsFlush => "BS_FLUSH"
  | .bsClose => "BS_CLOSE"
  | .bsSetLimit => "BS_SET_LIMIT"
  | .bsClearLimit => "BS_CLEAR_LIMIT"
  | .bsClearError => "BS_CLEAR_ERROR"
  | .bsStatus => "BS_STATUS"
  | .bsGetLimit => "BS_GET_LIMIT"
  | .ctxInit => "CTX_INIT"
  | .ctxRead => "CTX_READ"
  | .ctxReadCfg => "CTX_READ_CFG"
  | .acInit => "AC_INIT"
  | .encStart => "ENC_START"
  | .encRegular => "ENC_REGULAR"
  | .encBypass => "ENC_BYPASS"
  | .encTerminate => "ENC_TERMINATE"
  | .decStart => "DEC_START"
  | .decRegular => "DEC_REGULAR"
  | .decBypass => "DEC_BYPASS"
  | .decTerminate => "DEC_TERMINATE"
  | .acStatus => "AC_STATUS"

/-- The operands of a command in the order of the assembler form (R97); BS_BIND's operand is a word of its own. -/
def Instr.asmOperands : Instr → List Nat
  | .bsGetbits n => [n]
  | .bsPutbits n value => [n, value.toNat]
  | .bsSetLimit limit => [limit.toNat]
  | .ctxInit c one total maxf adaptive => [c, one.toNat, total.toNat, maxf.toNat, adaptive.toNat]
  | .ctxRead c => [c]
  | .ctxReadCfg c => [c]
  | .encRegular c bit => [c, bit.toNat]
  | .encBypass bit => [bit.toNat]
  | .decRegular c => [c]
  | .bsBind _ | .bsAlign | .bsFlush | .bsClose | .bsClearLimit | .bsClearError | .bsStatus | .bsGetLimit => []
  | .acInit | .encStart | .encTerminate | .decStart | .decBypass | .decTerminate | .acStatus => []

/-- The line of a command in the assembler form of R97, its operands in decimal. -/
def Instr.asm (i : Instr) : String :=
  match i with
  | .bsBind .reader => "BS_BIND reader"
  | .bsBind .writer => "BS_BIND writer"
  | i => " ".intercalate (i.op.mnemonic :: [", ".intercalate (i.asmOperands.map toString)].filter (· ≠ ""))

end Sys2Proof
end

