-- ==== Sys2Proof/Config.lean ====
section
/-! DEFINITION. The parameters of 00_scope.md R7, and the constants with no body that stand for what the spec leaves OPEN:
the number of contexts (D8, X6), the failure oracle (D17, X4) and the read channel's contents (X7). -/

namespace Sys2Proof.Config

/-- N_MIN and N_MAX (R7): the legal bit counts of one get or put. -/
abbrev nMin : Nat := 1
abbrev nMax : Nat := 31

/-- TOP (R7): the coder renormalizes while HIGH - LOW + 1 is below it. -/
abbrev top : Nat := 2 ^ 24

/-- 2 to the power CODE_BITS (R7): the size of the code window. -/
abbrev codeSpan : Nat := 2 ^ 32

/-- The factor of one renormalization step: 2 to the power RENORM_UNIT (R7). -/
abbrev renormUnit : Nat := 2 ^ 8

/-- MIN_MAX_FREQ (R7): the smallest legal maxFreq. -/
abbrev minMaxFreq : Nat := 2

/-- DEFAULT_MAX_FREQ (R7): maxFreq of every context after reset. -/
abbrev defaultMaxFreq : BitVec 16 := 65535

/-- TERM_BYTES (R7): the bytes ENC_TERMINATE writes after draining the carry state, and DEC_START reads. -/
abbrev termBytes : Nat := 4

/-- 2 to the power PENDING_BITS (R7): PENDING stays below it (R206, X3). -/
abbrev pendingSpan : Nat := 2 ^ 32

/-- How many renormalization steps are enough for every interval that is not empty (log entry 9): three steps multiply
a width of at least 1 by 2^24. R223 shows that no run needs more than two. -/
abbrev renormSteps : Nat := 3

/-- How many of the 256 context ids name no context. OPEN (D8, X6): no body, so that no proof can lean on a value. -/
opaque absentCtx : Fin 256

/-- NUM_CTX (R7, OPEN): 256 less the absent ids, so 1 to 256 whatever `absentCtx` is (log entry 1). -/
def numCtx : Nat := (255 - absentCtx.val) + 1

/-- FailureOracle (R63, R64, X4, OPEN): whether the environment makes channel transfer number `k` fail. No body: "a draw
of the environment under no law" (log entry 2). -/
opaque failureOracle : Nat → Bool

/-- The bytes of the read channel that is connected when the block leaves reset (X7, OPEN). No body (log entry 3). -/
opaque connectedInput : List Byte

end Sys2Proof.Config
end

