-- ==== Sys2Proof/Machine/State.lean ====
section
/-! DEFINITION. The state of AC-CORE as plain data (10_state.md R13 to R30), the environment's data that R62 says a model
takes as a parameter, the reasons a step can stop, and the state after reset (R30, 70_reset_and_hazards.md R270, R271). -/

namespace Sys2Proof.Machine

/-- MODE (R16). Its value 3 "is never written" (X8) and is not representable (log entry 14). -/
inductive Mode where
  | none
  | reader
  | writer
  deriving DecidableEq, Repr

/-- The three stream error kinds ERR can hold (R19). -/
inductive StreamErr where
  | ioExhausted
  | ioFailure
  | limitExceeded
  deriving DecidableEq, Repr

/-- STATUS (30_encoding.md R96). -/
inductive Status where
  | ok
  | ioExhausted
  | ioFailure
  | limitExceeded
  | decodeFailure
  | badArgument
  | badState
  | badCommand
  deriving DecidableEq, Repr

/-- STATE, the block state machine (R24). -/
inductive BlockState where
  | unstarted
  | started
  | terminated
  | failed
  deriving DecidableEq, Repr

/-- ROLE (R25). Its value 3 "is never written" (X8) and is not representable (log entry 14). -/
inductive Role where
  | none
  | enc
  | dec
  deriving DecidableEq, Repr

/-- The Bit Stream registers (R16 to R20). -/
structure BitStream where
  mode : Mode
  buf : BitVec 8
  count : BitVec 4
  err : Option StreamErr
  limitEn : Bool
  limit : BitVec 32
  deriving DecidableEq, Repr

/-- One entry of the context file (R21). -/
structure Context where
  one : BitVec 16
  total : BitVec 16
  maxf : BitVec 16
  adapt : Bool
  deriving DecidableEq, Repr

/-- The Arithmetic Coder registers (R24 to R28). -/
structure Coder where
  state : BlockState
  role : Role
  low : BitVec 33
  high : BitVec 33
  code : BitVec 32
  cache : BitVec 8
  cacheValid : Bool
  pending : BitVec 32
  deriving DecidableEq, Repr

/-- The channel the host supplies (20_memory.md R62): IN, INPOS, OUT and the failure oracle. `draws` are the draws the
environment has fixed, oldest first; a draw past them is free (log entry 2). `drawn` counts the draws made. It is the
environment's, not AC-CORE's. -/
structure Channel where
  input : List Byte
  inpos : Nat
  output : List Byte
  draws : List Bool
  drawn : Nat
  deriving DecidableEq, Repr

/-- What the host does next, between two commands (log entries 4, 6, 7): issue a request (R80), supply a channel with the
given contents and fixed draws (R62), or apply the external reset (R270). -/
inductive HostEvent where
  | request (cmd data : BitVec 32)
  | supply (input : List Byte) (draws : List Bool)
  | reset
  deriving DecidableEq, Repr

/-- A response (R80): STATUS and RESULT. -/
structure Response where
  status : Status
  result : BitVec 32
  deriving DecidableEq, Repr

/-- The machine: AC-CORE's registers (`bs`, `ctx`, `ac`: R13), the channel (`chan`: R62), the host's actions still to come,
oldest first (`host`: R80), and the last response given (`resp`: R80; no command reads it, log entry 5). The length of `ctx`
is NUM_CTX (R21, log entry 1). -/
structure State where
  bs : BitStream
  ctx : List Context
  ac : Coder
  chan : Channel
  host : List HostEvent
  resp : Option Response
  deriving DecidableEq, Repr

/-- Why the machine stops with a fault. -/
inductive Fault where
  /-- Raised by ENC_REGULAR, ENC_BYPASS, DEC_REGULAR and DEC_BYPASS where the loop of R208 or R209 would never end, because
  the interval is empty. R221 and R222 show that no run reaches such a state. Safe: the model stops (log entry 9). -/
  | renormDiverges
  deriving DecidableEq, Repr

/-- Why the machine gives no next state. -/
inductive Refusal where
  /-- Raised by an arm of `exec` that has no meaning yet. Safe: the model stops. -/
  | notModelled (mnemonic : String)
  /-- Raised by ENC_REGULAR, ENC_BYPASS and ENC_TERMINATE where EmitTop would count a held byte past 2^32 - 1 (R206;
  93_implementation_defined.md X3, treatment "refuse"). Safe: the model stops (log entry 8). -/
  | pendingOverflow
  deriving DecidableEq, Repr

/-- The Bit Stream registers after reset (R30). -/
def BitStream.reset : BitStream where
  mode := .none
  buf := 0
  count := 0
  err := none
  limitEn := false
  limit := 0

/-- A context after reset (R23, R30). -/
def Context.reset : Context where
  one := 1
  total := 2
  maxf := Config.defaultMaxFreq
  adapt := true

/-- The coder registers after reset (R30). -/
def Coder.reset : Coder where
  state := .unstarted
  role := .none
  low := 0
  high := 0
  code := 0
  cache := 0
  cacheValid := false
  pending := 0

/-- The machine of `n` contexts right after reset, connected to the channel `ch`, with nothing issued yet. -/
def State.resetFor (n : Nat) (ch : Channel) : State where
  bs := .reset
  ctx := List.replicate n .reset
  ac := .reset
  chan := ch
  host := []
  resp := none

/-- The channel at reset: contents unknown (X7), position 0, nothing accepted yet, no draw fixed (log entries 2, 3). -/
def Channel.atReset : Channel where
  input := Config.connectedInput
  inpos := 0
  output := []
  draws := []
  drawn := 0

/-- The machine right after reset (R30, R270, R271). NUM_CTX is the OPEN parameter (log entry 1). -/
def State.reset : State := State.resetFor Config.numCtx Channel.atReset

end Sys2Proof.Machine
end

