-- ==== Sys2Proof/Machine/Flags.lean ====
section
/-! DEFINITION. Status codes and the flag-like state of AC-CORE (10_state.md R31): the codes of R96, the read layouts of
R90 to R93, and the state preconditions of 60_exceptions.md R249. AC-CORE has no arithmetic condition codes. -/

namespace Sys2Proof.Machine

/-- The status codes of R96. -/
def Status.code : Status → BitVec 3
  | .ok => 0
  | .ioExhausted => 1
  | .ioFailure => 2
  | .limitExceeded => 3
  | .decodeFailure => 4
  | .badArgument => 5
  | .badState => 6
  | .badCommand => 7

/-- The status a stream error is reported with (R19: the kinds "equal the status codes" 1 to 3). -/
def StreamErr.status : StreamErr → Status
  | .ioExhausted => .ioExhausted
  | .ioFailure => .ioFailure
  | .limitExceeded => .limitExceeded

/-- The value of the register ERR (R19). -/
def errCode : Option StreamErr → Nat
  | none => 0
  | some .ioExhausted => 1
  | some .ioFailure => 2
  | some .limitExceeded => 3

/-- The value of the register MODE (R16). -/
def Mode.code : Mode → Nat
  | .none => 0
  | .reader => 1
  | .writer => 2

/-- The value of the register STATE (R24). -/
def BlockState.code : BlockState → Nat
  | .unstarted => 0
  | .started => 1
  | .terminated => 2
  | .failed => 3

/-- The value of the register ROLE (R25). -/
def Role.code : Role → Nat
  | .none => 0
  | .enc => 1
  | .dec => 2

/-- RESULT of BS_STATUS (R90, R139): COUNT | ERR<<4 | LIMIT_EN<<7 | MODE<<8. -/
def bsStatusWord (b : BitStream) : BitVec 32 :=
  BitVec.ofNat 32 (b.count.toNat + errCode b.err * 2 ^ 4 + b.limitEn.toNat * 2 ^ 7 + b.mode.code * 2 ^ 8)

/-- RESULT of AC_STATUS (R93, R220): STATE | ROLE<<2. -/
def acStatusWord (a : Coder) : BitVec 32 := BitVec.ofNat 32 (a.state.code + a.role.code * 2 ^ 2)

/-- RESULT of CTX_READ (R91, R166): ONE<<16 | TOTAL. -/
def ctxCountsWord (c : Context) : BitVec 32 := BitVec.ofNat 32 (c.one.toNat * 2 ^ 16 + c.total.toNat)

/-- RESULT of CTX_READ_CFG (R92, R167): ADAPT<<16 | MAXF. -/
def ctxCfgWord (c : Context) : BitVec 32 := BitVec.ofNat 32 (c.adapt.toNat * 2 ^ 16 + c.maxf.toNat)

/-! ## The state preconditions of R249 -/

/-- A block is running. -/
def State.started (s : State) : Bool := s.ac.state == .started

/-- BS_BIND: MODE = NONE and not STARTED. -/
def State.mayBind (s : State) : Bool := s.bs.mode == .none && !s.started

/-- BS_GETBITS: MODE = READER and not STARTED. -/
def State.mayGet (s : State) : Bool := s.bs.mode == .reader && !s.started

/-- BS_PUTBITS and BS_FLUSH: MODE = WRITER and not STARTED. -/
def State.mayPut (s : State) : Bool := s.bs.mode == .writer && !s.started

/-- BS_ALIGN and BS_CLOSE: MODE ≠ NONE and not STARTED. -/
def State.mayMove (s : State) : Bool := s.bs.mode != .none && !s.started

/-- BS_SET_LIMIT, BS_CLEAR_LIMIT and BS_CLEAR_ERROR: MODE ≠ NONE. -/
def State.bound (s : State) : Bool := s.bs.mode != .none

/-- ENC_START: STATE = UNSTARTED and MODE = WRITER. -/
def State.mayStartEnc (s : State) : Bool := s.ac.state == .unstarted && s.bs.mode == .writer

/-- DEC_START: STATE = UNSTARTED and MODE = READER. -/
def State.mayStartDec (s : State) : Bool := s.ac.state == .unstarted && s.bs.mode == .reader

/-- ENC_REGULAR, ENC_BYPASS and ENC_TERMINATE: STATE = STARTED and ROLE = ENC. -/
def State.encoding (s : State) : Bool := s.started && s.ac.role == .enc

/-- DEC_REGULAR, DEC_BYPASS and DEC_TERMINATE: STATE = STARTED and ROLE = DEC. -/
def State.decoding (s : State) : Bool := s.started && s.ac.role == .dec

end Sys2Proof.Machine
end

