-- ==== Sys2Proof/Machine/Operands.lean ====
section
/-! DEFINITION. The operand forms of AC-CORE (30_encoding.md R88) and their ranges, which decide BadArgument
(60_exceptions.md R248). -/

namespace Sys2Proof.Machine

/-- A bit count of a get or put: 1 to 31 (R88, R131, R132). -/
def countOk (n : Nat) : Bool := decide (Config.nMin ≤ n) && decide (n ≤ Config.nMax)

/-- A value to put fits in `n` bits (R88, R132). -/
def valueFits (n : Nat) (value : BitVec 32) : Bool := decide (value.toNat < 2 ^ n)

/-- The arguments of BS_PUTBITS are in range (R132). -/
def putArgsOk (n : Nat) (value : BitVec 32) : Bool := countOk n && valueFits n value

/-- The context a context id names; none for an id of NUM_CTX or more (R61, R88). -/
def State.ctxAt (s : State) (c : Nat) : Option Context := s.ctx[c]?

/-- CTX[c] <- x (R9): only the entry `c` is written. -/
def State.putCtx (s : State) (c : Nat) (x : Context) : State := { s with ctx := s.ctx.set c x }

/-- The counts of CTX_INIT are in range (R165, R248): 2 <= maxf, 1 <= one < total <= maxf. -/
def countsOk (one total maxf : BitVec 16) : Bool :=
  decide (Config.minMaxFreq ≤ maxf.toNat) && decide (1 ≤ one.toNat) && decide (one.toNat < total.toNat) &&
    decide (total.toNat ≤ maxf.toNat)

/-- MODE after BS_BIND (R88, R130). -/
def modeOf : Direction → Mode
  | .reader => .reader
  | .writer => .writer

/-- COUNT after BS_BIND (R130): a writer starts with eight free positions, a reader with no unread bit. -/
def boundCount : Direction → BitVec 4
  | .reader => 0
  | .writer => 8

end Sys2Proof.Machine
end

