-- ==== Sys2Proof/Machine/Ops.lean ====
section
/-! DEFINITION. The shared operations of AC-CORE, each written once: the channel primitives (20_memory.md R63, R64), the Bit
Stream procedures (40_bitstream.md R120 to R123), the context procedures (41_context_model.md R161, R162), the coder
procedures (42_arith_coder.md R200 to R210), how a command ends, on an error too (60_exceptions.md R246, R247; 42 R202), and
the host's other actions (R62, R270). AC-CORE has no trap entry and no return from one (R254, R255): `raise` and `fail_block`
are all it has in their place. -/

namespace Sys2Proof.Machine

/-! ## What a procedure ends in -/

/-- How a procedure over a piece `σ` of the machine ends: with a value, or by a raise (R9). Both carry the piece as it then
is: "every write made before the raise stays made" (R246). -/
inductive Run (σ α : Type) where
  | done (a : α) (s : σ)
  | raised (x : StreamErr) (s : σ)
  deriving DecidableEq, Repr

/-- Go on with `k` after a value; "a procedure that calls a primitive which raises is itself ended by that raise" (R9). -/
def Run.andThen {σ α β : Type} (r : Run σ α) (k : α → σ → Run σ β) : Run σ β :=
  match r with
  | .done a s => k a s
  | .raised x s => .raised x s

/-! ## The channel -/

/-- The next draw of the failure oracle (R63, R64): the next fixed draw, else a free one (log entry 2). -/
def Channel.nextDraw (ch : Channel) : Bool :=
  match ch.draws with
  | d :: _ => d
  | [] => Config.failureOracle ch.drawn

/-- The channel after one draw. -/
def Channel.drawOne (ch : Channel) : Channel := { ch with draws := ch.draws.tail, drawn := ch.drawn + 1 }

/-- `ChanRead()` (R63): a failure and the end of input consume no byte. -/
def chanRead (ch : Channel) : Run Channel Byte :=
  if ch.nextDraw then .raised .ioFailure ch.drawOne
  else
    match ch.input[ch.inpos]? with
    | none => .raised .ioExhausted ch.drawOne
    | some b => .done b { ch.drawOne with inpos := ch.inpos + 1 }

/-- `ChanWrite(b)` (R64): on a failure the byte is not delivered. -/
def chanWrite (b : Byte) (ch : Channel) : Run Channel Unit :=
  if ch.nextDraw then .raised .ioFailure ch.drawOne
  else .done () { ch.drawOne with output := ch.output ++ [b] }

/-! ## The Bit Stream procedures -/

/-- The Bit Stream registers together with the channel they are bound to: all that the procedures of R120 to R123 touch. -/
structure Stream where
  bs : BitStream
  chan : Channel
  deriving DecidableEq, Repr

/-- The stream part of the machine. -/
def State.stream (s : State) : Stream := ⟨s.bs, s.chan⟩

/-- The machine with that stream part. -/
def State.setStream (s : State) (t : Stream) : State := { s with bs := t.bs, chan := t.chan }

/-- Record a stream error in ERR and raise it (R120 to R123). -/
def Stream.fail {α : Type} (x : StreamErr) (t : Stream) : Run Stream α :=
  .raised x { t with bs := { t.bs with err := some x } }

/-- `PreCheck(n)` (R120): the sticky error first, then the limit. -/
def preCheck (n : Nat) (t : Stream) : Run Stream Unit :=
  match t.bs.err with
  | some x => .raised x t
  | none => if t.bs.limitEn && decide (t.bs.limit.toNat < n) then t.fail .limitExceeded else .done () t

/-- "if LIMIT_EN = 1 then LIMIT <- LIMIT - n" (R121, R122). -/
def chargeLimit (n : Nat) (t : Stream) : Stream :=
  if t.bs.limitEn then { t with bs := { t.bs with limit := BitVec.ofNat 32 (t.bs.limit.toNat - n) } } else t

/-- Fetch a byte when no unread bit is left (R121): on a failure COUNT stays 0 and BUF is unchanged. -/
def refill (t : Stream) : Run Stream Unit :=
  if t.bs.count = 0 then
    match chanRead t.chan with
    | .done b ch => .done () { bs := { t.bs with buf := b, count := 8 }, chan := ch }
    | .raised x ch => Stream.fail x { t with chan := ch }
  else .done () t

/-- BUF[COUNT-1], the next unread bit (R121). DESIGN CHOICE, only for states that no run reaches: with COUNT = 0, COUNT - 1 is
0, and with COUNT above 8 the bit reads 0 (log entry 10). -/
def nextBit (t : Stream) : Bool := t.bs.buf.getLsbD (t.bs.count.toNat - 1)

/-- COUNT <- COUNT - 1. -/
def stepCount (t : Stream) : Stream := { t with bs := { t.bs with count := t.bs.count - 1 } }

/-- The loop of GetBits (R121): `n` more bits, most significant first, after the bits already in `v`. -/
def getLoop : Nat → Nat → Stream → Run Stream Nat
  | 0, v, t => .done v t
  | n + 1, v, t => (refill t).andThen fun _ t => getLoop n (2 * v + (nextBit t).toNat) (stepCount t)

/-- `GetBits(n)` (R121). -/
def getBits (n : Nat) (t : Stream) : Run Stream Nat :=
  (preCheck n t).andThen fun _ t => (getLoop n 0 t).andThen fun v t => .done v (chargeLimit n t)

/-- Give BUF to the channel and start an empty byte (R122, R123): the byte is lost where the write fails. -/
def writeBuf (t : Stream) : Run Stream Unit :=
  match chanWrite t.bs.buf t.chan with
  | .done _ ch => .done () { bs := { t.bs with buf := 0, count := 8 }, chan := ch }
  | .raised x ch => Stream.fail x { bs := { t.bs with buf := 0, count := 8 }, chan := ch }

/-- One round of PutBits (R122): the bit goes to the highest free position; a full byte is written at once. DESIGN CHOICE, only
for states that no run reaches: with COUNT = 0 the shift is by 0, and with COUNT above 8 the bit is dropped (log entry 10). -/
def putBit (b : Bool) (t : Stream) : Run Stream Unit :=
  let buf := t.bs.buf ||| (BitVec.ofBool b).setWidth 8 <<< (t.bs.count.toNat - 1)
  let t := stepCount { t with bs := { t.bs with buf := buf } }
  if t.bs.count = 0 then writeBuf t else .done () t

/-- The loop of PutBits (R122): bits `n-1` down to 0 of `v`. -/
def putLoop (v : Nat) : Nat → Stream → Run Stream Unit
  | 0, t => .done () t
  | n + 1, t => (putBit (v.testBit n) t).andThen fun _ t => putLoop v n t

/-- `PutBits(v, n)` (R122). -/
def putBits (v n : Nat) (t : Stream) : Run Stream Unit :=
  (preCheck n t).andThen fun _ t => (putLoop v n t).andThen fun _ t => .done () (chargeLimit n t)

/-- `FlushPartial()` (R123): LIMIT and ERR are not consulted. -/
def flushPartial (t : Stream) : Run Stream Unit := if t.bs.count.toNat < 8 then writeBuf t else .done () t

/-! ## The context procedures -/

/-- ZERO, the frequency of symbol 0 (R21). DESIGN CHOICE, only for states that no run reaches: with ONE > TOTAL it is 0 (log
entry 10). -/
def Context.zero (x : Context) : Nat := x.total.toNat - x.one.toNat

/-- `Rescale(one, total)` (R162): both symbol counts are halved, rounding up. DESIGN CHOICE, only for states that no run
reaches: with one > total the difference is 0 (log entry 10). -/
def rescale (one total : Nat) : Nat × Nat :=
  let ones := (one + 1) / 2
  let zeros := (total - one + 1) / 2
  (ones, ones + zeros)

/-- The counts after one symbol, before they are stored (R161): the transient total may need 17 bits. -/
def nextCounts (x : Context) (bit : Bool) : Nat × Nat :=
  let one := x.one.toNat + bit.toNat
  let total := x.total.toNat + 1
  if x.maxf.toNat ≤ total then rescale one total else (one, total)

/-- `Update(c, bit)` (R161) on the entry it names. -/
def Context.update (x : Context) (bit : Bool) : Context :=
  if x.adapt then
    { x with one := BitVec.ofNat 16 (nextCounts x bit).1, total := BitVec.ofNat 16 (nextCounts x bit).2 }
  else x

/-! ## The coder procedures -/

/-- The coder registers together with the stream: all that the procedures of R200 to R210 touch. -/
structure Engine where
  ac : Coder
  stream : Stream
  deriving DecidableEq, Repr

/-- The coder and stream part of the machine. -/
def State.engine (s : State) : Engine := ⟨s.ac, s.stream⟩

/-- The machine with that coder and stream part. -/
def State.setEngine (s : State) (e : Engine) : State := { s.setStream e.stream with ac := e.ac }

/-- How a coder procedure ends: with a value, by a raise, where PENDING would pass its width (R206, X3; log entry 8), or
where its renormalization loop would never end (log entry 9). -/
inductive Coded (α : Type) where
  | done (a : α) (e : Engine)
  | raised (x : StreamErr) (e : Engine)
  | overflow
  | diverges
  deriving DecidableEq, Repr

/-- Go on with `k` after a value. -/
def Coded.andThen {α β : Type} (r : Coded α) (k : α → Engine → Coded β) : Coded β :=
  match r with
  | .done a e => k a e
  | .raised x e => .raised x e
  | .overflow => .overflow
  | .diverges => .diverges

/-- A stream procedure run by the coder (R200: "never directly through the channel"). -/
def onStream {α : Type} (p : Stream → Run Stream α) (e : Engine) : Coded α :=
  match p e.stream with
  | .done a t => .done a { e with stream := t }
  | .raised x t => .raised x { e with stream := t }

/-- `PutByte(b)` (R200). -/
def putByte (b : Nat) (e : Engine) : Coded Unit := onStream (putBits b 8) e

/-- `GetByte()` (R200). -/
def getByte (e : Engine) : Coded Nat := onStream (getBits 8) e

/-- "repeat PENDING times: PutByte(b)" (R206, R210). -/
def putRun (b : Nat) : Nat → Engine → Coded Unit
  | 0, e => .done () e
  | n + 1, e => (putByte b e).andThen fun _ e => putRun b n e

/-- `R`, the interval width (R203). DESIGN CHOICE, only for states that no run reaches: with LOW > HIGH + 1 it is 0 (log entry
10). -/
def Coder.range (a : Coder) : Nat := a.high.toNat + 1 - a.low.toNat

/-- `Split(f0, T)` (R204): the width of symbol 0's sub-interval, floored. DESIGN CHOICE, only for states that no run reaches:
with T = 0 it is 0 (log entry 10). -/
def split (r f0 t : Nat) : Nat := r * f0 / t

/-- `Select(r0, bit)` (R205): symbol 0 takes the lower part, symbol 1 the upper part. DESIGN CHOICE, only for states that no run
reaches: with LOW = 0 and r0 = 0, LOW + r0 - 1 is 0, and a value past 2^33 - 1 is stored modulo 2^33 (log entry 10). -/
def Coder.select (a : Coder) (r0 : Nat) (bit : Bool) : Coder :=
  if bit then { a with low := BitVec.ofNat 33 (a.low.toNat + r0) }
  else { a with high := BitVec.ofNat 33 (a.low.toNat + r0 - 1) }

/-- LOW[32], the carry out of the code window, as the number EmitTop adds (R206). -/
def Coder.carry (a : Coder) : Nat := a.low.toNat / Config.codeSpan

/-- LOW[31:24], the byte now determined up to a carry (R206). -/
def Coder.topByte (a : Coder) : Nat := a.low.toNat / Config.top % 2 ^ 8

/-- "(LOW mod 2^24) * 2^8" (R207, R210). -/
def Coder.shiftedLow (a : Coder) : BitVec 33 := BitVec.ofNat 33 (a.low.toNat % Config.top * Config.renormUnit)

/-- `EmitTop()` (R206): LOW's top byte goes into the carry-resolution state; CACHE and the held bytes are written once the
carry into them is resolved. -/
def emitTop (e : Engine) : Coded Unit :=
  let c := e.ac.carry
  let t := e.ac.topByte
  if e.ac.cacheValid = false then
    .done () { e with ac := { e.ac with cache := BitVec.ofNat 8 t, cacheValid := true, pending := 0 } }
  else if c = 1 ∨ t ≠ 0xFF then
    (putByte ((e.ac.cache.toNat + c) % 256) e).andThen fun _ e =>
      (putRun ((0xFF + c) % 256) e.ac.pending.toNat e).andThen fun _ e =>
        .done () { e with ac := { e.ac with cache := BitVec.ofNat 8 t, pending := 0 } }
  else if e.ac.pending.toNat + 1 < Config.pendingSpan then
    .done () { e with ac := { e.ac with pending := e.ac.pending + 1 } }
  else .overflow

/-- `Shift()` (R207): the interval at 2^8 times the scale, LOW[32:24] dropped. DESIGN CHOICE, only for states that no run
reaches: with LOW mod 2^24 = 0 and R = 0, HIGH is 0 (log entry 10). -/
def Coder.shift (a : Coder) : Coder :=
  let low := a.shiftedLow
  { a with low := low, high := BitVec.ofNat 33 (low.toNat + a.range * Config.renormUnit - 1) }

/-- `EncRenorm()` (R208), with at most `n` steps (log entry 9). -/
def encRenorm : Nat → Engine → Coded Unit
  | 0, e => if e.ac.range < Config.top then .diverges else .done () e
  | n + 1, e =>
    if e.ac.range < Config.top then
      (emitTop e).andThen fun _ e => encRenorm n { e with ac := e.ac.shift }
    else .done () e

/-- "CODE <- (CODE * 2^8 + b) mod 2^32" (R209, R215). -/
def Coder.pushCode (a : Coder) (b : Nat) : Coder := { a with code := BitVec.ofNat 32 (a.code.toNat * 2 ^ 8 + b) }

/-- `DecRenorm()` (R209), with at most `n` steps (log entry 9). -/
def decRenorm : Nat → Engine → Coded Unit
  | 0, e => if e.ac.range < Config.top then .diverges else .done () e
  | n + 1, e =>
    if e.ac.range < Config.top then
      (getByte e).andThen fun b e => decRenorm n { e with ac := (e.ac.pushCode b).shift }
    else .done () e

/-- The four rounds of EncFlush (R210): EmitTop, then LOW shifted; HIGH is not updated. -/
def flushRounds : Nat → Engine → Coded Unit
  | 0, e => .done () e
  | n + 1, e => (emitTop e).andThen fun _ e => flushRounds n { e with ac := { e.ac with low := e.ac.shiftedLow } }

/-- `EncFlush()` (R210). CACHE is left as the pseudocode leaves it: the byte before the held run. DESIGN CHOICE where PENDING > 0
(LOW = 0xBFFFFFFF): R210's note says there that CACHE holds the last byte written, which is then a held 0xFF; no command reads
it before AC_INIT or ENC_START writes it (log entry 17). -/
def encFlush (e : Engine) : Coded Unit :=
  (flushRounds Config.termBytes e).andThen fun _ e =>
    (putByte e.ac.cache.toNat e).andThen fun _ e =>
      (putRun 0xFF e.ac.pending.toNat e).andThen fun _ e =>
        .done () { e with ac := { e.ac with pending := 0, cacheValid := false } }

/-- DEC_START's loading of CODE, `n` bytes (R215). -/
def loadCode : Nat → Engine → Coded Unit
  | 0, e => .done () e
  | n + 1, e => (getByte e).andThen fun b e => loadCode n { e with ac := e.ac.pushCode b }

/-- One encoded symbol up to its Update (R212, R213): split, select, renormalize. -/
def encodeSymbol (f0 t : Nat) (bit : Bool) (e : Engine) : Coded Unit :=
  encRenorm Config.renormSteps { e with ac := e.ac.select (split e.ac.range f0 t) bit }

/-- `off`, the code value's distance from LOW (R216): (CODE - LOW[31:0]) mod 2^32. -/
def Coder.offset (a : Coder) : Nat := (a.code - a.low.setWidth 32).toNat

/-- The decoder's decision (R216, R217): 1 when `off >= r0`. -/
def Coder.decision (a : Coder) (r0 : Nat) : Bool := decide (r0 ≤ a.offset)

/-- One decoded symbol up to its Update (R216, R217): split, decide, select, renormalize. -/
def decodeSymbol (f0 t : Nat) (e : Engine) : Coded Bool :=
  let r0 := split e.ac.range f0 t
  let bit := e.ac.decision r0
  (decRenorm Config.renormSteps { e with ac := e.ac.select r0 bit }).andThen fun _ e => .done bit e

/-! ## How a command ends -/

/-- The outcome of a command. -/
abbrev Result := Host.Outcome State Fault Refusal

/-- The machine once it has given a response (R80). -/
def State.answer (s : State) (st : Status) (v : BitVec 32) : State := { s with resp := some ⟨st, v⟩ }

/-- `return (S, v)` (R9): the command ends with this status and result. -/
def ended (st : Status) (v : BitVec 32) (s : State) : Result := .next (s.answer st v)

/-- `raise S` (R9, R246): the command ends at once with status S and RESULT = 0; every write made stays made. -/
def raise (st : Status) (s : State) : Result := ended st 0 s

/-- `fail_block S` (R202): STATE <- FAILED, then raise S. -/
def failBlock (st : Status) (s : State) : Result := raise st { s with ac := { s.ac with state := .failed } }

/-- A common check (R247, steps 2 and 3): where it fails the command ends with that status and nothing else changes. -/
def require (holds : Bool) (st : Status) (s : State) (k : Result) : Result := if holds then k else raise st s

/-- The sticky check of a coder command (R247 step 4, R202 case 1). -/
def unlessFaulted (s : State) (k : Result) : Result :=
  match s.bs.err with
  | some x => failBlock x.status s
  | none => k

/-- A stream procedure run by a Bit Stream command: a raise ends the command (R246). -/
def runStream {α : Type} (p : Stream → Run Stream α) (s : State) (k : α → State → Result) : Result :=
  match p s.stream with
  | .done a t => k a (s.setStream t)
  | .raised x t => raise x.status (s.setStream t)

/-- A coder procedure run by a coder command: a raise fails the block (R202 case 2). -/
def runCoder {α : Type} (p : Engine → Coded α) (s : State) (k : α → State → Result) : Result :=
  match p s.engine with
  | .done a e => k a (s.setEngine e)
  | .raised x e => failBlock x.status (s.setEngine e)
  | .overflow => .refused .pendingOverflow
  | .diverges => .fault .renormDiverges

/-- A CMD word that is no command (R250): BadCommand, and nothing else changes. -/
def badCommand (s : State) : Result := raise .badCommand s

/-! ## The host's other actions -/

/-- The host supplies a channel (R62): its contents from position 0, nothing accepted yet (log entry 6). -/
def State.supplyChannel (s : State) (input : List Byte) (draws : List Bool) : State :=
  { s with chan := { input := input, inpos := 0, output := [], draws := draws, drawn := s.chan.drawn } }

/-- The external reset (R270): every register and context as after reset; no channel transfer, nothing flushed
(log entry 7). -/
def State.externalReset (s : State) : State :=
  { s with bs := .reset, ctx := s.ctx.map fun _ => Context.reset, ac := .reset }

end Sys2Proof.Machine
end

