-- ==== Sys2Proof/Machine/ArithCoder.lean ====
section
/-! DEFINITION. The ten Arithmetic Coder commands (42_arith_coder.md R211 to R220), one meaning each. Each makes the common
checks in the order of 60_exceptions.md R247: BadState, BadArgument, then the sticky stream error, which fails the block. -/

namespace Sys2Proof.Machine

/-- AC_INIT (R219): the coder group as after reset. -/
def execAcInit (s : State) : Result :=
  ended .ok 0
    { s with
      ac := { state := .unstarted, role := .none, low := 0, high := 0, code := 0, cache := 0, cacheValid := false
              pending := 0 } }

/-- ENC_START (R211): CODE is not written. -/
def execEncStart (s : State) : Result :=
  require s.mayStartEnc .badState s <| unlessFaulted s <|
    ended .ok 0
      { s with
        ac := { s.ac with
                role := .enc, low := 0, high := 0xFFFFFFFF, cache := 0, cacheValid := false, pending := 0
                state := .started } }

/-- ENC_REGULAR (R212): Update runs after the renormalization, and not at all where that fails. -/
def execEncRegular (c : Nat) (bit : Bool) (s : State) : Result :=
  require s.encoding .badState s <|
    match s.ctxAt c with
    | none => raise .badArgument s
    | some x =>
      unlessFaulted s <| runCoder (encodeSymbol x.zero x.total.toNat bit) s fun _ s => ended .ok 0 (s.putCtx c (x.update bit))

/-- ENC_BYPASS (R213). -/
def execEncBypass (bit : Bool) (s : State) : Result :=
  require s.encoding .badState s <| unlessFaulted s <| runCoder (encodeSymbol 1 2 bit) s fun _ s => ended .ok 0 s

/-- STATE <- TERMINATED (R214, R218). -/
def State.terminate (s : State) : State := { s with ac := { s.ac with state := .terminated } }

/-- ENC_TERMINATE (R214). -/
def execEncTerminate (s : State) : Result :=
  require s.encoding .badState s <| unlessFaulted s <| runCoder encFlush s fun _ s => ended .ok 0 s.terminate

/-- The registers DEC_START writes before it reads (R215). -/
def State.openDecoder (s : State) : State :=
  { s with ac := { s.ac with role := .dec, low := 0, high := 0xFFFFFFFF, code := 0, state := .started } }

/-- DEC_START (R215). -/
def execDecStart (s : State) : Result :=
  require s.mayStartDec .badState s <| unlessFaulted s <|
    runCoder (loadCode Config.termBytes) s.openDecoder fun _ s => ended .ok 0 s

/-- DEC_REGULAR (R216): RESULT[0] is the decoded bit. -/
def execDecRegular (c : Nat) (s : State) : Result :=
  require s.decoding .badState s <|
    match s.ctxAt c with
    | none => raise .badArgument s
    | some x =>
      unlessFaulted s <| runCoder (decodeSymbol x.zero x.total.toNat) s fun bit s =>
        ended .ok (BitVec.ofNat 32 bit.toNat) (s.putCtx c (x.update bit))

/-- DEC_BYPASS (R217). -/
def execDecBypass (s : State) : Result :=
  require s.decoding .badState s <| unlessFaulted s <|
    runCoder (decodeSymbol 1 2) s fun bit s => ended .ok (BitVec.ofNat 32 bit.toNat) s

/-- DEC_TERMINATE (R218): the check CODE = LOW[31:0]. -/
def execDecTerminate (s : State) : Result :=
  require s.decoding .badState s <| unlessFaulted s <|
    if s.ac.code = s.ac.low.setWidth 32 then ended .ok 0 s.terminate else failBlock .decodeFailure s

/-- AC_STATUS (R220). -/
def execAcStatus (s : State) : Result := ended .ok (acStatusWord s.ac) s

end Sys2Proof.Machine
end

