-- ==== Sys2Proof/Machine/BitStream.lean ====
section
/-! DEFINITION. The eleven Bit Stream commands (40_bitstream.md R130 to R140), one meaning each. -/

namespace Sys2Proof.Machine

/-- BS_BIND (R130): a reader's channel starts at position 0 (R62; log entry 6). -/
def execBsBind (dir : Direction) (s : State) : Result :=
  require s.mayBind .badState s <|
    ended .ok 0
      { s with
        bs := { mode := modeOf dir, buf := 0, count := boundCount dir, err := none, limitEn := false, limit := 0 }
        chan := { s.chan with inpos := if dir = .reader then 0 else s.chan.inpos } }

/-- BS_GETBITS (R131). -/
def execBsGetbits (n : Nat) (s : State) : Result :=
  require s.mayGet .badState s <| require (countOk n) .badArgument s <|
    runStream (getBits n) s fun v s => ended .ok (BitVec.ofNat 32 v) s

/-- BS_PUTBITS (R132). -/
def execBsPutbits (n : Nat) (value : BitVec 32) (s : State) : Result :=
  require s.mayPut .badState s <| require (putArgsOk n value) .badArgument s <|
    runStream (putBits value.toNat n) s fun _ s => ended .ok 0 s

/-- The sticky check of ALIGN and FLUSH (R133, R134): the stored kind is returned and nothing changes. -/
def unlessErr (s : State) (k : Result) : Result :=
  match s.bs.err with
  | some x => raise x.status s
  | none => k

/-- The reader's part of BS_ALIGN (R133): the unread bits of BUF are discarded. -/
def State.dropBits (s : State) : State := { s with bs := { s.bs with count := 0 } }

/-- BS_ALIGN (R133). -/
def execBsAlign (s : State) : Result :=
  require s.mayMove .badState s <| unlessErr s <|
    if s.bs.mode = .reader then ended .ok 0 s.dropBits else runStream flushPartial s fun _ s => ended .ok 0 s

/-- BS_FLUSH (R134). -/
def execBsFlush (s : State) : Result :=
  require s.mayPut .badState s <| unlessErr s <| runStream flushPartial s fun _ s => ended .ok 0 s

/-- The unbinding of BS_CLOSE (R135): every Bit Stream register is 0. -/
def State.unbind (s : State) : State :=
  { s with bs := { mode := .none, buf := 0, count := 0, err := none, limitEn := false, limit := 0 } }

/-- BS_CLOSE (R135): the stored error, or the status of the flush, is returned; the stream is unbound in every case. -/
def execBsClose (s : State) : Result :=
  require s.mayMove .badState s <|
    match s.bs.err with
    | some x => raise x.status s.unbind
    | none =>
      if s.bs.mode = .writer then
        match flushPartial s.stream with
        | .done _ t => ended .ok 0 (s.setStream t).unbind
        | .raised x t => raise x.status (s.setStream t).unbind
      else ended .ok 0 s.unbind

/-- BS_SET_LIMIT (R136). -/
def execBsSetLimit (limit : BitVec 32) (s : State) : Result :=
  require s.bound .badState s <| ended .ok 0 { s with bs := { s.bs with limitEn := true, limit := limit } }

/-- BS_CLEAR_LIMIT (R137). -/
def execBsClearLimit (s : State) : Result :=
  require s.bound .badState s <| ended .ok 0 { s with bs := { s.bs with limitEn := false, limit := 0 } }

/-- BS_CLEAR_ERROR (R138). -/
def execBsClearError (s : State) : Result :=
  require s.bound .badState s <| ended .ok 0 { s with bs := { s.bs with err := none } }

/-- BS_STATUS (R139). -/
def execBsStatus (s : State) : Result := ended .ok (bsStatusWord s.bs) s

/-- BS_GET_LIMIT (R140). -/
def execBsGetLimit (s : State) : Result := ended .ok s.bs.limit s

end Sys2Proof.Machine
end

