-- ==== Sys2Proof/Machine/ContextModel.lean ====
section
/-! DEFINITION. The three Probability Model commands (41_context_model.md R165 to R167), one meaning each. -/

namespace Sys2Proof.Machine

/-- CTX_INIT (R165). -/
def execCtxInit (c : Nat) (one total maxf : BitVec 16) (adaptive : Bool) (s : State) : Result :=
  match s.ctxAt c with
  | none => raise .badArgument s
  | some _ =>
    require (countsOk one total maxf) .badArgument s <|
      ended .ok 0 (s.putCtx c { one := one, total := total, maxf := maxf, adapt := adaptive })

/-- CTX_READ (R166). -/
def execCtxRead (c : Nat) (s : State) : Result :=
  match s.ctxAt c with
  | none => raise .badArgument s
  | some x => ended .ok (ctxCountsWord x) s

/-- CTX_READ_CFG (R167). -/
def execCtxReadCfg (c : Nat) (s : State) : Result :=
  match s.ctxAt c with
  | none => raise .badArgument s
  | some x => ended .ok (ctxCfgWord x) s

end Sys2Proof.Machine
end

