-- ==== Sys2Proof/Machine/Dispatch.lean ====
section
/-! DEFINITION. The dispatch of the 24 commands to their meanings, one arm each (30_encoding.md R85). -/

namespace Sys2Proof.Machine

def exec (i : Instr) (s : State) : Host.Outcome State Fault Refusal :=
  match i with
  | .bsBind dir => Sys2Proof.Machine.execBsBind dir s
  | .bsGetbits n => Sys2Proof.Machine.execBsGetbits n s
  | .bsPutbits n value => Sys2Proof.Machine.execBsPutbits n value s
  | .bsAlign => Sys2Proof.Machine.execBsAlign s
  | .bsFlush => Sys2Proof.Machine.execBsFlush s
  | .bsClose => Sys2Proof.Machine.execBsClose s
  | .bsSetLimit limit => Sys2Proof.Machine.execBsSetLimit limit s
  | .bsClearLimit => Sys2Proof.Machine.execBsClearLimit s
  | .bsClearError => Sys2Proof.Machine.execBsClearError s
  | .bsStatus => Sys2Proof.Machine.execBsStatus s
  | .bsGetLimit => Sys2Proof.Machine.execBsGetLimit s
  | .ctxInit c one total maxf adaptive => Sys2Proof.Machine.execCtxInit c one total maxf adaptive s
  | .ctxRead c => Sys2Proof.Machine.execCtxRead c s
  | .ctxReadCfg c => Sys2Proof.Machine.execCtxReadCfg c s
  | .acInit => Sys2Proof.Machine.execAcInit s
  | .encStart => Sys2Proof.Machine.execEncStart s
  | .encRegular c bit => Sys2Proof.Machine.execEncRegular c bit s
  | .encBypass bit => Sys2Proof.Machine.execEncBypass bit s
  | .encTerminate => Sys2Proof.Machine.execEncTerminate s
  | .decStart => Sys2Proof.Machine.execDecStart s
  | .decRegular c => Sys2Proof.Machine.execDecRegular c s
  | .decBypass => Sys2Proof.Machine.execDecBypass s
  | .decTerminate => Sys2Proof.Machine.execDecTerminate s
  | .acStatus => Sys2Proof.Machine.execAcStatus s

end Sys2Proof.Machine
end

