-- ==== Sys2Proof/Machine/HostAction.lean ====
section
/-! DEFINITION. What one action of the host does (30_encoding.md R80; log entries 4, 6, 7): a request is decoded (R87) and run
to completion, and a word that is no command is answered BadCommand (60_exceptions.md R250). -/

namespace Sys2Proof.Machine

/-- A request: decode CMD and DATA, then run the command (R80, R87, R247 step 1). -/
def runRequest (cmd data : BitVec 32) (s : State) : Host.Outcome State Fault Refusal :=
  match decode cmd data with
  | .ok i => exec i s
  | .error _ => badCommand s

/-- One action of the host (R62, R80, R270). -/
def runEvent (ev : HostEvent) (s : State) : Host.Outcome State Fault Refusal :=
  match ev with
  | .request cmd data => runRequest cmd data s
  | .supply input draws => .next (s.supplyChannel input draws)
  | .reset => .next s.externalReset

end Sys2Proof.Machine
end

