-- ==== Sys2Proof/Machine/Step.lean ====
section
/-! DEFINITION. One step of the machine: it takes the host's next action and does it (30_encoding.md R80; log entry 4). With
nothing to do the state "persists unchanged" (60_exceptions.md R262). -/

namespace Sys2Proof.Machine

/-- One step: the host's oldest pending action is taken and done. -/
def step (s : State) : Host.Outcome State Fault Refusal :=
  match s.host with
  | [] => .next s
  | ev :: rest => runEvent ev { s with host := rest }

/-- The request whose bits are `w` becomes the host's next action: CMD is bits 31:0, DATA bits 63:32 (log entry 15). -/
def State.withFetchWord (s : State) (nbits w : Nat) : State :=
  { s with host := .request (cmdWord nbits w) (dataWord nbits w) :: s.host }

end Sys2Proof.Machine
end

