-- ==== Sys2Proof/Safety.lean ====
section
/-! DEFINITION. The terms in which claims about AC-CORE speak: the invariants of the rules (10_state.md R17, R18, R22;
40_bitstream.md R146; 42_arith_coder.md R221, R222, R225; 93_implementation_defined.md X10), the bit sequences a stream has
written and has still to read (20_memory.md R65), the code value of R224, a reliable channel (X4), and the commands of one
block (R226). -/

namespace Sys2Proof.Machine

/-! ## Bits of a stream -/

/-- The bits `n-1` down to 0 of `v`, in stream order: most significant first (R65). -/
def lowBits : Nat → Nat → List Bool
  | 0, _ => []
  | n + 1, v => v.testBit n :: lowBits n v

/-- The eight bits of a byte in stream order: bit 7 first (R65). -/
def byteBits (b : Byte) : List Bool := lowBits 8 b.toNat

/-- The number whose bits in stream order are `l` (R65). -/
def bitsNat (l : List Bool) : Nat := l.foldl (fun v b => 2 * v + b.toNat) 0

/-- What a reader has still to consume: the low COUNT bits of BUF, then the bytes from INPOS on (R17, R121). -/
def Stream.unread (t : Stream) : List Bool :=
  lowBits t.bs.count.toNat t.bs.buf.toNat ++ (t.chan.input.drop t.chan.inpos).flatMap byteBits

/-- What a writer has put so far: the bytes accepted, then BUF[7:COUNT] (R17, R122). -/
def Stream.written (t : Stream) : List Bool :=
  t.chan.output.flatMap byteBits ++ (lowBits 8 t.bs.buf.toNat).take (8 - t.bs.count.toNat)

/-- The bytes the encoder holds back, in output order: CACHE, then PENDING bytes of 0xFF (R28). -/
def Coder.held (a : Coder) : List Byte :=
  (if a.cacheValid then [a.cache] else []) ++ List.replicate a.pending.toNat 0xFF

/-- The integer A of R224: what is written, then what is held, then LOW, whose bit 32 carries into the bytes. -/
def Engine.codeValue (e : Engine) : Nat :=
  bitsNat (e.stream.written ++ e.ac.held.flatMap byteBits) * Config.codeSpan + e.ac.low.toNat

/-! ## The channel -/

/-- The draw the failure oracle will make `k` transfers from now (R63, R64; log entry 2). -/
def Channel.drawAt (ch : Channel) (k : Nat) : Bool := (ch.draws[k]?).getD (Config.failureOracle (ch.drawn + k))

/-- "The oracle never fails" (X4), for the next `n` transfers. -/
abbrev Channel.Reliable (ch : Channel) (n : Nat) : Prop := ∀ k < n, ch.drawAt k = false

/-! ## Invariants -/

/-- R22: 1 <= ONE < TOTAL <= MAXF and 2 <= MAXF. -/
abbrev Context.Wf (x : Context) : Prop :=
  2 ≤ x.maxf.toNat ∧ 1 ≤ x.one.toNat ∧ x.one.toNat < x.total.toNat ∧ x.total.toNat ≤ x.maxf.toNat

/-- R21, R22: 1 to 256 contexts, each well-formed. -/
abbrev State.CtxInv (s : State) : Prop := 1 ≤ s.ctx.length ∧ s.ctx.length ≤ 256 ∧ ∀ x ∈ s.ctx, x.Wf

/-- R17, R18, R146, and R140 for LIMIT: an unbound stream has every register 0; a reader has COUNT at most 7; a writer has
COUNT 1 to 8 and zeros in BUF[COUNT-1:0]; LIMIT is 0 while LIMIT_EN = 0. -/
abbrev BitStream.Wf (b : BitStream) : Prop :=
  (b.mode = .none → b = .reset) ∧ (b.mode = .reader → b.count.toNat ≤ 7) ∧
    (b.mode = .writer → 1 ≤ b.count.toNat ∧ b.count.toNat ≤ 8 ∧ b.buf.toNat % 2 ^ b.count.toNat = 0) ∧
    (b.limitEn = false → b.limit = 0)

/-- R63: the position is inside the input or at its end. -/
abbrev Channel.Wf (ch : Channel) : Prop := ch.inpos ≤ ch.input.length

/-- R221: LOW <= HIGH and 2^24 <= R <= 2^32. -/
abbrev Coder.IntervalInv (a : Coder) : Prop :=
  a.low.toNat ≤ a.high.toNat ∧ Config.top ≤ a.range ∧ a.range ≤ Config.codeSpan

/-- R222(b): before the first Shift no carry is possible and nothing is held; a carry never meets CACHE = 0xFF. -/
abbrev Coder.CarryInv (a : Coder) : Prop :=
  (a.cacheValid = false → a.high.toNat < Config.codeSpan ∧ a.pending = 0) ∧
    (Config.codeSpan ≤ a.high.toNat → a.cache ≠ 0xFF)

/-- A running block (R211 to R218, R221, R222, R225, X10): it has a role, its stream is bound in that direction and not
faulted, its interval is wide enough, and its carry state or its code window is consistent. -/
abbrev State.BlockInv (s : State) : Prop :=
  s.bs.err = none ∧ s.ac.IntervalInv ∧
    ((s.ac.role = .enc ∧ s.bs.mode = .writer ∧ s.ac.CarryInv) ∨
      (s.ac.role = .dec ∧ s.bs.mode = .reader ∧ s.ac.offset < s.ac.range))

/-- The coder registers in each STATE (R201, R214, R219): as after reset when UNSTARTED, a running block when STARTED, and
nothing held after an encoder's TERMINATE. -/
abbrev State.CoderInv (s : State) : Prop :=
  (s.ac.state = .unstarted → s.ac = .reset) ∧ (s.ac.state = .started → s.BlockInv) ∧
    (s.ac.state = .terminated → s.ac.role ≠ .none) ∧
    (s.ac.state = .terminated → s.ac.role = .enc → s.ac.low = 0 ∧ s.ac.cacheValid = false ∧ s.ac.pending = 0)

/-- The states of the machine, as the rules describe them between two commands. -/
abbrev State.Inv (s : State) : Prop := s.CtxInv ∧ s.bs.Wf ∧ s.chan.Wf ∧ s.CoderInv

/-! ## Tables of the rules, as propositions -/

/-- The BadState column of R249: when a command is not legal in the current MODE, STATE or ROLE. -/
def BadStateWhen (i : Instr) (s : State) : Prop :=
  match i with
  | .bsBind _ => s.bs.mode ≠ .none ∨ s.ac.state = .started
  | .bsGetbits _ => s.bs.mode ≠ .reader ∨ s.ac.state = .started
  | .bsPutbits _ _ | .bsFlush => s.bs.mode ≠ .writer ∨ s.ac.state = .started
  | .bsAlign | .bsClose => s.bs.mode = .none ∨ s.ac.state = .started
  | .bsSetLimit _ | .bsClearLimit | .bsClearError => s.bs.mode = .none
  | .encStart => s.ac.state ≠ .unstarted ∨ s.bs.mode ≠ .writer
  | .decStart => s.ac.state ≠ .unstarted ∨ s.bs.mode ≠ .reader
  | .encRegular _ _ | .encBypass _ | .encTerminate => s.ac.state ≠ .started ∨ s.ac.role ≠ .enc
  | .decRegular _ | .decBypass | .decTerminate => s.ac.state ≠ .started ∨ s.ac.role ≠ .dec
  | .bsStatus | .bsGetLimit | .ctxInit _ _ _ _ _ | .ctxRead _ | .ctxReadCfg _ | .acInit | .acStatus => False

/-- The BadArgument column of R248: when an operand is out of range. -/
def BadArgumentWhen (i : Instr) (s : State) : Prop :=
  match i with
  | .bsGetbits n => n < 1 ∨ 31 < n
  | .bsPutbits n value => n < 1 ∨ 31 < n ∨ 2 ^ n ≤ value.toNat
  | .ctxInit c one total maxf _ =>
    s.ctx.length ≤ c ∨ maxf.toNat < 2 ∨ ¬ (1 ≤ one.toNat ∧ one.toNat < total.toNat ∧ total.toNat ≤ maxf.toNat)
  | .ctxRead c | .ctxReadCfg c | .encRegular c _ | .decRegular c => s.ctx.length ≤ c
  | .bsBind _ | .bsAlign | .bsFlush | .bsClose | .bsSetLimit _ | .bsClearLimit | .bsClearError | .bsStatus | .bsGetLimit => False
  | .acInit | .encStart | .encBypass _ | .encTerminate | .decStart | .decBypass | .decTerminate | .acStatus => False

/-- The Bit Stream commands that return a stored error and change nothing (R247 step 4). -/
def returnsErr (i : Instr) : Bool := [Op.bsGetbits, .bsPutbits, .bsAlign, .bsFlush].contains i.op

/-- The encoder's commands. -/
def ofEncoder (i : Instr) : Bool := [Op.encStart, .encRegular, .encBypass, .encTerminate].contains i.op

/-- The decoder's commands. -/
def ofDecoder (i : Instr) : Bool := [Op.decStart, .decRegular, .decBypass, .decTerminate].contains i.op

/-- The coder commands that fail the block on a stored error (R247 step 4): all but AC_INIT and AC_STATUS. -/
def failsBlock (i : Instr) : Bool := ofEncoder i || ofDecoder i

/-- The commands of the Probability Model group (R84). -/
def ofContexts (i : Instr) : Bool := [Op.ctxInit, .ctxRead, .ctxReadCfg].contains i.op

/-- The commands of the Arithmetic Coder group (R84). -/
def ofCoder (i : Instr) : Bool := failsBlock i || [Op.acInit, .acStatus].contains i.op

/-- The commands of the Bit Stream group (R84). -/
def ofStream (i : Instr) : Bool := !ofContexts i && !ofCoder i

/-- The commands that return a value (R89). -/
def returnsValue (i : Instr) : Bool :=
  [Op.bsGetbits, .bsStatus, .bsGetLimit, .ctxRead, .ctxReadCfg, .decRegular, .decBypass, .acStatus].contains i.op

/-- The most channel transfers a command makes (R283, R69). -/
def maxTransfers (i : Instr) (s : State) : Nat :=
  match i with
  | .bsGetbits _ | .bsPutbits _ _ => 4
  | .bsAlign | .bsFlush | .bsClose => 1
  | .encRegular _ _ | .encBypass _ => 2 + s.ac.pending.toNat
  | .encTerminate => 5 + s.ac.pending.toNat
  | .decStart => 4
  | .decRegular _ => 2
  | .decBypass => 1
  | .bsBind _ | .bsSetLimit _ | .bsClearLimit | .bsClearError | .bsStatus | .bsGetLimit => 0
  | .ctxInit _ _ _ _ _ | .ctxRead _ | .ctxReadCfg _ | .acInit | .encStart | .decTerminate | .acStatus => 0

/-! ## One symbol -/

/-- A response OK with a result. -/
abbrev okWith (v : Nat) : Response := ⟨.ok, BitVec.ofNat 32 v⟩

/-- The width of the sub-interval of a symbol (R204, R205): r0 for 0, R - r0 for 1. -/
def symbolWidth (r r0 : Nat) (bit : Bool) : Nat := if bit then r - r0 else r0

/-- How far a symbol moves LOW (R205). -/
def symbolBase (r0 : Nat) (bit : Bool) : Nat := if bit then r0 else 0

/-- How many renormalization steps bring a width of at least 2^8 back to 2^24 (R223). -/
def renormCount (w : Nat) : Nat := if 2 ^ 24 ≤ w then 0 else if 2 ^ 16 ≤ w then 1 else 2

/-- The bits an encoder has written or still holds (R228). -/
def Engine.codeBits (e : Engine) : Nat := e.stream.written.length + 8 * e.ac.held.length

/-! ### The carry state (R206) -/

/-- EmitTop holds LOW's top byte back: LOW[32] = 0 and LOW[31:24] = 0xFF, so a later carry may still reach CACHE (R206). -/
def Coder.holdsBack (a : Coder) : Bool := a.cacheValid && a.low.extractLsb' 24 9 == 0x0FF

/-- LOW[32] as the byte that EmitTop adds to CACHE and to every held 0xFF (R206). -/
def Coder.carryByte (a : Coder) : Byte := (a.low.extractLsb' 32 1).setWidth 8

/-- The bytes one EmitTop writes, in order (R206): none where CACHE is empty or the top byte is held back, else CACHE and the
PENDING held bytes of 0xFF, each with the carry added modulo 256. -/
def Coder.released (a : Coder) : List Byte :=
  if a.cacheValid && !a.holdsBack then
    (a.cache + a.carryByte) :: List.replicate a.pending.toNat (0xFF + a.carryByte)
  else []

/-- The carry state one EmitTop leaves (R206): one more byte held back, or LOW[31:24] in CACHE and nothing held back. -/
def Coder.emitted (a : Coder) : Coder :=
  if a.holdsBack then { a with pending := a.pending + 1 }
  else { a with cache := a.low.extractLsb' 24 8, cacheValid := true, pending := 0 }

/-- The coder after `k` rounds of EmitTop, LOW shifted after each (R207, R210); HIGH is left out of it. -/
def Coder.rounds : Nat → Coder → Coder
  | 0, a => a
  | k + 1, a => rounds k { a.emitted with low := a.shiftedLow }

/-- The bytes that `k` rounds of EmitTop write, in order. -/
def Coder.roundBytes : Nat → Coder → List Byte
  | 0, _ => []
  | k + 1, a => a.released ++ roundBytes k { a.emitted with low := a.shiftedLow }

/-- In none of `k` rounds a held byte is counted past 2^32 - 1 (R206, X3; log entry 8). -/
abbrev Coder.KeepsCount (a : Coder) (k : Nat) : Prop :=
  ∀ j < k, (a.rounds j).holdsBack = true → (a.rounds j).pending.toNat + 1 < 2 ^ 32

/-- The coder once Select has moved LOW to the start of the symbol's part (R205). -/
abbrev Coder.atSymbol (a : Coder) (r0 : Nat) (bit : Bool) : Coder :=
  { a with low := a.low + BitVec.ofNat 33 (symbolBase r0 bit) }

/-- What one encoded symbol with sub-interval width `r0` for symbol 0 makes of the machine (R205 to R208, R223, R224, R228):
k renormalization steps at once bring the width back to 2^24 or more; each step writes or holds back the bytes EmitTop says,
and CACHE, CACHE_VALID and PENDING are what it leaves; the code value keeps its place in the interval; every step adds one
byte to what is written or held; only the coder's interval and carry state, the stream's bits and LIMIT move. -/
def EncodedSymbol (s t : State) (r0 : Nat) (bit : Bool) : Prop :=
  let k := renormCount (symbolWidth s.ac.range r0 bit)
  let a := s.ac.atSymbol r0 bit
  t.resp = some ⟨.ok, 0⟩ ∧ t.ac.range = symbolWidth s.ac.range r0 bit * 2 ^ (8 * k) ∧
    t.ac.low.toNat =
      (if k = 0 then s.ac.low.toNat + symbolBase r0 bit else (s.ac.low.toNat + symbolBase r0 bit) * 2 ^ (8 * k) % 2 ^ 32) ∧
    t.stream.written = s.stream.written ++ (a.roundBytes k).flatMap byteBits ∧ s.chan.output <+: t.chan.output ∧
    t.ac.cache = (a.rounds k).cache ∧ t.ac.cacheValid = (a.rounds k).cacheValid ∧ t.ac.pending = (a.rounds k).pending ∧
    t.engine.codeValue = (s.engine.codeValue + symbolBase r0 bit) * 2 ^ (8 * k) ∧
    t.engine.codeBits = s.engine.codeBits + 8 * k ∧
    t.bs.limit.toNat =
      (if s.bs.limitEn then s.bs.limit.toNat - 8 * (a.roundBytes k).length else s.bs.limit.toNat) ∧
    t.bs = { s.bs with buf := t.bs.buf, count := t.bs.count, limit := t.bs.limit } ∧
    t.chan = { s.chan with output := t.chan.output, draws := t.chan.draws, drawn := t.chan.drawn } ∧
    t.ac = { s.ac with
      low := t.ac.low, high := t.ac.high, cache := t.ac.cache, cacheValid := t.ac.cacheValid, pending := t.ac.pending } ∧
    t.host = s.host

/-- An encoder's symbol with sub-interval width `r0` for symbol 0 has room: LIMIT and the channel take the bytes its steps write,
and PENDING stays inside its width. -/
abbrev EncoderHasRoom (s : State) (r0 : Nat) (bit : Bool) : Prop :=
  let k := renormCount (symbolWidth s.ac.range r0 bit)
  let n := ((s.ac.atSymbol r0 bit).roundBytes k).length
  (s.bs.limitEn = true → 8 * n ≤ s.bs.limit.toNat) ∧ s.chan.Reliable n ∧ (s.ac.atSymbol r0 bit).KeepsCount k

/-- What one decoded symbol with sub-interval width `r0` for symbol 0 makes of the machine (R205, R209, R216, R225): the bit
is 1 exactly when off >= r0; LOW and R move as the encoder's do; each of the k steps takes one byte into the window. -/
def DecodedSymbol (s t : State) (r0 : Nat) : Prop :=
  let bit := decide (r0 ≤ s.ac.offset)
  let k := renormCount (symbolWidth s.ac.range r0 bit)
  t.resp = some (okWith bit.toNat) ∧ t.ac.range = symbolWidth s.ac.range r0 bit * 2 ^ (8 * k) ∧
    t.ac.low.toNat =
      (if k = 0 then s.ac.low.toNat + symbolBase r0 bit else (s.ac.low.toNat + symbolBase r0 bit) * 2 ^ (8 * k) % 2 ^ 32) ∧
    t.ac.offset = (s.ac.offset - symbolBase r0 bit) * 2 ^ (8 * k) + bitsNat (s.stream.unread.take (8 * k)) ∧
    t.stream.unread = s.stream.unread.drop (8 * k) ∧ t.chan.inpos = s.chan.inpos + k ∧ t.bs.count = s.bs.count ∧
    t.bs.limit.toNat = (if s.bs.limitEn then s.bs.limit.toNat - 8 * k else s.bs.limit.toNat) ∧
    t.bs = { s.bs with buf := t.bs.buf, count := t.bs.count, limit := t.bs.limit } ∧
    t.chan = { s.chan with inpos := t.chan.inpos, draws := t.chan.draws, drawn := t.chan.drawn } ∧
    t.ac = { s.ac with low := t.ac.low, high := t.ac.high, code := t.ac.code } ∧ t.host = s.host

/-- The input a decoder's symbol of `k` steps needs: k bytes (R228). -/
abbrev DecoderHasInput (s : State) (k : Nat) : Prop :=
  (s.bs.limitEn = true → 8 * k ≤ s.bs.limit.toNat) ∧ 8 * k ≤ s.stream.unread.length ∧ s.chan.Reliable k

/-! ## Sequences of commands -/

/-- Run commands in order, collecting the responses; none where one of them stops. -/
def issue : List Instr → State → Option (State × List Response)
  | [], s => some (s, [])
  | i :: rest, s =>
    match exec i s with
    | .next t => (issue rest t).map fun u => (u.1, t.resp.toList ++ u.2)
    | .fault _ => none
    | .refused _ => none

/-- One symbol of a block (R11): regular on a context, or bypass. -/
inductive Symbol where
  | regular (c : Nat) (bit : Bool)
  | bypass (bit : Bool)
  deriving DecidableEq, Repr

/-- The bit a symbol is. -/
def Symbol.bit : Symbol → Bool
  | .regular _ b => b
  | .bypass b => b

/-- The command that encodes a symbol. -/
def Symbol.encodeCmd : Symbol → Instr
  | .regular c b => .encRegular c b
  | .bypass b => .encBypass b

/-- The command that decodes a symbol (R274: the mirror of the encoder's). -/
def Symbol.decodeCmd : Symbol → Instr
  | .regular c _ => .decRegular c
  | .bypass _ => .decBypass

/-- The most renormalization steps a symbol takes (R223): 2 for a regular symbol, 1 for a bypass symbol. -/
def Symbol.maxSteps : Symbol → Nat
  | .regular _ _ => 2
  | .bypass _ => 1

/-- The commands of one encoder block (R273 step 5). -/
def encodeBlock (l : List Symbol) : List Instr := .encStart :: l.map Symbol.encodeCmd ++ [.encTerminate]

/-- The commands of one decoder block (R274 step 5). -/
def decodeBlock (l : List Symbol) : List Instr := .decStart :: l.map Symbol.decodeCmd ++ [.decTerminate]

/-- The responses of a decoder block that returns these symbols (R216 to R218). -/
def decodeAnswers (l : List Symbol) : List Response := okWith 0 :: l.map (fun x => okWith x.bit.toNat) ++ [okWith 0]

end Sys2Proof.Machine
end

