-- ==== Sys2Proof/Certificates/Slice0/Obligations.lean ====
section
/-! DEFINITION. The statements about AC-CORE for the provers, in the order of OBLIGATIONS.json. Each docstring names the rule
of spec/ it formalises; where a clause is the model's own choice it says so and names the log entry. Every statement that a
command answers a next state speaks of channels that answer every transfer, as the model has them (R63, X5; log entry 11). -/

open Sys2Proof Sys2Proof.Machine

/-! ## Encoding -/

/-- R81, R85, R88, R97: the two words of a well-formed command decode to it, with every operand. -/
def Obligations.DecodeOfEncodeIsTheCommand : Prop :=
  ∀ i : Instr, i.wf = true → decode (encode i).1 (encode i).2 = .ok i

/-- R81 to R83, R85: a CMD word that decodes is the word its command encodes to, and so is the DATA word of the three
commands that use it. -/
def Obligations.DecodedWordsAreTheirEncoding : Prop :=
  ∀ (cmd data : Word) (i : Instr), decode cmd data = .ok i →
    i.wf = true ∧ (encode i).1 = cmd ∧ (i.op ∈ [Op.bsPutbits, .bsSetLimit, .ctxInit] → (encode i).2 = data)

/-- R87 (and R83, R86): decoding finds the row whose CMD & mask = match, else BadCommand; no two rows overlap. -/
def Obligations.MaskAndMatchSelectTheDecodedCommand : Prop :=
  ∀ cmd data : Word,
    (∀ o : Op, o.selects cmd = true ↔ ∃ i, decode cmd data = .ok i ∧ i.op = o) ∧
      ((∀ o : Op, o.selects cmd = false) ↔ ∃ e, decode cmd data = .error e) ∧
      (∀ o p : Op, o.selects cmd = true → p.selects cmd = true → o = p)

/-- R82: what the three commands that use DATA take from it; every other command ignores DATA; DATA is no part of the opcode
match. -/
def Obligations.DataIsNoPartOfTheOpcodeMatch : Prop :=
  ∀ cmd data data' : Word,
    (∀ n value, decode cmd data = .ok (.bsPutbits n value) → value = data) ∧
      (∀ limit, decode cmd data = .ok (.bsSetLimit limit) → limit = data) ∧
      (∀ c one total maxf adaptive, decode cmd data = .ok (.ctxInit c one total maxf adaptive) →
        one = data.extractLsb' 16 16 ∧ total = data.extractLsb' 0 16) ∧
      (∀ i, decode cmd data = .ok i → i.op ∉ [Op.bsPutbits, .bsSetLimit, .ctxInit] → decode cmd data' = .ok i) ∧
      (∀ i, decode cmd data = .ok i → ∃ j, decode cmd data' = .ok j ∧ j.op = i.op) ∧
      (∀ e, decode cmd data = .error e → decode cmd data' = .error e)

/-- R85, R97 and 95_test_vectors.md section 9: a few words written out from the encoding. -/
def Obligations.SampleWordsDecode : Prop :=
  decode 0x08040000 0 = .ok (.bsBind .writer) ∧ decode 0x10000020 0 = .ok (.bsGetbits 32) ∧
    decode 0x18000010 0x00000001 = .ok (.bsPutbits 16 1) ∧
    decode 0x800C0004 0x00010002 = .ok (.ctxInit 1 1 2 4 true) ∧ decode 0x88180000 0 = .ok (.ctxRead 3) ∧
    decode 0xB01C0000 0 = .ok (.encRegular 3 true) ∧ decode 0xD0080000 0 = .ok (.decRegular 1) ∧
    decode 0x00000000 0 = .error (.reservedOp 0) ∧ decode 0xA0000001 0 = .error (.nonzeroUnused .acInit) ∧
    decode 0xB0010000 0 = .error (.nonzeroUnused .encRegular)

/-! ## The step -/

/-- R80, R87: when the oldest thing the host has to do is a request whose words decode to a command, a step is that command,
run on the state without the request (the queue is the model's: log entry 4). -/
def Obligations.StepRunsTheDecodedRequest : Prop :=
  ∀ (s : State) (cmd data : Word) (rest : List HostEvent) (i : Instr),
    s.host = .request cmd data :: rest → decode cmd data = .ok i → step s = exec i { s with host := rest }

/-- R250: a reserved OP, a nonzero RSV, or a nonzero field that the command does not use, is answered BadCommand, whatever DATA
is, and nothing changes. -/
def Obligations.BadCommandChangesNothing : Prop :=
  ∀ (s : State) (cmd data : Word) (rest : List HostEvent), s.host = .request cmd data :: rest →
    ((fieldsOf cmd).op ∈ ([0x00, 0x0C, 0x0D, 0x0E, 0x0F, 0x13, 0x1E, 0x1F] : List (BitVec 5)) ∨
      ∃ o : Op, (fieldsOf cmd).op = o.code ∧
        ((fieldsOf cmd).rsv ≠ 0 ∨ (o.uses.ctx = false ∧ (fieldsOf cmd).ctx ≠ 0) ∨ (o.uses.b = false ∧ (fieldsOf cmd).b ≠ 0) ∨
          (o.uses.imm = false ∧ (fieldsOf cmd).imm ≠ 0))) →
    step s = .next { s with host := rest, resp := some ⟨.badCommand, 0⟩ }

/-- The model's own actions of the host: with nothing to do the state persists (R262; log entry 4), a supplied channel
starts at position 0 with nothing accepted (R62; log entry 6), and the external reset puts every register and context into
the state of R30 without a transfer (R270; log entry 7). -/
def Obligations.StepOfTheHostsOtherActions : Prop :=
  ∀ (s : State) (rest : List HostEvent),
    (s.host = [] → step s = .next s) ∧
      (∀ input draws, s.host = .supply input draws :: rest →
        step s = .next { s with host := rest, chan := ⟨input, 0, [], draws, s.chan.drawn⟩ }) ∧
      (s.host = .reset :: rest →
        step s = .next { s with
          host := rest
          bs := ⟨.none, 0, 0, none, false, 0⟩
          ctx := List.replicate s.ctx.length ⟨1, 2, 65535, true⟩
          ac := ⟨.unstarted, .none, 0, 0, 0, 0, false, 0⟩ })

/-! ## Reset -/

/-- R30, R271: every register of the table and every context, after reset. NUM_CTX is the OPEN parameter (log entry 1). -/
def Obligations.ResetLeavesTheTabledValues : Prop :=
  State.reset.bs = ⟨.none, 0, 0, none, false, 0⟩ ∧ State.reset.ac = ⟨.unstarted, .none, 0, 0, 0, 0, false, 0⟩ ∧
    (∀ c < Config.numCtx, State.reset.ctx[c]? = some ⟨1, 2, 65535, true⟩) ∧ State.reset.ctx.length = Config.numCtx

/-- The state after reset meets the invariant. -/
def Obligations.ResetMeetsTheInvariant : Prop := State.reset.Inv

/-- R272: from a state as after reset, exactly the listed commands are legal, and until BS_BIND they keep it so; every other
command returns BadState and changes nothing; the first block needs no AC_INIT. -/
def Obligations.OnlyTheListedCommandsAreLegalAfterReset : Prop :=
  ∀ (i : Instr) (s : State), s.bs = .reset → s.ac = .reset →
    (i.op ∈ [Op.bsBind, .ctxInit, .ctxRead, .ctxReadCfg, .acInit, .bsStatus, .bsGetLimit, .acStatus] →
      ∃ t r, exec i s = .next t ∧ t.resp = some r ∧ r.status ≠ .badState ∧
        (i.op ≠ .bsBind → t.bs = .reset ∧ t.ac = .reset)) ∧
    (i.op ∉ [Op.bsBind, .ctxInit, .ctxRead, .ctxReadCfg, .acInit, .bsStatus, .bsGetLimit, .acStatus] →
      exec i s = .next { s with resp := some ⟨.badState, 0⟩ }) ∧
    (∃ t u, exec (.bsBind .writer) s = .next t ∧ exec .encStart t = .next u ∧ u.resp = some ⟨.ok, 0⟩)

/-- R270: each part can be reinitialized by a command with the same effect on it as reset: the coder group by AC_INIT, one
context by CTX_INIT with (1, 2, 65535, 1), the Bit Stream group by BS_CLOSE. -/
def Obligations.CommandsReinitializeAsResetDoes : Prop :=
  ∀ s t : State,
    (exec .acInit s = .next t → t.ac = s.externalReset.ac) ∧
      (∀ c < s.ctx.length, exec (.ctxInit c 1 2 65535 true) s = .next t → t.ctx[c]? = s.externalReset.ctx[c]?) ∧
      (¬ BadStateWhen .bsClose s → exec .bsClose s = .next t → t.bs = s.externalReset.bs)

/-! ## The common checks -/

/-- R249: a command whose precondition fails returns BadState and writes nothing; one whose precondition holds never
returns BadState. -/
def Obligations.BadStateExactlyWhenThePreconditionFails : Prop :=
  ∀ (i : Instr) (s : State),
    (BadStateWhen i s → exec i s = .next { s with resp := some ⟨.badState, 0⟩ }) ∧
      (¬ BadStateWhen i s → ∀ t r, exec i s = .next t → t.resp = some r → r.status ≠ .badState)

/-- R248, and the order of R247: after the state check, an operand out of range returns BadArgument and writes nothing; with
operands in range BadArgument is never returned. -/
def Obligations.BadArgumentExactlyWhenAnOperandIsOutOfRange : Prop :=
  ∀ (i : Instr) (s : State), ¬ BadStateWhen i s →
    (BadArgumentWhen i s → exec i s = .next { s with resp := some ⟨.badArgument, 0⟩ }) ∧
      (¬ BadArgumentWhen i s → ∀ t r, exec i s = .next t → t.resp = some r → r.status ≠ .badArgument)

/-- R149, R247 step 4: on a faulted stream the transfers, ALIGN and FLUSH return the stored kind and nothing changes; a
coder command that needs the stream fails the block with it, and nothing else changes; only CLEAR_ERROR, CLOSE and BIND end
it. -/
def Obligations.StoredErrorIsReturnedWithNoTransfer : Prop :=
  ∀ (i : Instr) (s : State) (x : StreamErr), s.bs.err = some x →
    (¬ BadStateWhen i s → ¬ BadArgumentWhen i s →
      (returnsErr i = true → exec i s = .next { s with resp := some ⟨x.status, 0⟩ }) ∧
        (failsBlock i = true →
          exec i s = .next { s with resp := some ⟨x.status, 0⟩, ac := { s.ac with state := .failed } })) ∧
      (i.op ∉ [Op.bsClearError, .bsClose, .bsBind] → ∀ t, exec i s = .next t → t.bs.err = some x ∧ t.chan = s.chan)

/-- R89, R240: RESULT is 0 whenever STATUS is not OK, and for every command that returns no value. -/
def Obligations.ResultIsZeroWithoutOkOrValue : Prop :=
  ∀ (i : Instr) (s t : State), exec i s = .next t →
    ∃ r, t.resp = some r ∧ (r.status ≠ .ok → r.result = 0) ∧ (returnsValue i = false → r.result = 0)

/-! ## Bit Stream commands -/

/-- R130: BS_BIND, on an unbound stream with no block running. (The reader's position 0 is also R62; log entry 6.) -/
def Obligations.BindSetsTheStreamRegisters : Prop :=
  ∀ s : State, s.bs.mode = .none → s.ac.state ≠ .started →
    exec (.bsBind .reader) s = .next { s with
        bs := ⟨.reader, 0, 0, none, false, 0⟩, chan := { s.chan with inpos := 0 }, resp := some ⟨.ok, 0⟩ } ∧
      exec (.bsBind .writer) s = .next { s with bs := ⟨.writer, 0, 8, none, false, 0⟩, resp := some ⟨.ok, 0⟩ }

/-- R121, R131, R65, R147: with the bits there, BS_GETBITS returns the next n unread bits, most significant first, and
consumes exactly these, reading max(0, ceil((n - COUNT)/8)) bytes; LIMIT, where armed, drops by n; nothing else changes. -/
def Obligations.GetbitsReturnsTheNextBits : Prop :=
  ∀ (n : Nat) (s : State), 1 ≤ n → n ≤ 31 → s.bs.mode = .reader → s.ac.state ≠ .started → s.bs.Wf → s.bs.err = none →
    (s.bs.limitEn = true → n ≤ s.bs.limit.toNat) → n ≤ s.stream.unread.length →
    s.chan.Reliable ((n + 7 - s.bs.count.toNat) / 8) →
    ∃ t, exec (.bsGetbits n) s = .next t ∧ t.resp = some (okWith (bitsNat (s.stream.unread.take n))) ∧
      t.stream.unread = s.stream.unread.drop n ∧
      t.chan.inpos = s.chan.inpos + (n + 7 - s.bs.count.toNat) / 8 ∧
      t.bs.count.toNat = s.bs.count.toNat + 8 * ((n + 7 - s.bs.count.toNat) / 8) - n ∧
      t.bs.limit.toNat = (if s.bs.limitEn then s.bs.limit.toNat - n else s.bs.limit.toNat) ∧
      t = { s with
        bs := { s.bs with buf := t.bs.buf, count := t.bs.count, limit := t.bs.limit }
        chan := { s.chan with inpos := t.chan.inpos, draws := t.chan.draws, drawn := t.chan.drawn }
        resp := t.resp }

/-- R121 (partial failure), R242: with fewer than n bits left, BS_GETBITS returns IoExhausted; the bits it took are lost,
COUNT is 0, every input byte is consumed, ERR holds the kind and LIMIT is not decremented. -/
def Obligations.GetbitsPastTheEndLosesTheBitsTaken : Prop :=
  ∀ (n : Nat) (s : State), 1 ≤ n → n ≤ 31 → s.bs.mode = .reader → s.ac.state ≠ .started → s.bs.Wf → s.chan.Wf →
    s.bs.err = none → (s.bs.limitEn = true → n ≤ s.bs.limit.toNat) → s.stream.unread.length < n →
    s.chan.Reliable (s.chan.input.length - s.chan.inpos + 1) →
    ∃ t, exec (.bsGetbits n) s = .next t ∧ t.resp = some ⟨.ioExhausted, 0⟩ ∧
      t.bs = { s.bs with buf := t.bs.buf, count := 0, err := some .ioExhausted } ∧
      t.chan.inpos = s.chan.input.length ∧
      t = { s with
        bs := t.bs, chan := { s.chan with inpos := t.chan.inpos, draws := t.chan.draws, drawn := t.chan.drawn }, resp := t.resp }

/-- R63, R121 (partial failure), R243: when ChanRead `j` of a BS_GETBITS is the first to fail (the first, second, third or
fourth), the status is IoFailure; the failed read consumes no byte, the `j` bytes before it stay consumed and their bits are
lost; COUNT is 0, BUF is the last byte read (unchanged where there is none), ERR holds the kind and LIMIT is not decremented;
nothing else changes. -/
def Obligations.FailedReadConsumesNoByte : Prop :=
  ∀ (n j : Nat) (s : State), 1 ≤ n → n ≤ 31 → s.bs.mode = .reader → s.ac.state ≠ .started → s.bs.Wf → s.bs.err = none →
    (s.bs.limitEn = true → n ≤ s.bs.limit.toNat) → j < (n + 7 - s.bs.count.toNat) / 8 →
    j ≤ s.chan.input.length - s.chan.inpos → s.chan.Reliable j → s.chan.drawAt j = true →
    exec (.bsGetbits n) s = .next { s with
      bs := { s.bs with
        buf := ((s.chan.input.drop s.chan.inpos).take j).getLast?.getD s.bs.buf, count := 0, err := some .ioFailure }
      chan := { s.chan with
        inpos := s.chan.inpos + j, draws := s.chan.draws.drop (j + 1), drawn := s.chan.drawn + (j + 1) }
      resp := some ⟨.ioFailure, 0⟩ }

/-- R122, R132, R65, R147: BS_PUTBITS appends the n bits of the value, most significant first, and gives
floor((n + 8 - COUNT)/8) bytes to the channel; LIMIT, where armed, drops by n; nothing else changes. -/
def Obligations.PutbitsAppendsTheBits : Prop :=
  ∀ (n : Nat) (value : Word) (s : State), 1 ≤ n → n ≤ 31 → value.toNat < 2 ^ n → s.bs.mode = .writer →
    s.ac.state ≠ .started → s.bs.Wf → s.bs.err = none → (s.bs.limitEn = true → n ≤ s.bs.limit.toNat) →
    s.chan.Reliable ((n + 8 - s.bs.count.toNat) / 8) →
    ∃ t, exec (.bsPutbits n value) s = .next t ∧ t.resp = some ⟨.ok, 0⟩ ∧
      t.stream.written = s.stream.written ++ lowBits n value.toNat ∧ s.chan.output <+: t.chan.output ∧
      t.chan.output.length = s.chan.output.length + (n + 8 - s.bs.count.toNat) / 8 ∧ t.bs.Wf ∧
      t.bs.limit.toNat = (if s.bs.limitEn then s.bs.limit.toNat - n else s.bs.limit.toNat) ∧
      t = { s with
        bs := { s.bs with buf := t.bs.buf, count := t.bs.count, limit := t.bs.limit }
        chan := { s.chan with output := t.chan.output, draws := t.chan.draws, drawn := t.chan.drawn }
        resp := t.resp }

/-- R64, R122 (partial failure), R243: when ChanWrite `j` of a BS_PUTBITS is the first to fail (the first, second, third or
fourth), the status is IoFailure; the `j` bytes completed before it stay in OUT, they are the next bits put, and the failed
byte is lost with the bits after it; BUF = 0 and COUNT = 8, ERR holds the kind, and LIMIT is not decremented; nothing else
changes. -/
def Obligations.FailedWriteLosesTheByte : Prop :=
  ∀ (n j : Nat) (value : Word) (s : State), 1 ≤ n → n ≤ 31 → value.toNat < 2 ^ n → s.bs.mode = .writer →
    s.ac.state ≠ .started → s.bs.Wf → s.bs.err = none → (s.bs.limitEn = true → n ≤ s.bs.limit.toNat) →
    j < (n + 8 - s.bs.count.toNat) / 8 → s.chan.Reliable j → s.chan.drawAt j = true →
    ∃ t, exec (.bsPutbits n value) s = .next t ∧ t.resp = some ⟨.ioFailure, 0⟩ ∧ s.chan.output <+: t.chan.output ∧
      t.chan.output.length = s.chan.output.length + j ∧
      t.chan.output.flatMap byteBits =
        (s.stream.written ++ lowBits n value.toNat).take (8 * (s.chan.output.length + j)) ∧
      t = { s with
        bs := { s.bs with buf := 0, count := 8, err := some .ioFailure }
        chan := { s.chan with
          output := t.chan.output, draws := s.chan.draws.drop (j + 1), drawn := s.chan.drawn + (j + 1) }
        resp := t.resp }

/-- R120, R244: a get or put of more bits than the armed LIMIT is rejected whole with LimitExceeded: no bit moves, LIMIT is
unchanged, and the rejection is sticky. -/
def Obligations.LimitRejectsTheWholeTransfer : Prop :=
  ∀ (i : Instr) (n : Nat) (s : State), (i = .bsGetbits n ∨ ∃ value, i = .bsPutbits n value) → ¬ BadStateWhen i s →
    ¬ BadArgumentWhen i s → s.bs.err = none → s.bs.limitEn = true → s.bs.limit.toNat < n →
    exec i s = .next { s with bs := { s.bs with err := some .limitExceeded }, resp := some ⟨.limitExceeded, 0⟩ }

/-- R133, R134, R123: a reader's ALIGN discards the unread bits of BUF and transfers nothing; on a writer ALIGN and FLUSH
write the partial byte, zero-padded, or nothing at a byte boundary; LIMIT is neither checked nor changed. -/
def Obligations.AlignAndFlushReachTheByteBoundary : Prop :=
  ∀ s : State, s.ac.state ≠ .started → s.bs.err = none →
    (s.bs.mode = .reader → exec .bsAlign s = .next { s with bs := { s.bs with count := 0 }, resp := some ⟨.ok, 0⟩ }) ∧
      (s.bs.mode = .writer → s.bs.Wf → ∀ i ∈ [Instr.bsAlign, .bsFlush],
        (s.bs.count = 8 → exec i s = .next { s with resp := some ⟨.ok, 0⟩ }) ∧
          (s.bs.count ≠ 8 → s.chan.drawAt 0 = false →
            ∃ t, exec i s = .next t ∧ t.resp = some ⟨.ok, 0⟩ ∧
              t.stream.written = s.stream.written ++ List.replicate s.bs.count.toNat false ∧
              t = { s with
                bs := { s.bs with buf := 0, count := 8 }
                chan := { s.chan with
                  output := s.chan.output ++ [s.bs.buf], draws := s.chan.draws.tail, drawn := s.chan.drawn + 1 }
                resp := t.resp }) ∧
          (s.bs.count ≠ 8 → s.chan.drawAt 0 = true →
            exec i s = .next { s with
              bs := { s.bs with buf := 0, count := 8, err := some .ioFailure }
              chan := { s.chan with draws := s.chan.draws.tail, drawn := s.chan.drawn + 1 }
              resp := some ⟨.ioFailure, 0⟩ }))

/-- R135: CLOSE always unbinds. It returns the stored error without a flush, else flushes a writer's partial byte and returns
OK, or IoFailure where that write fails. -/
def Obligations.CloseAlwaysUnbinds : Prop :=
  ∀ s : State, s.bs.mode ≠ .none → s.ac.state ≠ .started → s.bs.Wf →
    (∀ x, s.bs.err = some x →
      exec .bsClose s = .next { s with bs := ⟨.none, 0, 0, none, false, 0⟩, resp := some ⟨x.status, 0⟩ }) ∧
    (s.bs.err = none → s.bs.mode = .reader ∨ s.bs.count = 8 →
      exec .bsClose s = .next { s with bs := ⟨.none, 0, 0, none, false, 0⟩, resp := some ⟨.ok, 0⟩ }) ∧
    (s.bs.err = none → s.bs.mode = .writer → s.bs.count ≠ 8 →
      exec .bsClose s = .next { s with
        bs := ⟨.none, 0, 0, none, false, 0⟩
        chan := { s.chan with
          output := s.chan.output ++ (if s.chan.drawAt 0 then [] else [s.bs.buf])
          draws := s.chan.draws.tail, drawn := s.chan.drawn + 1 }
        resp := some ⟨if s.chan.drawAt 0 then .ioFailure else .ok, 0⟩ })

/-- R136, R137, R138: the limit and error commands on a bound stream, faulted or not, during a block or not. -/
def Obligations.LimitAndErrorCommandsWriteTheirRegisters : Prop :=
  ∀ s : State, s.bs.mode ≠ .none →
    (∀ limit : Word, exec (.bsSetLimit limit) s =
      .next { s with bs := { s.bs with limitEn := true, limit := limit }, resp := some ⟨.ok, 0⟩ }) ∧
    exec .bsClearLimit s = .next { s with bs := { s.bs with limitEn := false, limit := 0 }, resp := some ⟨.ok, 0⟩ } ∧
    exec .bsClearError s = .next { s with bs := { s.bs with err := none }, resp := some ⟨.ok, 0⟩ }

/-- R90 to R93, R139, R140, R166, R167, R220, R71: each read command returns its registers in the tabled fields and has no
side effect. -/
def Obligations.ReadCommandsReturnTheTabledFields : Prop :=
  ∀ s : State,
    (∃ v : Word, exec .bsStatus s = .next { s with resp := some ⟨.ok, v⟩ } ∧ v.extractLsb' 0 4 = s.bs.count ∧
      (s.bs.err, (v.extractLsb' 4 2).toNat) ∈
        [(none, 0), (some .ioExhausted, 1), (some .ioFailure, 2), (some .limitExceeded, 3)] ∧ v.extractLsb' 6 1 = 0 ∧ v.getLsbD 7 = s.bs.limitEn ∧
      (s.bs.mode, (v.extractLsb' 8 2).toNat) ∈ [(.none, 0), (.reader, 1), (.writer, 2)] ∧ v.extractLsb' 10 22 = 0) ∧
    exec .bsGetLimit s = .next { s with resp := some ⟨.ok, s.bs.limit⟩ } ∧
    (∀ c x, s.ctx[c]? = some x →
      (∃ v : Word, exec (.ctxRead c) s = .next { s with resp := some ⟨.ok, v⟩ } ∧ v.extractLsb' 16 16 = x.one ∧
        v.extractLsb' 0 16 = x.total) ∧
      (∃ v : Word, exec (.ctxReadCfg c) s = .next { s with resp := some ⟨.ok, v⟩ } ∧ v.extractLsb' 0 16 = x.maxf ∧
        v.getLsbD 16 = x.adapt ∧ v.extractLsb' 17 15 = 0)) ∧
    (∃ v : Word, exec .acStatus s = .next { s with resp := some ⟨.ok, v⟩ } ∧
      (s.ac.state, (v.extractLsb' 0 2).toNat) ∈ [(.unstarted, 0), (.started, 1), (.terminated, 2), (.failed, 3)] ∧
      (s.ac.role, (v.extractLsb' 2 2).toNat) ∈ [(.none, 0), (.enc, 1), (.dec, 2)] ∧ v.extractLsb' 4 28 = 0)

/-- R145, R65, R66: a sequence of puts followed by a flush writes the values' bits in order, zero-padded to a byte boundary,
and the same sequence of get widths on these bytes returns the same values. -/
def Obligations.GetsReturnWhatWasPut : Prop :=
  ∀ (l : List (Nat × Word)) (w r : State),
    (∀ p ∈ l, 1 ≤ p.1 ∧ p.1 ≤ 31 ∧ p.2.toNat < 2 ^ p.1) → w.ac.state ≠ .started → r.ac.state ≠ .started →
    w.bs = ⟨.writer, 0, 8, none, false, 0⟩ → r.bs = ⟨.reader, 0, 0, none, false, 0⟩ → r.chan.inpos = 0 →
    w.chan.output = [] → w.chan.Reliable (((l.map Prod.fst).sum + 7) / 8) →
    r.chan.Reliable (((l.map Prod.fst).sum + 7) / 8) →
    ∃ w' answers, issue (l.map (fun p => Instr.bsPutbits p.1 p.2) ++ [.bsFlush]) w = some (w', answers) ∧
      (∀ a ∈ answers, a = ⟨.ok, 0⟩) ∧
      w'.chan.output.flatMap byteBits =
        l.flatMap (fun p => lowBits p.1 p.2.toNat) ++ List.replicate ((8 - (l.map Prod.fst).sum % 8) % 8) false ∧
      (r.chan.input = w'.chan.output →
        ∃ r', issue (l.map fun p => Instr.bsGetbits p.1) r = some (r', l.map fun p => ⟨.ok, p.2⟩))

/-- R66, R98: PUT_HEADER at a byte boundary writes two big-endian 16-bit values, high byte first. -/
def Obligations.HeaderFieldsAreBigEndian : Prop :=
  ∀ (nb bs : BitVec 16) (s : State), s.ac.state ≠ .started → s.bs = ⟨.writer, 0, 8, none, false, 0⟩ → s.chan.Reliable 4 →
    ∃ t, issue (Pseudo.putHeader nb bs).expand s = some (t, [⟨.ok, 0⟩, ⟨.ok, 0⟩]) ∧ t.bs = s.bs ∧
      t.chan.output = s.chan.output ++
        [nb.extractLsb' 8 8, nb.extractLsb' 0 8, bs.extractLsb' 8 8, bs.extractLsb' 0 8]

/-! ## Contexts -/

/-- R165: CTX_INIT with operands in range writes the four fields of its context, and nothing else, in every state. -/
def Obligations.CtxInitWritesOneContext : Prop :=
  ∀ (c : Nat) (one total maxf : BitVec 16) (adaptive : Bool) (s : State), c < s.ctx.length → 2 ≤ maxf.toNat →
    1 ≤ one.toNat → one.toNat < total.toNat → total.toNat ≤ maxf.toNat →
    ∃ t, exec (.ctxInit c one total maxf adaptive) s = .next t ∧ t.resp = some ⟨.ok, 0⟩ ∧
      t.ctx[c]? = some ⟨one, total, maxf, adaptive⟩ ∧ (∀ d, d ≠ c → t.ctx[d]? = s.ctx[d]?) ∧
      t = { s with ctx := t.ctx, resp := t.resp }

/-- R161, R162: the counts after Update, in the three cases; MAXF and ADAPT are unchanged. -/
def Obligations.UpdateCountsAndRescales : Prop :=
  ∀ (x : Context) (bit : Bool), x.Wf →
    (x.update bit).maxf = x.maxf ∧ (x.update bit).adapt = x.adapt ∧ (x.adapt = false → x.update bit = x) ∧
    (x.adapt = true → x.total.toNat + 1 < x.maxf.toNat →
      (x.update bit).one.toNat = x.one.toNat + bit.toNat ∧ (x.update bit).total.toNat = x.total.toNat + 1) ∧
    (x.adapt = true → x.maxf.toNat ≤ x.total.toNat + 1 →
      2 * (x.update bit).one.toNat = x.one.toNat + bit.toNat + (x.one.toNat + bit.toNat) % 2 ∧
        2 * ((x.update bit).total.toNat - (x.update bit).one.toNat) =
          x.total.toNat + 1 - (x.one.toNat + bit.toNat) + (x.total.toNat + 1 - (x.one.toNat + bit.toNat)) % 2)

/-- R163, R22: Update preserves 1 <= ONE < TOTAL <= MAXF; after a rescale TOTAL is at most (MAXF + 3)/2, so it rests at MAXF
only where MAXF <= 3; the transient total passes 65535 only from TOTAL = MAXF = 65535. -/
def Obligations.UpdateKeepsTheContextInvariant : Prop :=
  ∀ (x : Context) (bit : Bool), x.Wf →
    (x.update bit).Wf ∧
      (x.adapt = true → x.maxf.toNat ≤ x.total.toNat + 1 →
        2 * (x.update bit).total.toNat ≤ x.maxf.toNat + 3 ∧ ((x.update bit).total = x.maxf → x.maxf.toNat ≤ 3)) ∧
      x.total.toNat + 1 ≤ 65536 ∧ (x.total.toNat + 1 = 65536 → x.maxf = 65535 ∧ x.total = 65535)

/-- R170: from the reset counts, k symbols of which j are 1 give (1 + j, 2 + k) while TOTAL stays below the ceiling; the first
rescale is in the 65533rd Update. -/
def Obligations.CountTrajectoryUpToTheFirstRescale : Prop :=
  ∀ bits : List Bool,
    (bits.length ≤ 65532 →
      (bits.foldl Context.update Context.reset).one.toNat = 1 + bits.count true ∧
        (bits.foldl Context.update Context.reset).total.toNat = 2 + bits.length) ∧
    (bits.length = 65532 → ∀ b : Bool,
      (Context.update (bits.foldl Context.update Context.reset) b).one.toNat = (2 + bits.count true + b.toNat) / 2)

/-- R23: only CTX_INIT writes MAXF and ADAPT, only CTX_INIT, ENC_REGULAR and DEC_REGULAR write ONE and TOTAL, and each of
them only in the context it names; the number of contexts never changes. -/
def Obligations.ContextsChangeOnlyThroughTheirWriters : Prop :=
  ∀ (i : Instr) (s t : State), exec i s = .next t →
    t.ctx.length = s.ctx.length ∧
      ∀ (d : Nat) (x y : Context), s.ctx[d]? = some x → t.ctx[d]? = some y →
        (x.maxf ≠ y.maxf ∨ x.adapt ≠ y.adapt → ∃ one total maxf adaptive, i = .ctxInit d one total maxf adaptive) ∧
          (x ≠ y → (∃ one total maxf adaptive, i = .ctxInit d one total maxf adaptive) ∨ (∃ bit, i = .encRegular d bit) ∨
            i = .decRegular d)

/-! ## The coder -/

/-- R219, R211: AC_INIT in every state; ENC_START on an unfaulted writer. -/
def Obligations.InitAndEncStartSetTheCoder : Prop :=
  ∀ s : State,
    exec .acInit s = .next { s with ac := ⟨.unstarted, .none, 0, 0, 0, 0, false, 0⟩, resp := some ⟨.ok, 0⟩ } ∧
      (s.ac.state = .unstarted → s.bs.mode = .writer → s.bs.err = none →
        exec .encStart s = .next { s with
          ac := ⟨.started, .enc, 0, 0xFFFFFFFF, s.ac.code, 0, false, 0⟩, resp := some ⟨.ok, 0⟩ })

/-- R215: DEC_START on an unfaulted reader with 32 bits left loads CODE with them, big-endian, and starts the block. -/
def Obligations.DecStartLoadsTheCodeWindow : Prop :=
  ∀ s : State, s.ac.state = .unstarted → s.bs.mode = .reader → s.bs.Wf → s.bs.err = none →
    (s.bs.limitEn = true → 32 ≤ s.bs.limit.toNat) → 32 ≤ s.stream.unread.length → s.chan.Reliable 4 →
    ∃ t, exec .decStart s = .next t ∧ t.resp = some ⟨.ok, 0⟩ ∧
      t.ac = { s.ac with
        state := .started, role := .dec, low := 0, high := 0xFFFFFFFF
        code := BitVec.ofNat 32 (bitsNat (s.stream.unread.take 32)) } ∧
      t.stream.unread = s.stream.unread.drop 32 ∧ t.chan.inpos = s.chan.inpos + 4 ∧ t.bs.count = s.bs.count ∧
      t.bs.limit.toNat = (if s.bs.limitEn then s.bs.limit.toNat - 32 else s.bs.limit.toNat) ∧
      t = { s with
        ac := t.ac, bs := { s.bs with buf := t.bs.buf, count := t.bs.count, limit := t.bs.limit }
        chan := { s.chan with inpos := t.chan.inpos, draws := t.chan.draws, drawn := t.chan.drawn }, resp := t.resp }

/-- R215, R201: with fewer than 32 bits left, DEC_START returns IoExhausted and leaves STATE = FAILED, ROLE = DEC. -/
def Obligations.DecStartOnTruncatedInputFails : Prop :=
  ∀ s : State, s.ac.state = .unstarted → s.bs.mode = .reader → s.bs.Wf → s.chan.Wf → s.bs.err = none →
    s.bs.limitEn = false → s.stream.unread.length < 32 → s.chan.Reliable 4 →
    ∃ t, exec .decStart s = .next t ∧ t.resp = some ⟨.ioExhausted, 0⟩ ∧ t.ac.state = .failed ∧ t.ac.role = .dec ∧
      t.bs.err = some .ioExhausted ∧ t.ctx = s.ctx

/-- R204, R222(a): with R at least 2^24 and legal counts, symbol 0's width is floor(R * ZERO / TOTAL), at least 256, and
symbol 1's is at least 257; for a bypass symbol both are at least 2^23. -/
def Obligations.SplitLeavesNoNarrowSubInterval : Prop :=
  ∀ (r : Nat) (x : Context), 2 ^ 24 ≤ r → x.Wf →
    (256 ≤ split r x.zero x.total.toNat ∧ split r x.zero x.total.toNat + 257 ≤ r ∧
      split r x.zero x.total.toNat * x.total.toNat ≤ r * (x.total.toNat - x.one.toNat) ∧
      r * (x.total.toNat - x.one.toNat) < (split r x.zero x.total.toNat + 1) * x.total.toNat) ∧
    (2 ^ 23 ≤ split r 1 2 ∧ split r 1 2 + 2 ^ 23 ≤ r)

/-- R212, R204 to R208, R224: ENC_REGULAR in a running encoder block, on a context that exists, with room for the bytes it
writes. That PENDING stays inside its width is the model's condition (R206, X3; log entry 8). -/
def Obligations.EncRegularNarrowsTheInterval : Prop :=
  ∀ (c : Nat) (bit : Bool) (s : State) (x : Context), s.Inv → s.ac.state = .started → s.ac.role = .enc →
    s.ctx[c]? = some x →
    EncoderHasRoom s (s.ac.range * (x.total.toNat - x.one.toNat) / x.total.toNat) bit →
    ∃ t, exec (.encRegular c bit) s = .next t ∧
      EncodedSymbol s t (s.ac.range * (x.total.toNat - x.one.toNat) / x.total.toNat) bit ∧
      t.ctx = s.ctx.set c (x.update bit)

/-- R213: ENC_BYPASS in a running encoder block with room for the bytes it writes: the fixed 50/50 split, at most one step, no
context. That PENDING stays inside its width is the model's condition (R206, X3; log entry 8). -/
def Obligations.EncBypassHalvesTheInterval : Prop :=
  ∀ (bit : Bool) (s : State), s.Inv → s.ac.state = .started → s.ac.role = .enc → EncoderHasRoom s (s.ac.range / 2) bit →
    renormCount (symbolWidth s.ac.range (s.ac.range / 2) bit) ≤ 1 ∧
      ∃ t, exec (.encBypass bit) s = .next t ∧ EncodedSymbol s t (s.ac.range / 2) bit ∧ t.ctx = s.ctx

/-- R214, R210, R224, R228: ENC_TERMINATE writes CACHE_VALID + PENDING + 4 bytes, and then the bits written are exactly the
code value; LOW, CACHE_VALID and PENDING end at 0, HIGH keeps its value and STATE is TERMINATED. That PENDING stays inside its
width is the model's condition (R206, X3; log entry 8). -/
def Obligations.EncTerminateWritesTheCodeValue : Prop :=
  ∀ s : State, s.Inv → s.ac.state = .started → s.ac.role = .enc →
    (s.bs.limitEn = true → 8 * (s.ac.cacheValid.toNat + s.ac.pending.toNat + 4) ≤ s.bs.limit.toNat) →
    s.chan.Reliable (s.ac.cacheValid.toNat + s.ac.pending.toNat + 4) → s.ac.KeepsCount 4 →
    ∃ t, exec .encTerminate s = .next t ∧ t.resp = some ⟨.ok, 0⟩ ∧ bitsNat t.stream.written = s.engine.codeValue ∧
      t.stream.written.length = s.stream.written.length + 8 * (s.ac.cacheValid.toNat + s.ac.pending.toNat + 4) ∧
      s.stream.written <+: t.stream.written ∧
      t.ac = { s.ac with state := .terminated, low := 0, cache := t.ac.cache, cacheValid := false, pending := 0 } ∧
      t.bs.limit.toNat =
        (if s.bs.limitEn then s.bs.limit.toNat - 8 * (s.ac.cacheValid.toNat + s.ac.pending.toNat + 4)
          else s.bs.limit.toNat) ∧
      t = { s with
        ac := t.ac, bs := { s.bs with buf := t.bs.buf, count := t.bs.count, limit := t.bs.limit }
        chan := { s.chan with output := t.chan.output, draws := t.chan.draws, drawn := t.chan.drawn }, resp := t.resp }

/-- R214, R230: a block of no symbols is four zero bytes, at whatever bit offset it starts. -/
def Obligations.EmptyBlockIsFourZeroBytes : Prop :=
  ∀ s : State, s.ac.state = .unstarted → s.bs.mode = .writer → s.bs.Wf → s.bs.err = none →
    (s.bs.limitEn = true → 32 ≤ s.bs.limit.toNat) → s.chan.Reliable 4 →
    ∃ t, issue (encodeBlock []) s = some (t, [⟨.ok, 0⟩, ⟨.ok, 0⟩]) ∧
      t.stream.written = s.stream.written ++ List.replicate 32 false ∧ t.ac.state = .terminated

/-- R216, R225: DEC_REGULAR in a running decoder block, on a context that exists, with its input there. -/
def Obligations.DecRegularRecoversABit : Prop :=
  ∀ (c : Nat) (s : State) (x : Context), s.Inv → s.ac.state = .started → s.ac.role = .dec → s.ctx[c]? = some x →
    DecoderHasInput s (renormCount (symbolWidth s.ac.range (s.ac.range * (x.total.toNat - x.one.toNat) / x.total.toNat)
      (decide (s.ac.range * (x.total.toNat - x.one.toNat) / x.total.toNat ≤ s.ac.offset)))) →
    ∃ t, exec (.decRegular c) s = .next t ∧
      DecodedSymbol s t (s.ac.range * (x.total.toNat - x.one.toNat) / x.total.toNat) ∧
      t.ctx = s.ctx.set c (x.update (decide (s.ac.range * (x.total.toNat - x.one.toNat) / x.total.toNat ≤ s.ac.offset)))

/-- R217: DEC_BYPASS in a running decoder block with its input there: at most one byte, no context. -/
def Obligations.DecBypassRecoversABit : Prop :=
  ∀ s : State, s.Inv → s.ac.state = .started → s.ac.role = .dec →
    DecoderHasInput s (renormCount (symbolWidth s.ac.range (s.ac.range / 2) (decide (s.ac.range / 2 ≤ s.ac.offset)))) →
    renormCount (symbolWidth s.ac.range (s.ac.range / 2) (decide (s.ac.range / 2 ≤ s.ac.offset))) ≤ 1 ∧
      ∃ t, exec .decBypass s = .next t ∧ DecodedSymbol s t (s.ac.range / 2) ∧ t.ctx = s.ctx

/-- R218: DEC_TERMINATE writes STATE only: TERMINATED with OK where CODE = LOW[31:0], else FAILED with DecodeFailure. -/
def Obligations.DecTerminateChecksTheWindow : Prop :=
  ∀ s : State, s.ac.state = .started → s.ac.role = .dec → s.bs.err = none →
    (s.ac.code.toNat = s.ac.low.toNat % 2 ^ 32 →
      exec .decTerminate s = .next { s with ac := { s.ac with state := .terminated }, resp := some ⟨.ok, 0⟩ }) ∧
    (s.ac.code.toNat ≠ s.ac.low.toNat % 2 ^ 32 →
      exec .decTerminate s = .next { s with ac := { s.ac with state := .failed }, resp := some ⟨.decodeFailure, 0⟩ })

/-- R168: a non-adaptive context never changes but by CTX_INIT; with counts (1, 2) a regular command on it does exactly what the
bypass command does. -/
def Obligations.FixedEvenContextCodesAsBypass : Prop :=
  ∀ (c : Nat) (x : Context) (s : State), s.ctx[c]? = some x → x.adapt = false →
    (∀ i t, exec i s = .next t → i.op ≠ .ctxInit → t.ctx[c]? = some x) ∧
      (x.one = 1 → x.total = 2 →
        (∀ bit, exec (.encRegular c bit) s = exec (.encBypass bit) s) ∧ exec (.decRegular c) s = exec .decBypass s)

/-- R202, R252: a coder command that ends with a stream error or DecodeFailure leaves STATE = FAILED, the contexts and the
binding as they were, and ERR holding the stream error. -/
def Obligations.CoderErrorAbandonsTheBlock : Prop :=
  ∀ (i : Instr) (s t : State) (r : Response), failsBlock i = true → exec i s = .next t → t.resp = some r →
    r.status ∉ [Status.ok, .badState, .badArgument, .badCommand] →
    t.ac.state = .failed ∧ t.ctx = s.ctx ∧ t.bs.mode = s.bs.mode ∧ t.host = s.host ∧
      (r.status = .decodeFailure → i = .decTerminate ∧ t.bs = s.bs ∧ t.chan = s.chan) ∧
      (r.status ≠ .decodeFailure → ∃ x, t.bs.err = some x ∧ x.status = r.status)

/-- R201: a command that answers leaves STATE and ROLE as one row of the table says, under that row's conditions on STATE, ROLE,
MODE, ERR at entry, a stream error during it, and CODE = LOW[31:0]. In order: AC_INIT; the START commands; the symbol and
TERMINATE commands of a STARTED block of their own role; a stream error in such a block; a refusal, which changes nothing;
every command that is not of the table. -/
def Obligations.BlockStateFollowsTheTable : Prop :=
  ∀ (i : Instr) (s t : State), exec i s = .next t →
    (i = .acInit ∧ t.ac.state = .unstarted ∧ t.ac.role = .none) ∨
    (i = .encStart ∧ s.ac.state = .unstarted ∧ s.bs.mode = .writer ∧
      ((s.bs.err = none ∧ t.bs.err = none ∧ t.ac.state = .started ∧ t.ac.role = .enc) ∨
        (s.bs.err ≠ none ∧ t.ac.state = .failed ∧ t.ac.role = s.ac.role))) ∨
    (i = .decStart ∧ s.ac.state = .unstarted ∧ s.bs.mode = .reader ∧
      ((s.bs.err = none ∧ t.bs.err = none ∧ t.ac.state = .started ∧ t.ac.role = .dec) ∨
        (s.bs.err = none ∧ t.bs.err ≠ none ∧ t.ac.state = .failed ∧ t.ac.role = .dec) ∨
        (s.bs.err ≠ none ∧ t.ac.state = .failed ∧ t.ac.role = s.ac.role))) ∨
    (s.ac.state = .started ∧ s.ac.role = .enc ∧ s.bs.err = none ∧ t.bs.err = none ∧ t.ac.role = .enc ∧
      ((i.op ∈ [Op.encRegular, .encBypass] ∧ t.ac.state = .started) ∨ (i = .encTerminate ∧ t.ac.state = .terminated))) ∨
    (s.ac.state = .started ∧ s.ac.role = .dec ∧ s.bs.err = none ∧ t.bs.err = none ∧ t.ac.role = .dec ∧
      ((i.op ∈ [Op.decRegular, .decBypass] ∧ t.ac.state = .started) ∨
        (i = .decTerminate ∧ s.ac.code.toNat = s.ac.low.toNat % 2 ^ 32 ∧ t.ac.state = .terminated) ∨
        (i = .decTerminate ∧ s.ac.code.toNat ≠ s.ac.low.toNat % 2 ^ 32 ∧ t.ac.state = .failed))) ∨
    (s.ac.state = .started ∧ (s.bs.err ≠ none ∨ t.bs.err ≠ none) ∧ t.ac.state = .failed ∧ t.ac.role = s.ac.role ∧
      ((s.ac.role = .enc ∧ i.op ∈ [Op.encRegular, .encBypass, .encTerminate]) ∨
        (s.ac.role = .dec ∧ i.op ∈ [Op.decRegular, .decBypass, .decTerminate]))) ∨
    (t = { s with resp := some ⟨.badState, 0⟩ } ∨ t = { s with resp := some ⟨.badArgument, 0⟩ }) ∨
    (failsBlock i = false ∧ i ≠ .acInit ∧ t.ac.state = s.ac.state ∧ t.ac.role = s.ac.role)

/-- R231: once a block is TERMINATED or FAILED, no command but AC_INIT changes a coder register, and every symbol, start and
terminate command returns BadState and changes nothing. -/
def Obligations.ClosedBlockStaysClosedUntilInit : Prop :=
  ∀ (i : Instr) (s : State), s.ac.state = .terminated ∨ s.ac.state = .failed →
    (failsBlock i = true → exec i s = .next { s with resp := some ⟨.badState, 0⟩ }) ∧
      (i ≠ .acInit → ∀ t, exec i s = .next t → t.ac = s.ac)

/-! ## Frames -/

/-- R23, R135, R165, R219: what each group leaves unchanged: Bit Stream commands the contexts and the coder; context commands
the stream, the channel and the coder; coder commands MODE, LIMIT_EN and the input; encoders the read position and CODE,
decoders the output, CACHE, CACHE_VALID and PENDING; no command the host's queue. -/
def Obligations.GroupsKeepToTheirState : Prop :=
  ∀ (i : Instr) (s t : State), exec i s = .next t →
    t.host = s.host ∧ t.chan.input = s.chan.input ∧
      (ofStream i = true → t.ctx = s.ctx ∧ t.ac = s.ac) ∧
      (ofContexts i = true → t.bs = s.bs ∧ t.chan = s.chan ∧ t.ac = s.ac) ∧
      (ofCoder i = true → t.bs.mode = s.bs.mode ∧ t.bs.limitEn = s.bs.limitEn) ∧
      (ofEncoder i = true → t.chan.inpos = s.chan.inpos ∧ t.ac.code = s.ac.code) ∧
      (ofDecoder i = true → t.chan.output = s.chan.output ∧ t.ac.cache = s.ac.cache ∧
        t.ac.cacheValid = s.ac.cacheValid ∧ t.ac.pending = s.ac.pending)

/-- R64, R71: bytes given to the channel stay given: OUT only grows at its end; and only BS_BIND moves INPOS back. -/
def Obligations.ChannelOnlyMovesForward : Prop :=
  ∀ (i : Instr) (s t : State), exec i s = .next t →
    s.chan.output <+: t.chan.output ∧ ((∀ dir, i ≠ .bsBind dir) → s.chan.inpos ≤ t.chan.inpos)

/-- R283, R69: the channel transfers of every command, successful or not, are bounded as tabled. -/
def Obligations.TransfersPerCommandAreBounded : Prop :=
  ∀ (i : Instr) (s t : State), s.Inv → exec i s = .next t →
    s.chan.drawn ≤ t.chan.drawn ∧ t.chan.drawn ≤ s.chan.drawn + maxTransfers i s

/-- R227, R234: what a command does depends neither on the bytes accepted before, nor on the last response, nor on what the
host will do next. -/
def Obligations.ThePastOutputDoesNotMatter : Prop :=
  ∀ (i : Instr) (s : State) (before : List Byte) (resp : Option Response) (host : List HostEvent),
    let s' : State := { s with chan := { s.chan with output := before ++ s.chan.output }, resp := resp, host := host }
    (∀ t, exec i s = .next t →
      exec i s' = .next { t with chan := { t.chan with output := before ++ t.chan.output }, host := host }) ∧
    (∀ f, exec i s = .fault f → exec i s' = .fault f) ∧ (∀ f, exec i s = .refused f → exec i s' = .refused f)

/-! ## Headline statements -/

/-- R22, R146, R221, R222, R225, X10: every step, whatever the host does, keeps the invariant. -/
def Obligations.EveryStepKeepsTheInvariant : Prop :=
  ∀ s t : State, s.Inv → step s = .next t → t.Inv

/-- R283 ("assuming every ChanRead and ChanWrite answers"), R223: from every state of the machine, with PENDING not within four
of its limit, every command completes. That every transfer answers is the model's own assumption, built into it and not a
hypothesis here: a channel that never answers stalls the command (R63; X5, treatment stuck; log entry 11). The PENDING
counter's limit is the other (X3; log entry 8). -/
def Obligations.EveryCommandCompletes : Prop :=
  ∀ (i : Instr) (s : State), s.Inv → s.ac.pending.toNat + 4 < 2 ^ 32 → ∃ t, exec i s = .next t

/-- R281, R223, R229: on a channel that answers every transfer (R63; log entry 11) an encoder block completes, every command with
OK, within a budget of 4 bytes and 2 for each regular and 1 for each bypass symbol; it is a whole number of bytes, at least 4. -/
def Obligations.EncoderBlockFitsTheStatedBudget : Prop :=
  ∀ (l : List Symbol) (s : State), s.Inv → s.ac.state = .unstarted → s.bs.mode = .writer → s.bs.err = none →
    (∀ c bit, Symbol.regular c bit ∈ l → c < s.ctx.length) → 4 + (l.map Symbol.maxSteps).sum < 2 ^ 32 →
    (s.bs.limitEn = true → 8 * (4 + (l.map Symbol.maxSteps).sum) ≤ s.bs.limit.toNat) →
    s.chan.Reliable (4 + (l.map Symbol.maxSteps).sum) →
    ∃ (t : State) (block : List Bool) (n : Nat),
      issue (encodeBlock l) s = some (t, List.replicate (l.length + 2) ⟨.ok, 0⟩) ∧
        t.stream.written = s.stream.written ++ block ∧ block.length = 8 * n ∧ 4 ≤ n ∧
        n ≤ 4 + (l.map Symbol.maxSteps).sum ∧ t.ac.state = .terminated

/-- R226, R229, R169: a decoder block on the bits an encoder block wrote, at any bit offsets, with the same contexts and the
mirror commands, returns every symbol, ends with OK, holds the encoder's contexts and has consumed exactly the block. -/
def Obligations.DecodingReturnsTheEncodedSymbols : Prop :=
  ∀ (l : List Symbol) (e e' d : State) (block rest : List Bool),
    e.Inv → d.Inv → e.ctx = d.ctx →
    issue (encodeBlock l) e = some (e', List.replicate (l.length + 2) ⟨.ok, 0⟩) →
    e'.stream.written = e.stream.written ++ block → d.stream.unread = block ++ rest →
    d.ac.state = .unstarted → d.bs.mode = .reader → d.bs.err = none → d.bs.limitEn = false →
    d.chan.Reliable (block.length / 8) →
    ∃ d', issue (decodeBlock l) d = some (d', decodeAnswers l) ∧ d'.stream.unread = rest ∧ d'.ctx = e'.ctx ∧
      d'.ac.state = .terminated

/-! ## The carry state -/

/-- R206: EmitTop on an unfaulted writer. With CACHE empty LOW[31:24] goes to CACHE and nothing is written. With LOW[32] = 0 and
LOW[31:24] = 0xFF nothing is written and one more byte is held back; where that would pass 2^32 - 1 the model refuses (X3; log
entry 8). Else, and only then, CACHE and the PENDING held bytes are written, with the carry LOW[32] added modulo 256, LOW[31:24]
goes to CACHE and nothing stays held back. Nothing else changes. -/
def Obligations.EmitTopResolvesTheCarry : Prop :=
  ∀ e : Engine, e.stream.bs.mode = .writer → e.stream.bs.Wf → e.stream.bs.err = none →
    (e.ac.cacheValid = false →
      emitTop e = .done () { e with
        ac := { e.ac with cache := e.ac.low.extractLsb' 24 8, cacheValid := true, pending := 0 } }) ∧
    (e.ac.cacheValid = true → e.ac.low.getLsbD 32 = false → e.ac.low.extractLsb' 24 8 = 0xFF →
      (e.ac.pending.toNat + 1 < 2 ^ 32 →
        emitTop e = .done () { e with ac := { e.ac with pending := BitVec.ofNat 32 (e.ac.pending.toNat + 1) } }) ∧
      (2 ^ 32 ≤ e.ac.pending.toNat + 1 → emitTop e = .overflow)) ∧
    (e.ac.cacheValid = true → e.ac.low.getLsbD 32 = true ∨ e.ac.low.extractLsb' 24 8 ≠ 0xFF →
      (e.stream.bs.limitEn = true → 8 * (1 + e.ac.pending.toNat) ≤ e.stream.bs.limit.toNat) →
      e.stream.chan.Reliable (1 + e.ac.pending.toNat) →
      ∃ u, emitTop e = .done () ⟨{ e.ac with cache := e.ac.low.extractLsb' 24 8, pending := 0 }, u⟩ ∧
        u.written = e.stream.written ++
          ((if e.ac.low.getLsbD 32 then e.ac.cache + 1 else e.ac.cache) ::
            List.replicate e.ac.pending.toNat (if e.ac.low.getLsbD 32 then 0x00 else 0xFF)).flatMap byteBits ∧
        e.stream.chan.output <+: u.chan.output ∧
        u.bs.limit.toNat =
          (if e.stream.bs.limitEn then e.stream.bs.limit.toNat - 8 * (1 + e.ac.pending.toNat) else e.stream.bs.limit.toNat) ∧
        u.bs = { e.stream.bs with buf := u.bs.buf, limit := u.bs.limit } ∧
        u.chan = { e.stream.chan with output := u.chan.output, draws := u.chan.draws, drawn := u.chan.drawn })
end

