-- ==== Sys2Proof/Laws/Bits.lean ====
section
/-! SUPPORT. Bit sequences in stream order: the number a sequence is, and the sequence a number is (R65). -/

namespace Sys2Proof.Machine

@[simp] theorem lowBits_zero (v : Nat) : lowBits 0 v = [] := rfl

theorem lowBits_succ (n v : Nat) : lowBits (n + 1) v = v.testBit n :: lowBits n v := rfl

@[simp] theorem lowBits_length (n v : Nat) : (lowBits n v).length = n := by
  induction n with
  | zero => rfl
  | succ n ih => simp [lowBits_succ, ih]

@[simp] theorem byteBits_length (b : Byte) : (byteBits b).length = 8 := lowBits_length 8 _

theorem flatMap_byteBits_length (l : List Byte) : (l.flatMap byteBits).length = 8 * l.length := by
  induction l with
  | nil => rfl
  | cons b l ih => simp [ih]; omega

theorem foldl_bits (l : List Bool) (v : Nat) :
    l.foldl (fun v b => 2 * v + b.toNat) v = v * 2 ^ l.length + bitsNat l := by
  induction l generalizing v with
  | nil => simp [bitsNat]
  | cons b l ih =>
    simp only [bitsNat, List.foldl_cons, List.length_cons] at *
    rw [ih, ih (2 * 0 + b.toNat), pow_succ]
    ring

@[simp] theorem bitsNat_nil : bitsNat [] = 0 := rfl

theorem bitsNat_cons (b : Bool) (l : List Bool) : bitsNat (b :: l) = b.toNat * 2 ^ l.length + bitsNat l := by
  show l.foldl _ (2 * 0 + b.toNat) = _
  rw [foldl_bits]; simp

theorem bitsNat_append (l m : List Bool) : bitsNat (l ++ m) = bitsNat l * 2 ^ m.length + bitsNat m := by
  rw [bitsNat, List.foldl_append, foldl_bits]; rfl

theorem bitsNat_lt (l : List Bool) : bitsNat l < 2 ^ l.length := by
  induction l with
  | nil => simp
  | cons b l ih =>
    rw [bitsNat_cons, List.length_cons, pow_succ]
    cases b <;> simp <;> omega

theorem bitsNat_replicate_false (n : Nat) : bitsNat (List.replicate n false) = 0 := by
  induction n with
  | zero => rfl
  | succ n ih => simp [List.replicate_succ, bitsNat_cons, ih]

/-- Reading back the bits of a number gives its low bits. -/
theorem bitsNat_lowBits (n v : Nat) : bitsNat (lowBits n v) = v % 2 ^ n := by
  induction n with
  | zero => simp [Nat.mod_one]
  | succ n ih =>
    rw [lowBits_succ, bitsNat_cons, lowBits_length, ih, pow_succ, Nat.mod_mul, Nat.testBit_eq_decide_div_mod_eq]
    rcases Nat.mod_two_eq_zero_or_one (v / 2 ^ n) with h | h <;> (simp [h]; try omega)

theorem bitsNat_byteBits (b : Byte) : bitsNat (byteBits b) = b.toNat := by
  rw [byteBits, bitsNat_lowBits]
  exact Nat.mod_eq_of_lt b.isLt

/-- A number's bits depend on its low bits only. -/
theorem lowBits_mod (n m v : Nat) (h : n ≤ m) : lowBits n (v % 2 ^ m) = lowBits n v := by
  induction n with
  | zero => rfl
  | succ n ih =>
    rw [lowBits_succ, lowBits_succ, ih (by omega), Nat.testBit_mod_two_pow]
    simp; omega

theorem lowBits_add (m n v : Nat) : lowBits (m + n) v = lowBits m (v / 2 ^ n) ++ lowBits n v := by
  induction m with
  | zero => simp
  | succ m ih =>
    rw [show m + 1 + n = m + n + 1 by omega, lowBits_succ, lowBits_succ, ih, Nat.testBit_div_two_pow]
    rfl

/-- Two bit sequences of one length that are the same number are the same sequence. -/
theorem bitsNat_inj {l m : List Bool} (hl : l.length = m.length) (h : bitsNat l = bitsNat m) : l = m := by
  induction l generalizing m with
  | nil => cases m with
    | nil => rfl
    | cons => simp at hl
  | cons a l ih => cases m with
    | nil => simp at hl
    | cons b m =>
      simp only [List.length_cons, Nat.add_right_cancel_iff] at hl
      rw [bitsNat_cons, bitsNat_cons, hl] at h
      have h1 := bitsNat_lt l
      have h2 := bitsNat_lt m
      rw [hl] at h1
      cases a <;> cases b <;> simp at h ⊢
      · exact ih hl h
      · omega
      · omega
      · exact ih hl h

theorem lowBits_zero_value (n : Nat) : lowBits n 0 = List.replicate n false :=
  bitsNat_inj (by simp) (by rw [bitsNat_lowBits, bitsNat_replicate_false]; simp)

end Sys2Proof.Machine
end

