-- ==== Sys2Proof/Laws/State.lean ====
section
/-! SUPPORT. One lemma for each field of the state after each update of it, so that no later proof unfolds a record update. -/

namespace Sys2Proof.Machine

variable (s : State)

@[simp] theorem State.setStream_bs (t : Stream) : (s.setStream t).bs = t.bs := rfl
@[simp] theorem State.setStream_ctx (t : Stream) : (s.setStream t).ctx = s.ctx := rfl
@[simp] theorem State.setStream_ac (t : Stream) : (s.setStream t).ac = s.ac := rfl
@[simp] theorem State.setStream_chan (t : Stream) : (s.setStream t).chan = t.chan := rfl
@[simp] theorem State.setStream_host (t : Stream) : (s.setStream t).host = s.host := rfl
@[simp] theorem State.setStream_resp (t : Stream) : (s.setStream t).resp = s.resp := rfl

@[simp] theorem State.setEngine_bs (e : Engine) : (s.setEngine e).bs = e.stream.bs := rfl
@[simp] theorem State.setEngine_ctx (e : Engine) : (s.setEngine e).ctx = s.ctx := rfl
@[simp] theorem State.setEngine_ac (e : Engine) : (s.setEngine e).ac = e.ac := rfl
@[simp] theorem State.setEngine_chan (e : Engine) : (s.setEngine e).chan = e.stream.chan := rfl
@[simp] theorem State.setEngine_host (e : Engine) : (s.setEngine e).host = s.host := rfl
@[simp] theorem State.setEngine_resp (e : Engine) : (s.setEngine e).resp = s.resp := rfl

@[simp] theorem State.putCtx_bs (c : Nat) (x : Context) : (s.putCtx c x).bs = s.bs := rfl
@[simp] theorem State.putCtx_ctx (c : Nat) (x : Context) : (s.putCtx c x).ctx = s.ctx.set c x := rfl
@[simp] theorem State.putCtx_ac (c : Nat) (x : Context) : (s.putCtx c x).ac = s.ac := rfl
@[simp] theorem State.putCtx_chan (c : Nat) (x : Context) : (s.putCtx c x).chan = s.chan := rfl
@[simp] theorem State.putCtx_host (c : Nat) (x : Context) : (s.putCtx c x).host = s.host := rfl
@[simp] theorem State.putCtx_resp (c : Nat) (x : Context) : (s.putCtx c x).resp = s.resp := rfl

@[simp] theorem State.answer_bs (st : Status) (v : BitVec 32) : (s.answer st v).bs = s.bs := rfl
@[simp] theorem State.answer_ctx (st : Status) (v : BitVec 32) : (s.answer st v).ctx = s.ctx := rfl
@[simp] theorem State.answer_ac (st : Status) (v : BitVec 32) : (s.answer st v).ac = s.ac := rfl
@[simp] theorem State.answer_chan (st : Status) (v : BitVec 32) : (s.answer st v).chan = s.chan := rfl
@[simp] theorem State.answer_host (st : Status) (v : BitVec 32) : (s.answer st v).host = s.host := rfl
@[simp] theorem State.answer_resp (st : Status) (v : BitVec 32) : (s.answer st v).resp = some ⟨st, v⟩ := rfl

@[simp] theorem State.dropBits_bs : s.dropBits.bs = { s.bs with count := 0 } := rfl
@[simp] theorem State.dropBits_ctx : s.dropBits.ctx = s.ctx := rfl
@[simp] theorem State.dropBits_ac : s.dropBits.ac = s.ac := rfl
@[simp] theorem State.dropBits_chan : s.dropBits.chan = s.chan := rfl
@[simp] theorem State.dropBits_host : s.dropBits.host = s.host := rfl
@[simp] theorem State.dropBits_resp : s.dropBits.resp = s.resp := rfl

@[simp] theorem State.unbind_bs : s.unbind.bs = .reset := rfl
@[simp] theorem State.unbind_ctx : s.unbind.ctx = s.ctx := rfl
@[simp] theorem State.unbind_ac : s.unbind.ac = s.ac := rfl
@[simp] theorem State.unbind_chan : s.unbind.chan = s.chan := rfl
@[simp] theorem State.unbind_host : s.unbind.host = s.host := rfl
@[simp] theorem State.unbind_resp : s.unbind.resp = s.resp := rfl

@[simp] theorem State.terminate_bs : s.terminate.bs = s.bs := rfl
@[simp] theorem State.terminate_ctx : s.terminate.ctx = s.ctx := rfl
@[simp] theorem State.terminate_ac : s.terminate.ac = { s.ac with state := .terminated } := rfl
@[simp] theorem State.terminate_chan : s.terminate.chan = s.chan := rfl
@[simp] theorem State.terminate_host : s.terminate.host = s.host := rfl
@[simp] theorem State.terminate_resp : s.terminate.resp = s.resp := rfl

@[simp] theorem State.openDecoder_bs : s.openDecoder.bs = s.bs := rfl
@[simp] theorem State.openDecoder_ctx : s.openDecoder.ctx = s.ctx := rfl
@[simp] theorem State.openDecoder_ac : s.openDecoder.ac = { s.ac with role := .dec, low := 0, high := 0xFFFFFFFF, code := 0, state := .started } := rfl
@[simp] theorem State.openDecoder_chan : s.openDecoder.chan = s.chan := rfl
@[simp] theorem State.openDecoder_host : s.openDecoder.host = s.host := rfl
@[simp] theorem State.openDecoder_resp : s.openDecoder.resp = s.resp := rfl

@[simp] theorem State.supplyChannel_bs (input : List Byte) (draws : List Bool) : (s.supplyChannel input draws).bs = s.bs := rfl
@[simp] theorem State.supplyChannel_ctx (input : List Byte) (draws : List Bool) : (s.supplyChannel input draws).ctx = s.ctx := rfl
@[simp] theorem State.supplyChannel_ac (input : List Byte) (draws : List Bool) : (s.supplyChannel input draws).ac = s.ac := rfl
@[simp] theorem State.supplyChannel_chan (input : List Byte) (draws : List Bool) : (s.supplyChannel input draws).chan = ⟨input, 0, [], draws, s.chan.drawn⟩ := rfl
@[simp] theorem State.supplyChannel_host (input : List Byte) (draws : List Bool) : (s.supplyChannel input draws).host = s.host := rfl
@[simp] theorem State.supplyChannel_resp (input : List Byte) (draws : List Bool) : (s.supplyChannel input draws).resp = s.resp := rfl

@[simp] theorem State.externalReset_bs : s.externalReset.bs = .reset := rfl
@[simp] theorem State.externalReset_ctx : s.externalReset.ctx = s.ctx.map fun _ => Context.reset := rfl
@[simp] theorem State.externalReset_ac : s.externalReset.ac = .reset := rfl
@[simp] theorem State.externalReset_chan : s.externalReset.chan = s.chan := rfl
@[simp] theorem State.externalReset_host : s.externalReset.host = s.host := rfl
@[simp] theorem State.externalReset_resp : s.externalReset.resp = s.resp := rfl

@[simp] theorem State.stream_bs : s.stream.bs = s.bs := rfl
@[simp] theorem State.stream_chan : s.stream.chan = s.chan := rfl
@[simp] theorem State.engine_ac : s.engine.ac = s.ac := rfl
@[simp] theorem State.engine_stream : s.engine.stream = s.stream := rfl
@[simp] theorem State.setStream_stream (t : Stream) : (s.setStream t).stream = t := rfl
@[simp] theorem State.setEngine_engine (e : Engine) : (s.setEngine e).engine = e := rfl
@[simp] theorem State.setEngine_stream (e : Engine) : (s.setEngine e).stream = e.stream := rfl
@[simp] theorem State.setStream_self : s.setStream s.stream = s := rfl
@[simp] theorem State.setEngine_self : s.setEngine s.engine = s := rfl
@[simp] theorem State.putCtx_stream (c : Nat) (x : Context) : (s.putCtx c x).stream = s.stream := rfl
@[simp] theorem State.putCtx_engine (c : Nat) (x : Context) : (s.putCtx c x).engine = s.engine := rfl
@[simp] theorem State.answer_stream (st : Status) (v : BitVec 32) : (s.answer st v).stream = s.stream := rfl
@[simp] theorem State.answer_engine (st : Status) (v : BitVec 32) : (s.answer st v).engine = s.engine := rfl

/-! ## The procedures' own pieces -/

@[simp] theorem Channel.drawOne_input (ch : Channel) : ch.drawOne.input = ch.input := rfl
@[simp] theorem Channel.drawOne_inpos (ch : Channel) : ch.drawOne.inpos = ch.inpos := rfl
@[simp] theorem Channel.drawOne_output (ch : Channel) : ch.drawOne.output = ch.output := rfl
@[simp] theorem Channel.drawOne_draws (ch : Channel) : ch.drawOne.draws = ch.draws.tail := rfl
@[simp] theorem Channel.drawOne_drawn (ch : Channel) : ch.drawOne.drawn = ch.drawn + 1 := rfl

@[simp] theorem stepCount_bs (t : Stream) : (stepCount t).bs = { t.bs with count := t.bs.count - 1 } := rfl
@[simp] theorem stepCount_chan (t : Stream) : (stepCount t).chan = t.chan := rfl

@[simp] theorem Coder.select_state (a : Coder) (r0 : Nat) (bit : Bool) : (a.select r0 bit).state = a.state := by
  cases bit <;> rfl
@[simp] theorem Coder.select_role (a : Coder) (r0 : Nat) (bit : Bool) : (a.select r0 bit).role = a.role := by
  cases bit <;> rfl
@[simp] theorem Coder.select_code (a : Coder) (r0 : Nat) (bit : Bool) : (a.select r0 bit).code = a.code := by
  cases bit <;> rfl
@[simp] theorem Coder.select_cache (a : Coder) (r0 : Nat) (bit : Bool) : (a.select r0 bit).cache = a.cache := by
  cases bit <;> rfl
@[simp] theorem Coder.select_cacheValid (a : Coder) (r0 : Nat) (bit : Bool) :
    (a.select r0 bit).cacheValid = a.cacheValid := by
  cases bit <;> rfl
@[simp] theorem Coder.select_pending (a : Coder) (r0 : Nat) (bit : Bool) : (a.select r0 bit).pending = a.pending := by
  cases bit <;> rfl

@[simp] theorem Coder.shift_state (a : Coder) : a.shift.state = a.state := rfl
@[simp] theorem Coder.shift_role (a : Coder) : a.shift.role = a.role := rfl
@[simp] theorem Coder.shift_code (a : Coder) : a.shift.code = a.code := rfl
@[simp] theorem Coder.shift_cache (a : Coder) : a.shift.cache = a.cache := rfl
@[simp] theorem Coder.shift_cacheValid (a : Coder) : a.shift.cacheValid = a.cacheValid := rfl
@[simp] theorem Coder.shift_pending (a : Coder) : a.shift.pending = a.pending := rfl
@[simp] theorem Coder.shift_low (a : Coder) : a.shift.low = a.shiftedLow := rfl

@[simp] theorem Coder.pushCode_state (a : Coder) (b : Nat) : (a.pushCode b).state = a.state := rfl
@[simp] theorem Coder.pushCode_role (a : Coder) (b : Nat) : (a.pushCode b).role = a.role := rfl
@[simp] theorem Coder.pushCode_low (a : Coder) (b : Nat) : (a.pushCode b).low = a.low := rfl
@[simp] theorem Coder.pushCode_high (a : Coder) (b : Nat) : (a.pushCode b).high = a.high := rfl
@[simp] theorem Coder.pushCode_cache (a : Coder) (b : Nat) : (a.pushCode b).cache = a.cache := rfl
@[simp] theorem Coder.pushCode_cacheValid (a : Coder) (b : Nat) : (a.pushCode b).cacheValid = a.cacheValid := rfl
@[simp] theorem Coder.pushCode_pending (a : Coder) (b : Nat) : (a.pushCode b).pending = a.pending := rfl
@[simp] theorem Coder.pushCode_range (a : Coder) (b : Nat) : (a.pushCode b).range = a.range := rfl

@[simp] theorem Context.update_maxf (x : Context) (bit : Bool) : (x.update bit).maxf = x.maxf := by
  unfold Context.update; split <;> rfl
@[simp] theorem Context.update_adapt (x : Context) (bit : Bool) : (x.update bit).adapt = x.adapt := by
  unfold Context.update; split <;> rfl

@[simp] theorem State.withFetchWord_host (nbits w : Nat) :
    (s.withFetchWord nbits w).host = .request (cmdWord nbits w) (dataWord nbits w) :: s.host := rfl

/-! ## The end of a command -/

@[simp] theorem require_true (st : Status) (k : Result) : require true st s k = k := rfl
@[simp] theorem require_false (st : Status) (k : Result) : require false st s k = raise st s := rfl
@[simp] theorem unlessFaulted_none (k : Result) (h : s.bs.err = none) : unlessFaulted s k = k := by
  simp [unlessFaulted, h]
@[simp] theorem unlessErr_none (k : Result) (h : s.bs.err = none) : unlessErr s k = k := by
  simp [unlessErr, h]

end Sys2Proof.Machine
end

