-- ==== Sys2Proof/Laws/Channel.lean ====
section
/-! SUPPORT. What the channel primitives can do (20_memory.md R63, R64). -/

namespace Sys2Proof.Machine

variable (ch : Channel)

theorem Channel.drawAt_zero : ch.drawAt 0 = ch.nextDraw := by
  unfold Channel.drawAt Channel.nextDraw
  cases ch.draws <;> rfl

theorem Channel.drawAt_drawOne (k : Nat) : ch.drawOne.drawAt k = ch.drawAt (k + 1) := by
  unfold Channel.drawAt
  cases h : ch.draws <;> simp [h, Nat.add_assoc, Nat.add_comm 1 k]

/-- A draw does not look at the contents, the position or the output. -/
@[simp] theorem Channel.drawAt_with (input output : List Byte) (inpos k : Nat) :
    Channel.drawAt { ch with input := input, inpos := inpos, output := output } k = ch.drawAt k := rfl

@[simp] theorem Channel.nextDraw_with (input output : List Byte) (inpos : Nat) :
    Channel.nextDraw { ch with input := input, inpos := inpos, output := output } = ch.nextDraw := rfl

@[simp] theorem Channel.Reliable_with (input output : List Byte) (inpos n : Nat) :
    Channel.Reliable { ch with input := input, inpos := inpos, output := output } n ↔ ch.Reliable n := Iff.rfl

theorem Channel.Reliable_mono {m n : Nat} (h : m ≤ n) (hr : ch.Reliable n) : ch.Reliable m :=
  fun k hk => hr k (by omega)

theorem Channel.Reliable_succ (n : Nat) : ch.Reliable (n + 1) ↔ ch.nextDraw = false ∧ ch.drawOne.Reliable n := by
  constructor
  · intro h
    exact ⟨ch.drawAt_zero ▸ h 0 (by omega), fun k hk => (ch.drawAt_drawOne k).trans (h (k + 1) (by omega))⟩
  · rintro ⟨h0, h⟩ k hk
    cases k with
    | zero => exact ch.drawAt_zero.trans h0
    | succ k => exact (ch.drawAt_drawOne k).symm.trans (h k (by omega))

/-- Reliable for no transfer says nothing. -/
@[simp] theorem Channel.Reliable_zero : ch.Reliable 0 := fun k hk => absurd hk (by omega)

/-- The first transfer to fail is one: two descriptions of it agree. -/
theorem Channel.first_failure {j k : Nat} (hj : ch.Reliable j) (fj : ch.drawAt j = true) (hk : ch.Reliable k)
    (fk : ch.drawAt k = true) : j = k := by
  rcases Nat.lt_trichotomy j k with h | h | h
  · rw [hk j h] at fj; cases fj
  · exact h
  · rw [hj k h] at fk; cases fk

/-- All ChanRead can do (R63). -/
theorem chanRead_cases :
    (ch.nextDraw = true ∧ chanRead ch = .raised .ioFailure ch.drawOne) ∨
      (ch.nextDraw = false ∧ ch.input[ch.inpos]? = none ∧ chanRead ch = .raised .ioExhausted ch.drawOne) ∨
      (ch.nextDraw = false ∧ ∃ b, ch.input[ch.inpos]? = some b ∧
        chanRead ch = .done b { ch.drawOne with inpos := ch.inpos + 1 }) := by
  unfold chanRead
  cases hd : ch.nextDraw
  · cases hb : ch.input[ch.inpos]? <;> simp
  · simp

/-- All ChanWrite can do (R64). -/
theorem chanWrite_cases (b : Byte) :
    (ch.nextDraw = true ∧ chanWrite b ch = .raised .ioFailure ch.drawOne) ∨
      (ch.nextDraw = false ∧ chanWrite b ch = .done () { ch.drawOne with output := ch.output ++ [b] }) := by
  unfold chanWrite
  cases hd : ch.nextDraw <;> simp

end Sys2Proof.Machine
end

