-- ==== Sys2Proof/Laws/Reader.lean ====
section
/-! SUPPORT. What PreCheck and GetBits can do (40_bitstream.md R120, R121), in terms of the unread bits. -/

namespace Sys2Proof.Machine

@[simp] theorem Run.andThen_done {σ α β : Type} (a : α) (s : σ) (k : α → σ → Run σ β) :
    (Run.done a s).andThen k = k a s := rfl

@[simp] theorem Run.andThen_raised {σ α β : Type} (x : StreamErr) (s : σ) (k : α → σ → Run σ β) :
    (Run.raised x s : Run σ α).andThen k = .raised x s := rfl

/-- A sequence that ends with a value had a value before. -/
theorem Run.andThen_eq_done {σ α β : Type} {r : Run σ α} {k : α → σ → Run σ β} {b : β} {u : σ}
    (h : r.andThen k = .done b u) : ∃ a s, r = .done a s ∧ k a s = .done b u := by
  cases r with
  | done a s => exact ⟨a, s, rfl, h⟩
  | raised x s => cases h

/-- A sequence that raises raised before, or after a value. -/
theorem Run.andThen_eq_raised {σ α β : Type} {r : Run σ α} {k : α → σ → Run σ β} {x : StreamErr} {u : σ}
    (h : r.andThen k = .raised x u) : r = .raised x u ∨ ∃ a s, r = .done a s ∧ k a s = .raised x u := by
  cases r with
  | done a s => exact .inr ⟨a, s, rfl, h⟩
  | raised y s => exact .inl (by simpa using h)

/-! ## PreCheck and the limit -/

/-- All PreCheck can do (R120): the stored error, a sticky LimitExceeded, or nothing. -/
theorem preCheck_cases (n : Nat) (t : Stream) :
    (∃ x, t.bs.err = some x ∧ preCheck n t = .raised x t) ∨
      (t.bs.err = none ∧ t.bs.limitEn = true ∧ t.bs.limit.toNat < n ∧
        preCheck n t = .raised .limitExceeded { t with bs := { t.bs with err := some .limitExceeded } }) ∨
      (t.bs.err = none ∧ (t.bs.limitEn = true → n ≤ t.bs.limit.toNat) ∧ preCheck n t = .done () t) := by
  unfold preCheck
  cases he : t.bs.err with
  | some x => exact .inl ⟨x, rfl, rfl⟩
  | none =>
    right
    cases hl : t.bs.limitEn
    · exact .inr ⟨rfl, by simp, by simp⟩
    · by_cases hn : t.bs.limit.toNat < n
      · exact .inl ⟨rfl, rfl, hn, by simp [hn, Stream.fail]⟩
      · exact .inr ⟨rfl, fun _ => by omega, by simp [hn]⟩

theorem preCheck_ok {n : Nat} {t : Stream} (he : t.bs.err = none) (hl : t.bs.limitEn = true → n ≤ t.bs.limit.toNat) :
    preCheck n t = .done () t := by
  rcases preCheck_cases n t with ⟨x, h, -⟩ | ⟨-, h, h', -⟩ | ⟨-, -, h⟩
  · rw [he] at h; cases h
  · exact absurd (hl h) (by omega)
  · exact h

/-- Charging LIMIT changes LIMIT only (R121, R122). -/
theorem chargeLimit_eq (n : Nat) (t : Stream) :
    chargeLimit n t = { t with bs := { t.bs with limit := (chargeLimit n t).bs.limit } } := by
  unfold chargeLimit; split <;> rfl

theorem chargeLimit_limit (n : Nat) (t : Stream) :
    (chargeLimit n t).bs.limit.toNat = if t.bs.limitEn then t.bs.limit.toNat - n else t.bs.limit.toNat := by
  unfold chargeLimit
  cases t.bs.limitEn
  · rfl
  · have := t.bs.limit.isLt
    simp only [if_true, BitVec.toNat_ofNat]
    exact Nat.mod_eq_of_lt (by omega)

@[simp] theorem chargeLimit_chan (n : Nat) (t : Stream) : (chargeLimit n t).chan = t.chan := by
  rw [chargeLimit_eq]

@[simp] theorem chargeLimit_unread (n : Nat) (t : Stream) : (chargeLimit n t).unread = t.unread := by
  rw [chargeLimit_eq]; rfl

@[simp] theorem chargeLimit_written (n : Nat) (t : Stream) : (chargeLimit n t).written = t.written := by
  rw [chargeLimit_eq]; rfl

/-! ## One bit -/

theorem count_step {t : Stream} (h : 1 ≤ t.bs.count.toNat) :
    (t.bs.count - 1).toNat = t.bs.count.toNat - 1 := by
  have := t.bs.count.isLt
  rw [BitVec.toNat_sub]
  show (2 ^ 4 - 1 + t.bs.count.toNat) % 2 ^ 4 = _
  omega

theorem count_ne_zero {t : Stream} (h : 1 ≤ t.bs.count.toNat) : t.bs.count ≠ 0 := fun e => by simp [e] at h

theorem count_pos {t : Stream} (h : t.bs.count ≠ 0) : 1 ≤ t.bs.count.toNat := by
  rcases Nat.eq_zero_or_pos t.bs.count.toNat with e | e
  · exact absurd (BitVec.eq_of_toNat_eq (by simpa using e)) h
  · exact e

/-- With a bit left in BUF, the next unread bit is BUF[COUNT-1] (R121). -/
theorem unread_step {t : Stream} (h : 1 ≤ t.bs.count.toNat) : t.unread = nextBit t :: (stepCount t).unread := by
  unfold Stream.unread nextBit
  simp only [stepCount_bs, stepCount_chan, count_step h]
  obtain ⟨k, hk⟩ : ∃ k, t.bs.count.toNat = k + 1 := ⟨t.bs.count.toNat - 1, by omega⟩
  rw [hk, lowBits_succ]
  rfl

theorem refill_pos {t : Stream} (h : 1 ≤ t.bs.count.toNat) : refill t = .done () t := by
  rw [refill, if_neg (count_ne_zero h)]

/-- All a refill of an empty BUF can do (R121). -/
theorem refill_empty {t : Stream} (h : t.bs.count = 0) :
    (t.chan.nextDraw = true ∧
        refill t = .raised .ioFailure ⟨{ t.bs with err := some .ioFailure }, t.chan.drawOne⟩) ∨
      (t.chan.nextDraw = false ∧ t.chan.input[t.chan.inpos]? = none ∧
        refill t = .raised .ioExhausted ⟨{ t.bs with err := some .ioExhausted }, t.chan.drawOne⟩) ∨
      (t.chan.nextDraw = false ∧ ∃ b, t.chan.input[t.chan.inpos]? = some b ∧
        refill t = .done () ⟨{ t.bs with buf := b, count := 8 }, { t.chan.drawOne with inpos := t.chan.inpos + 1 }⟩) := by
  unfold refill
  rw [if_pos h]
  rcases chanRead_cases t.chan with ⟨hd, e⟩ | ⟨hd, hb, e⟩ | ⟨hd, b, hb, e⟩ <;> rw [e]
  · exact .inl ⟨hd, rfl⟩
  · exact .inr (.inl ⟨hd, hb, rfl⟩)
  · exact .inr (.inr ⟨hd, b, hb, rfl⟩)

/-- A refill moves no bit: the unread bits stay the same. -/
theorem unread_refill {t : Stream} {b : Byte} (h : t.bs.count = 0) (hb : t.chan.input[t.chan.inpos]? = some b) :
    Stream.unread ⟨{ t.bs with buf := b, count := 8 }, { t.chan.drawOne with inpos := t.chan.inpos + 1 }⟩ = t.unread := by
  obtain ⟨hlt, hb⟩ := List.getElem?_eq_some_iff.mp hb
  unfold Stream.unread
  rw [h, List.drop_eq_getElem_cons hlt, hb, List.flatMap_cons]
  rfl

theorem unread_at_end {t : Stream} (h : t.bs.count = 0) (hb : t.chan.input[t.chan.inpos]? = none) : t.unread = [] := by
  unfold Stream.unread
  rw [h, List.drop_eq_nil_of_le (List.getElem?_eq_none_iff.mp hb)]
  rfl

/-! ## The loop of GetBits -/

/-- The channel transfers of a get of `n` bits (R147): none while BUF has them, then one for each eight. -/
abbrev getBytes (n : Nat) (t : Stream) : Nat := (n + 7 - t.bs.count.toNat) / 8

/-- What a get of `n` bits leaves, where it succeeds: the cursor moved by `n` bits, nothing else changed. -/
structure Got (n : Nat) (t u : Stream) : Prop where
  enough : n ≤ t.unread.length
  unread : u.unread = t.unread.drop n
  inpos : u.chan.inpos = t.chan.inpos + getBytes n t
  drawn : u.chan.drawn = t.chan.drawn + getBytes n t
  draws : ∀ k, u.chan.drawAt k = t.chan.drawAt (getBytes n t + k)
  count : u.bs.count.toNat = t.bs.count.toNat + 8 * getBytes n t - n
  bs : u.bs = { t.bs with buf := u.bs.buf, count := u.bs.count }
  chan : u.chan = { t.chan with inpos := u.chan.inpos, draws := u.chan.draws, drawn := u.chan.drawn }

/-- What a get of `n` bits leaves, where a ChanRead fails: the bits taken are lost, COUNT is 0 and ERR holds the kind. -/
structure GotErr (n : Nat) (t : Stream) (x : StreamErr) (u : Stream) : Prop where
  kind : x = .ioExhausted ∨ x = .ioFailure
  short : x = .ioExhausted → t.unread.length < n
  inpos : t.chan.inpos ≤ u.chan.inpos
  at_end : x = .ioExhausted → t.chan.inpos ≤ t.chan.input.length → u.chan.inpos = t.chan.input.length
  inside : t.chan.inpos ≤ t.chan.input.length → u.chan.inpos ≤ t.chan.input.length
  drawn : t.chan.drawn ≤ u.chan.drawn ∧ u.chan.drawn ≤ t.chan.drawn + getBytes n t
  failed : x = .ioFailure → ∃ k < getBytes n t, u.chan.inpos = t.chan.inpos + k ∧ t.chan.drawAt k = true
  bs : u.bs = { t.bs with buf := u.bs.buf, count := 0, err := some x }
  chan : u.chan = { t.chan with inpos := u.chan.inpos, draws := u.chan.draws, drawn := u.chan.drawn }

/-- All the loop of GetBits can do (R121). -/
theorem getLoop_ends (n v : Nat) (t : Stream) (hc : t.bs.count.toNat ≤ 8) :
    (∃ u, getLoop n v t = .done (v * 2 ^ n + bitsNat (t.unread.take n)) u ∧ Got n t u) ∨
      (∃ x u, getLoop n v t = .raised x u ∧ GotErr n t x u) := by
  induction n generalizing v t with
  | zero =>
    have h0 : getBytes 0 t = 0 := by simp only [getBytes]; omega
    refine .inl ⟨t, by simp [getLoop], ⟨by omega, rfl, ?_, ?_, ?_, ?_, rfl, rfl⟩⟩ <;> simp [h0]
  | succ n ih =>
    -- one bit taken from a stream whose BUF holds one
    have one (t : Stream) (h1 : 1 ≤ t.bs.count.toNat) (h8 : t.bs.count.toNat ≤ 8) (v : Nat) :
        (∃ u, getLoop n (2 * v + (nextBit t).toNat) (stepCount t) =
            .done (v * 2 ^ (n + 1) + bitsNat (t.unread.take (n + 1))) u ∧ Got (n + 1) t u) ∨
          (∃ x u, getLoop n (2 * v + (nextBit t).toNat) (stepCount t) = .raised x u ∧ GotErr (n + 1) t x u) := by
      have hs : (stepCount t).bs.count.toNat = t.bs.count.toNat - 1 := count_step h1
      have hb : getBytes n (stepCount t) = getBytes (n + 1) t := by simp only [getBytes, hs]; congr 1; omega
      rcases ih (2 * v + (nextBit t).toNat) (stepCount t) (by omega) with ⟨u, e, g⟩ | ⟨x, u, e, g⟩
      · refine .inl ⟨u, ?_, ?_⟩
        · rw [e, unread_step h1, List.take_succ_cons, bitsNat_cons, List.length_take, Nat.min_eq_left g.enough, pow_succ]
          congr 1; ring
        · refine ⟨?_, ?_, ?_, ?_, ?_, ?_, ?_, ?_⟩
          · rw [unread_step h1]; simpa using g.enough
          · rw [unread_step h1]; simpa using g.unread
          · rw [g.inpos, hb]; rfl
          · rw [g.drawn, hb]; rfl
          · intro k; rw [g.draws, hb]; rfl
          · rw [g.count, hb, hs]; omega
          · rw [g.bs]; rfl
          · exact g.chan
      · refine .inr ⟨x, u, e, g.kind, ?_, g.inpos, g.at_end, g.inside, ?_, ?_, ?_, g.chan⟩
        · intro hx; rw [unread_step h1]; simpa using g.short hx
        · have := g.drawn; rw [hb] at this; exact this
        · have := g.failed; rw [hb] at this; exact this
        · rw [g.bs]; rfl
    rw [getLoop]
    by_cases h0 : t.bs.count = 0
    · have hb0 : getBytes (n + 1) t = n / 8 + 1 := by simp only [getBytes, h0]; show (n + 1 + 7 - 0) / 8 = _; omega
      rcases refill_empty h0 with ⟨hd, e⟩ | ⟨hd, hb, e⟩ | ⟨hd, b, hb, e⟩
      · rw [e]
        refine .inr ⟨_, _, rfl, .inr rfl, by simp, ?_, by simp, fun h => h, ?_, fun _ => ⟨0, by omega, rfl, ?_⟩, ?_, rfl⟩
        · exact Nat.le_refl _
        · rw [hb0]; simp
        · exact t.chan.drawAt_zero.trans hd
        · simp [h0]
      · rw [e]
        refine .inr ⟨_, _, rfl, .inl rfl, fun _ => ?_, Nat.le_refl _, fun _ h => ?_, fun h => h, ?_, by simp, ?_, rfl⟩
        · rw [unread_at_end h0 hb]; simp
        · have := List.getElem?_eq_none_iff.mp hb
          exact Nat.le_antisymm h this
        · rw [hb0]; simp
        · simp [h0]
      · rw [e, Run.andThen_done]
        have hr := unread_refill h0 hb
        have hlt := (List.getElem?_eq_some_iff.mp hb).1
        have c0 : t.bs.count.toNat = 0 := by rw [h0]; rfl
        obtain ⟨t', ht'⟩ : ∃ t' : Stream,
            t' = ⟨{ t.bs with buf := b, count := 8 }, { t.chan.drawOne with inpos := t.chan.inpos + 1 }⟩ := ⟨_, rfl⟩
        rw [← ht'] at hr ⊢
        have c8 : t'.bs.count.toNat = 8 := by rw [ht']; rfl
        have hdr : t'.chan.drawn = t.chan.drawn + 1 := by rw [ht']; rfl
        have hds (k : Nat) : t'.chan.drawAt k = t.chan.drawOne.drawAt k := by rw [ht']; rfl
        have hb' : getBytes (n + 1) t = getBytes (n + 1) t' + 1 := by rw [hb0]; simp only [getBytes, c8]; omega
        rcases one t' (by omega) (by omega) v with ⟨u, e, g⟩ | ⟨x, u, e, g⟩
        · refine .inl ⟨u, by rw [e, hr], by rw [← hr]; exact g.enough, by rw [g.unread, hr], ?_, ?_, ?_, ?_, ?_, ?_⟩
          · rw [g.inpos, hb', ht']; simp only; omega
          · rw [g.drawn, hb', ht']; simp only [Channel.drawOne_drawn]; omega
          · intro k
            rw [g.draws, hb', show getBytes (n + 1) t' + 1 + k = getBytes (n + 1) t' + k + 1 by omega,
              ← t.chan.drawAt_drawOne, hds]
          · rw [g.count, hb', c8, c0]; omega
          · rw [g.bs, ht']
          · rw [g.chan, ht']; rfl
        · refine .inr ⟨x, u, e, g.kind, fun hx => by rw [← hr]; exact g.short hx, ?_, fun hx _ => ?_, fun _ => ?_, ?_, fun hx => ?_, ?_, ?_⟩
          · have := g.inpos; rw [ht'] at this; simp only at this; omega
          · have := g.at_end hx (by rw [ht']; exact hlt); rw [this, ht']; rfl
          · have := g.inside (by rw [ht']; exact hlt); rw [ht'] at this; exact this
          · have := g.drawn; omega
          · obtain ⟨k, hk, hp, hf⟩ := g.failed hx
            refine ⟨k + 1, by omega, ?_, ?_⟩
            · rw [hp, ht']; simp only; omega
            · rw [ht'] at hf; exact (t.chan.drawAt_drawOne k).symm.trans hf
          · rw [g.bs, ht']
          · rw [g.chan, ht']; rfl
    · rw [refill_pos (count_pos h0), Run.andThen_done]
      exact one t (count_pos h0) hc v

/-- With the bits there and no failing draw, the loop succeeds. -/
theorem getLoop_done {n : Nat} (v : Nat) {t : Stream} (hc : t.bs.count.toNat ≤ 8) (hn : n ≤ t.unread.length)
    (hr : t.chan.Reliable (getBytes n t)) :
    ∃ u, getLoop n v t = .done (v * 2 ^ n + bitsNat (t.unread.take n)) u ∧ Got n t u := by
  rcases getLoop_ends n v t hc with h | ⟨x, u, -, g⟩
  · exact h
  · rcases g.kind with hx | hx
    · exact absurd (g.short hx) (by omega)
    · obtain ⟨k, hk, -, hf⟩ := g.failed hx
      rw [hr k hk] at hf; cases hf

/-- Past the end of the input, with no failing draw, the loop ends in IoExhausted. -/
theorem getLoop_exhausted {n : Nat} (v : Nat) {t : Stream} (hc : t.bs.count.toNat ≤ 8) (hw : t.chan.Wf)
    (hn : t.unread.length < n) (hr : t.chan.Reliable (t.chan.input.length - t.chan.inpos + 1)) :
    ∃ u, getLoop n v t = .raised .ioExhausted u ∧ GotErr n t .ioExhausted u := by
  rcases getLoop_ends n v t hc with ⟨u, -, g⟩ | ⟨x, u, e, g⟩
  · exact absurd g.enough (by omega)
  · rcases g.kind with rfl | hx
    · exact ⟨u, e, g⟩
    · obtain ⟨k, -, hp, hf⟩ := g.failed hx
      have := g.inside hw
      rw [hr k (by omega)] at hf; cases hf

/-- A stream whose ChanRead failed after `j` more bytes were read (R121): COUNT is 0, BUF is the last byte read, ERR holds
IoFailure, and the draws made are used up. -/
abbrev Stream.readFailed (t : Stream) (j : Nat) : Stream where
  bs := { t.bs with
    buf := ((t.chan.input.drop t.chan.inpos).take j).getLast?.getD t.bs.buf, count := 0, err := some .ioFailure }
  chan := { t.chan with
    inpos := t.chan.inpos + j, draws := t.chan.draws.drop (j + 1), drawn := t.chan.drawn + (j + 1) }

/-- Where transfer `j` of the loop is the first to fail, and the bytes before it are there, exactly these are read (R121). -/
theorem getLoop_failed {n j : Nat} (v : Nat) {t : Stream} (hc : t.bs.count.toNat ≤ 8) (hj : j < getBytes n t)
    (hi : j ≤ t.chan.input.length - t.chan.inpos) (hr : t.chan.Reliable j) (hd : t.chan.drawAt j = true) :
    getLoop n v t = .raised .ioFailure (t.readFailed j) := by
  induction n generalizing v j t with
  | zero => simp only [getBytes] at hj; omega
  | succ n ih =>
    have one {j : Nat} (v : Nat) {t : Stream} (h1 : 1 ≤ t.bs.count.toNat) (h8 : t.bs.count.toNat ≤ 8)
        (hj : j < getBytes (n + 1) t) (hi : j ≤ t.chan.input.length - t.chan.inpos) (hr : t.chan.Reliable j)
        (hd : t.chan.drawAt j = true) : getLoop n v (stepCount t) = .raised .ioFailure (t.readFailed j) := by
      have hs : (stepCount t).bs.count.toNat = t.bs.count.toNat - 1 := count_step h1
      exact ih v (t := stepCount t) (by omega) (by simp only [getBytes, hs] at hj ⊢; omega) hi hr hd
    rw [getLoop]
    by_cases h0 : t.bs.count = 0
    · have c0 : t.bs.count.toNat = 0 := by rw [h0]; rfl
      cases j with
      | zero =>
        rw [t.chan.drawAt_zero] at hd
        rcases refill_empty h0 with ⟨-, e⟩ | ⟨hd', -, -⟩ | ⟨hd', -, -, -⟩
        · rw [e]; simp [h0, Channel.drawOne, Stream.readFailed]
        · rw [hd] at hd'; cases hd'
        · rw [hd] at hd'; cases hd'
      | succ j =>
        obtain ⟨hn, hr⟩ := (t.chan.Reliable_succ j).mp hr
        rw [← t.chan.drawAt_drawOne] at hd
        have hlt : t.chan.inpos < t.chan.input.length := by omega
        rcases refill_empty h0 with ⟨hd', -⟩ | ⟨-, hb, -⟩ | ⟨-, b, hb, e⟩
        · rw [hn] at hd'; cases hd'
        · exact absurd (List.getElem?_eq_none_iff.mp hb) (by omega)
        · have hin : t.chan.input.drop t.chan.inpos = b :: t.chan.input.drop (t.chan.inpos + 1) := by
            rw [List.drop_eq_getElem_cons hlt, (List.getElem?_eq_some_iff.mp hb).2]
          rw [e, Run.andThen_done, one (j := j) _ (by simp) (by simp) (by simp only [getBytes, c0] at hj ⊢; simp; omega)
            (by simp only [Channel.drawOne_input]; omega) hr hd]
          simp only [Stream.readFailed, hin, List.take_succ_cons, List.getLast?_cons, Option.getD_some, Channel.drawOne,
            ← List.drop_one, List.drop_drop, Nat.add_comm 1, Nat.add_assoc]
    · rw [refill_pos (count_pos h0), Run.andThen_done]
      exact one _ (count_pos h0) hc hj hi hr hd

/-- All GetBits can do (R120, R121). -/
theorem getBits_ends (n : Nat) (t : Stream) (hc : t.bs.count.toNat ≤ 8) :
    (∃ x, t.bs.err = some x ∧ getBits n t = .raised x t) ∨
      (t.bs.err = none ∧ t.bs.limitEn = true ∧ t.bs.limit.toNat < n ∧
        getBits n t = .raised .limitExceeded { t with bs := { t.bs with err := some .limitExceeded } }) ∨
      (t.bs.err = none ∧ (t.bs.limitEn = true → n ≤ t.bs.limit.toNat) ∧
        ((∃ u, getBits n t = .done (bitsNat (t.unread.take n)) (chargeLimit n u) ∧ Got n t u) ∨
          (∃ x u, getBits n t = .raised x u ∧ GotErr n t x u))) := by
  unfold getBits
  rcases preCheck_cases n t with ⟨x, h, e⟩ | ⟨h, hl, hn, e⟩ | ⟨h, hl, e⟩ <;> rw [e]
  · exact .inl ⟨x, h, rfl⟩
  · exact .inr (.inl ⟨h, hl, hn, rfl⟩)
  · refine .inr (.inr ⟨h, hl, ?_⟩)
    rw [Run.andThen_done]
    rcases getLoop_ends n 0 t hc with ⟨u, e, g⟩ | ⟨x, u, e, g⟩
    · exact .inl ⟨u, by rw [e]; simp, g⟩
    · exact .inr ⟨x, u, by rw [e]; rfl, g⟩

/-- GetBits with the bits there, the budget there and no failing draw. -/
theorem getBits_done {n : Nat} {t : Stream} (hc : t.bs.count.toNat ≤ 8) (he : t.bs.err = none)
    (hl : t.bs.limitEn = true → n ≤ t.bs.limit.toNat) (hn : n ≤ t.unread.length) (hr : t.chan.Reliable (getBytes n t)) :
    ∃ u, getBits n t = .done (bitsNat (t.unread.take n)) (chargeLimit n u) ∧ Got n t u := by
  obtain ⟨u, e, g⟩ := getLoop_done 0 hc hn hr
  exact ⟨u, by rw [getBits, preCheck_ok he hl, Run.andThen_done, e]; simp, g⟩

/-- GetBits with the budget there, where transfer `j` is the first to fail: LIMIT is not charged. -/
theorem getBits_failed {n j : Nat} {t : Stream} (hc : t.bs.count.toNat ≤ 8) (he : t.bs.err = none)
    (hl : t.bs.limitEn = true → n ≤ t.bs.limit.toNat) (hj : j < getBytes n t)
    (hi : j ≤ t.chan.input.length - t.chan.inpos) (hr : t.chan.Reliable j) (hd : t.chan.drawAt j = true) :
    getBits n t = .raised .ioFailure (t.readFailed j) := by
  rw [getBits, preCheck_ok he hl, Run.andThen_done, getLoop_failed 0 hc hj hi hr hd, Run.andThen_raised]

end Sys2Proof.Machine
end

