-- ==== Sys2Proof/Laws/Writer.lean ====
section
/-! SUPPORT. What PutBits and FlushPartial can do (40_bitstream.md R122, R123), in terms of the bits written. -/

namespace Sys2Proof.Machine

/-- A writer's cursor between two bits (R17, R18): COUNT is 1 to 8 and BUF[COUNT-1:0] is zero. -/
abbrev Stream.CanPut (t : Stream) : Prop :=
  1 ≤ t.bs.count.toNat ∧ t.bs.count.toNat ≤ 8 ∧ t.bs.buf.toNat % 2 ^ t.bs.count.toNat = 0

theorem lowBits_split {c n : Nat} (h : c ≤ n) (v : Nat) : lowBits n v = lowBits (n - c) (v / 2 ^ c) ++ lowBits c v := by
  have := lowBits_add (n - c) c v
  rwa [Nat.sub_add_cancel h] at this

/-- The bits of the current byte written so far are BUF shifted right by COUNT (R17). -/
theorem written_eq {t : Stream} (h : t.bs.count.toNat ≤ 8) :
    t.written = t.chan.output.flatMap byteBits ++ lowBits (8 - t.bs.count.toNat) (t.bs.buf.toNat / 2 ^ t.bs.count.toNat) := by
  unfold Stream.written
  rw [lowBits_split h, List.take_append_of_le_length (by simp), List.take_of_length_le (by simp)]

theorem written_length {t : Stream} (h : t.bs.count.toNat ≤ 8) :
    t.written.length = 8 * t.chan.output.length + (8 - t.bs.count.toNat) := by
  rw [written_eq h, List.length_append, flatMap_byteBits_length, lowBits_length]

/-! ## One bit -/

/-- BUF with one more bit put at the highest free position (R122). -/
abbrev Stream.bufWith (t : Stream) (b : Bool) : BitVec 8 :=
  t.bs.buf ||| (BitVec.ofBool b).setWidth 8 <<< (t.bs.count.toNat - 1)

theorem bufWith_toNat {t : Stream} (h : t.CanPut) (b : Bool) :
    (t.bufWith b).toNat = t.bs.buf.toNat + b.toNat * 2 ^ (t.bs.count.toNat - 1) := by
  obtain ⟨h1, h8, hz⟩ := h
  obtain ⟨q, hq⟩ := Nat.dvd_of_mod_eq_zero hz
  have hc : (2 : Nat) ^ t.bs.count.toNat = 2 * 2 ^ (t.bs.count.toNat - 1) := by
    rw [← pow_succ']; congr 1; omega
  have hp : (2 : Nat) ^ (t.bs.count.toNat - 1) ≤ 2 ^ 7 := Nat.pow_le_pow_right (by omega) (by omega)
  have hpos : 0 < (2 : Nat) ^ (t.bs.count.toNat - 1) := Nat.two_pow_pos _
  have hb : ((BitVec.ofBool b).setWidth 8 <<< (t.bs.count.toNat - 1) : BitVec 8).toNat =
      b.toNat * 2 ^ (t.bs.count.toNat - 1) := by
    rw [BitVec.toNat_shiftLeft, Nat.shiftLeft_eq]
    cases b
    · simp
    · simp; omega
  rw [BitVec.toNat_or, hb, hq, Nat.mul_comm (2 ^ t.bs.count.toNat) q, ← Nat.shiftLeft_eq,
    ← Nat.shiftLeft_add_eq_or_of_lt]
  cases b
  · simp
  · simp; omega

/-- The bits of the current byte after one more. -/
theorem bits_bufWith {t : Stream} (h : t.CanPut) (b : Bool) :
    lowBits (8 - (t.bs.count.toNat - 1)) ((t.bufWith b).toNat / 2 ^ (t.bs.count.toNat - 1)) =
      lowBits (8 - t.bs.count.toNat) (t.bs.buf.toNat / 2 ^ t.bs.count.toNat) ++ [b] := by
  rw [bufWith_toNat h]
  obtain ⟨h1, h8, hz⟩ := h
  obtain ⟨q, hq⟩ := Nat.dvd_of_mod_eq_zero hz
  have hc : (2 : Nat) ^ t.bs.count.toNat = 2 ^ (t.bs.count.toNat - 1) * 2 := by
    rw [← pow_succ]; congr 1; omega
  have hpos : 0 < (2 : Nat) ^ (t.bs.count.toNat - 1) := Nat.two_pow_pos _
  have e1 : (t.bs.buf.toNat + b.toNat * 2 ^ (t.bs.count.toNat - 1)) / 2 ^ (t.bs.count.toNat - 1) = 2 * q + b.toNat := by
    rw [Nat.add_mul_div_right _ _ hpos, hq, hc, Nat.mul_assoc, Nat.mul_div_cancel_left _ hpos]
  have e2 : t.bs.buf.toNat / 2 ^ t.bs.count.toNat = q := by
    rw [hq, Nat.mul_div_cancel_left _ (Nat.two_pow_pos _)]
  rw [e1, e2, show 8 - (t.bs.count.toNat - 1) = (8 - t.bs.count.toNat) + 1 by omega, lowBits_add]
  congr 1
  · congr 1; cases b <;> simp; omega
  · simp only [lowBits_succ, lowBits_zero, Nat.testBit_zero]
    cases b <;> simp

theorem bufWith_low {t : Stream} (h : t.CanPut) (b : Bool) :
    (t.bufWith b).toNat % 2 ^ (t.bs.count.toNat - 1) = 0 := by
  rw [bufWith_toNat h, Nat.add_mul_mod_self_right]
  exact Nat.mod_eq_zero_of_dvd
    ((Nat.pow_dvd_pow 2 (by omega)).trans (Nat.dvd_of_mod_eq_zero h.2.2))

/-- All giving BUF to the channel can do (R122, R123). -/
theorem writeBuf_cases (t : Stream) :
    (t.chan.nextDraw = true ∧
        writeBuf t = .raised .ioFailure ⟨{ t.bs with buf := 0, count := 8, err := some .ioFailure }, t.chan.drawOne⟩) ∨
      (t.chan.nextDraw = false ∧
        writeBuf t = .done () ⟨{ t.bs with buf := 0, count := 8 },
          { t.chan.drawOne with output := t.chan.output ++ [t.bs.buf] }⟩) := by
  unfold writeBuf
  rcases chanWrite_cases t.chan t.bs.buf with ⟨hd, e⟩ | ⟨hd, e⟩ <;> rw [e]
  · exact .inl ⟨hd, rfl⟩
  · exact .inr ⟨hd, rfl⟩

/-! ## The loop of PutBits -/

/-- The channel transfers of a put of `n` bits (R147): one for each byte completed. -/
abbrev putBytes (n : Nat) (t : Stream) : Nat := (n + 8 - t.bs.count.toNat) / 8

/-- What a put of the bits `l` leaves, where it succeeds. -/
structure Put (l : List Bool) (t u : Stream) : Prop where
  written : u.written = t.written ++ l
  canPut : u.CanPut
  grown : t.chan.output <+: u.chan.output
  length : u.chan.output.length = t.chan.output.length + putBytes l.length t
  drawn : u.chan.drawn = t.chan.drawn + putBytes l.length t
  draws : ∀ k, u.chan.drawAt k = t.chan.drawAt (putBytes l.length t + k)
  left : u.chan.draws = t.chan.draws.drop (putBytes l.length t)
  reliable : t.chan.Reliable (putBytes l.length t)
  count : u.bs.count.toNat = t.bs.count.toNat + 8 * putBytes l.length t - l.length
  bs : u.bs = { t.bs with buf := u.bs.buf, count := u.bs.count }
  chan : u.chan = { t.chan with output := u.chan.output, draws := u.chan.draws, drawn := u.chan.drawn }

/-- What a put of the bits `l` leaves, where its ChanWrite `k` is the first to fail (R122): the `k` bytes before it stay
written, its own byte is lost, no further bit is put, the stream is at a byte boundary and ERR holds IoFailure. -/
structure PutErr (k : Nat) (l : List Bool) (t : Stream) (x : StreamErr) (u : Stream) : Prop where
  kind : x = .ioFailure
  inside : k < putBytes l.length t
  reliable : t.chan.Reliable k
  failed : t.chan.drawAt k = true
  grown : t.chan.output <+: u.chan.output
  length : u.chan.output.length = t.chan.output.length + k
  written : u.chan.output.flatMap byteBits = (t.written ++ l).take (8 * (t.chan.output.length + k))
  bs : u.bs = { t.bs with buf := 0, count := 8, err := some .ioFailure }
  chan : u.chan = { t.chan with
    output := u.chan.output, draws := t.chan.draws.drop (k + 1), drawn := t.chan.drawn + (k + 1) }

/-- Putting nothing. -/
theorem Put.refl {t : Stream} (h : t.CanPut) : Put [] t t := by
  have h0 : putBytes 0 t = 0 := by simp only [putBytes]; omega
  refine ⟨by simp, h, List.prefix_refl _, ?_, ?_, ?_, ?_, fun k hk => absurd hk (by simp [h0]), ?_, rfl, rfl⟩ <;> simp [h0]

/-- The bytes of a put in two parts. -/
theorem Put.bytes {l : List Bool} {t u : Stream} (ht : t.CanPut) (g : Put l t u) (n : Nat) :
    putBytes (l.length + n) t = putBytes l.length t + putBytes n u := by
  have hc := g.count
  obtain ⟨h1, h8, -⟩ := ht
  obtain ⟨u1, u8, -⟩ := g.canPut
  simp only [putBytes] at *
  omega

/-- No draw fails in the first part of a put, and none before the `k`th of the second. -/
theorem Put.reliable_after {l : List Bool} {t u : Stream} (g : Put l t u) {k : Nat} (h : u.chan.Reliable k) :
    t.chan.Reliable (putBytes l.length t + k) := by
  intro j hj
  by_cases hlt : j < putBytes l.length t
  · exact g.reliable j hlt
  · have := h (j - putBytes l.length t) (by omega)
    rwa [g.draws, Nat.add_sub_cancel' (by omega)] at this

/-- Putting one sequence and then another. -/
theorem Put.trans {l m : List Bool} {t u w : Stream} (ht : t.CanPut) (g : Put l t u) (h : Put m u w) : Put (l ++ m) t w := by
  have hc := g.count
  have e : putBytes (l ++ m).length t = putBytes l.length t + putBytes m.length u := by
    rw [List.length_append]; exact g.bytes ht _
  refine ⟨by rw [h.written, g.written, List.append_assoc], h.canPut, g.grown.trans h.grown, ?_, ?_, ?_, ?_, ?_, ?_, ?_, ?_⟩
  · rw [h.length, g.length, e]; omega
  · rw [h.drawn, g.drawn, e]; omega
  · intro k; rw [h.draws, g.draws, e]; congr 1; omega
  · rw [h.left, g.left, e, List.drop_drop]
  · rw [e]; exact g.reliable_after h.reliable
  · have := g.canPut.1
    obtain ⟨h1, h8, -⟩ := ht
    rw [h.count, hc, e, List.length_append]
    simp only [putBytes] at *
    omega
  · rw [h.bs, g.bs]
  · rw [h.chan, g.chan]

/-- A failure after a successful put. -/
theorem PutErr.after {k : Nat} {l m : List Bool} {t u w : Stream} {x : StreamErr} (ht : t.CanPut) (g : Put l t u)
    (h : PutErr k m u x w) : PutErr (putBytes l.length t + k) (l ++ m) t x w := by
  have hl := g.length
  refine ⟨h.kind, ?_, g.reliable_after h.reliable, ?_, g.grown.trans h.grown, ?_, ?_, ?_, ?_⟩
  · rw [List.length_append, g.bytes ht]; exact Nat.add_lt_add_left h.inside _
  · rw [← g.draws]; exact h.failed
  · rw [h.length, hl]; omega
  · rw [h.written, g.written, hl, List.append_assoc]; congr 2; omega
  · rw [h.bs, g.bs]
  · rw [h.chan, g.left, g.drawn, g.chan, List.drop_drop]
    simp only [Channel.mk.injEq, true_and]
    exact ⟨by congr 1, by omega⟩

/-- A failure is the same where more bits were to follow. -/
theorem PutErr.extend {k : Nat} {l : List Bool} {t u : Stream} {x : StreamErr} (ht : t.CanPut) (h : PutErr k l t x u)
    (m : List Bool) : PutErr k (l ++ m) t x u := by
  have hi := h.inside
  have hw := written_length ht.2.1
  refine ⟨h.kind, ?_, h.reliable, h.failed, h.grown, h.length, ?_, h.bs, h.chan⟩
  · simp only [putBytes, List.length_append] at *; omega
  · rw [h.written, ← List.append_assoc, List.take_append_of_le_length (l₁ := t.written ++ l)]
    obtain ⟨h1, h8, -⟩ := ht
    simp only [putBytes, List.length_append] at *
    omega

/-- All one round of PutBits can do (R122). -/
theorem putBit_ends (b : Bool) {t : Stream} (h : t.CanPut) :
    (∃ u, putBit b t = .done () u ∧ Put [b] t u) ∨ (∃ k x u, putBit b t = .raised x u ∧ PutErr k [b] t x u) := by
  have hw := written_eq h.2.1
  have hb := bits_bufWith h b
  have hl := bufWith_low h b
  obtain ⟨t', ht'⟩ : ∃ t' : Stream, t' = stepCount { t with bs := { t.bs with buf := t.bufWith b } } := ⟨_, rfl⟩
  have hc : t'.bs.count.toNat = t.bs.count.toNat - 1 := by rw [ht']; exact count_step h.1
  have hbuf : t'.bs.buf = t.bufWith b := by rw [ht']; rfl
  have hch : t'.chan = t.chan := by rw [ht']; rfl
  have hbs : t'.bs = { t.bs with buf := t.bufWith b, count := t.bs.count - 1 } := by rw [ht']; rfl
  have he : putBit b t = if t'.bs.count = 0 then writeBuf t' else .done () t' := by rw [ht']; rfl
  obtain ⟨h1, h8, -⟩ := h
  rw [he]
  by_cases h0 : t'.bs.count = 0
  · rw [if_pos h0]
    have hc1 : t.bs.count.toNat = 1 := by rw [h0] at hc; have : (0 : BitVec 4).toNat = 0 := rfl; omega
    have hk : putBytes 1 t = 1 := by simp only [putBytes, hc1]
    rw [hc1] at hb hw
    rcases writeBuf_cases t' with ⟨hd, e⟩ | ⟨hd, e⟩ <;> rw [e] <;> rw [hch] at hd
    · refine .inr ⟨0, _, _, rfl, rfl, by simp [hk], t.chan.Reliable_zero, t.chan.drawAt_zero.trans hd, ?_, ?_, ?_, ?_, ?_⟩
      · simp [hch]
      · simp [hch]
      · simp only [hch, hw, List.append_assoc, Channel.drawOne_output, Nat.add_zero]
        rw [List.take_append_of_le_length (by rw [flatMap_byteBits_length]),
          List.take_of_length_le (by rw [flatMap_byteBits_length])]
      · simp [hbs]
      · simp [hch, Channel.drawOne]
    · refine .inl ⟨_, rfl, ?_, ?_, ?_, ?_, ?_, ?_, ?_, ?_, ?_, ?_, ?_⟩
      · rw [hw]
        show (t'.chan.output ++ [t'.bs.buf]).flatMap byteBits ++ _ = _
        rw [hch, hbuf, List.flatMap_append, List.append_assoc, List.append_assoc, ← hb]
        simp [byteBits]
      · exact ⟨by simp, by simp, by simp⟩
      · simp [hch]
      · simp [hch, hk]
      · simp [hch, hk]
      · intro k
        show Channel.drawAt { t'.chan.drawOne with output := _ } k = _
        rw [hch]
        exact (t.chan.drawAt_drawOne k).trans (by congr 1; simp only [List.length_singleton, hk]; omega)
      · simp [hch, hk]
      · rw [List.length_singleton, hk]
        intro k hk'
        obtain rfl : k = 0 := by omega
        exact t.chan.drawAt_zero.trans hd
      · simp [hk, hc1]
      · simp [hbs]
      · simp [hch]
  · rw [if_neg h0]
    have hc2 : 2 ≤ t.bs.count.toNat := by have := count_pos h0; omega
    have hk : putBytes 1 t = 0 := by simp only [putBytes]; omega
    refine .inl ⟨_, rfl, ?_, ⟨by omega, by omega, by rw [hc, hbuf]; exact hl⟩, ?_, ?_, ?_, ?_, ?_, ?_, ?_, ?_, ?_⟩
    · rw [hw, written_eq (by omega), hc, hbuf, hch, List.append_assoc, ← hb]
    · rw [hch]
    · simp [hch, hk]
    · simp [hch, hk]
    · intro k; rw [hch]; congr 1; simp only [List.length_singleton, hk]; omega
    · simp [hch, hk]
    · exact fun k hk' => absurd hk' (by simp [hk])
    · rw [hc]; simp [hk]
    · rw [hbs]
    · rw [hch]

/-- All the loop of PutBits can do (R122). -/
theorem putLoop_ends (v n : Nat) {t : Stream} (h : t.CanPut) :
    (∃ u, putLoop v n t = .done () u ∧ Put (lowBits n v) t u) ∨
      (∃ k x u, putLoop v n t = .raised x u ∧ PutErr k (lowBits n v) t x u) := by
  induction n generalizing t with
  | zero => exact .inl ⟨t, rfl, Put.refl h⟩
  | succ n ih =>
    rw [putLoop, lowBits_succ]
    rcases putBit_ends (v.testBit n) h with ⟨u, e, g⟩ | ⟨k, x, u, e, g⟩ <;> rw [e]
    · rw [Run.andThen_done]
      rcases ih g.canPut with ⟨w, e', g'⟩ | ⟨k, x, w, e', g'⟩
      · exact .inl ⟨w, e', g.trans h g'⟩
      · exact .inr ⟨_, x, w, e', g'.after h g⟩
    · exact .inr ⟨k, x, u, rfl, g.extend h _⟩

/-- With no failing draw, the loop succeeds. -/
theorem putLoop_done {v n : Nat} {t : Stream} (h : t.CanPut) (hr : t.chan.Reliable (putBytes n t)) :
    ∃ u, putLoop v n t = .done () u ∧ Put (lowBits n v) t u := by
  rcases putLoop_ends v n h with h | ⟨k, x, u, -, g⟩
  · exact h
  · have hi := g.inside
    rw [lowBits_length] at hi
    have := hr k hi
    rw [g.failed] at this; cases this

/-- Where transfer `j` of the loop is the first to fail, the loop ends there. -/
theorem putLoop_failed {v n j : Nat} {t : Stream} (h : t.CanPut) (hj : j < putBytes n t) (hr : t.chan.Reliable j)
    (hd : t.chan.drawAt j = true) : ∃ u, putLoop v n t = .raised .ioFailure u ∧ PutErr j (lowBits n v) t .ioFailure u := by
  rcases putLoop_ends v n h with ⟨u, -, g⟩ | ⟨k, x, u, e, g⟩
  · have := g.reliable j (by rwa [lowBits_length])
    rw [hd] at this; cases this
  · obtain rfl := g.kind
    obtain rfl := t.chan.first_failure hr hd g.reliable g.failed
    exact ⟨u, e, g⟩

/-- All PutBits can do (R120, R122). -/
theorem putBits_ends (v n : Nat) {t : Stream} (h : t.CanPut) :
    (∃ x, t.bs.err = some x ∧ putBits v n t = .raised x t) ∨
      (t.bs.err = none ∧ t.bs.limitEn = true ∧ t.bs.limit.toNat < n ∧
        putBits v n t = .raised .limitExceeded { t with bs := { t.bs with err := some .limitExceeded } }) ∨
      (t.bs.err = none ∧ (t.bs.limitEn = true → n ≤ t.bs.limit.toNat) ∧
        ((∃ u, putBits v n t = .done () (chargeLimit n u) ∧ Put (lowBits n v) t u) ∨
          (∃ k x u, putBits v n t = .raised x u ∧ PutErr k (lowBits n v) t x u))) := by
  unfold putBits
  rcases preCheck_cases n t with ⟨x, hx, e⟩ | ⟨hx, hl, hn, e⟩ | ⟨hx, hl, e⟩ <;> rw [e]
  · exact .inl ⟨x, hx, rfl⟩
  · exact .inr (.inl ⟨hx, hl, hn, rfl⟩)
  · refine .inr (.inr ⟨hx, hl, ?_⟩)
    rw [Run.andThen_done]
    rcases putLoop_ends v n h with ⟨u, e, g⟩ | ⟨k, x, u, e, g⟩
    · exact .inl ⟨u, by rw [e]; rfl, g⟩
    · exact .inr ⟨k, x, u, by rw [e]; rfl, g⟩

/-- PutBits with the budget there and no failing draw. -/
theorem putBits_done {v n : Nat} {t : Stream} (h : t.CanPut) (he : t.bs.err = none)
    (hl : t.bs.limitEn = true → n ≤ t.bs.limit.toNat) (hr : t.chan.Reliable (putBytes n t)) :
    ∃ u, putBits v n t = .done () (chargeLimit n u) ∧ Put (lowBits n v) t u := by
  obtain ⟨u, e, g⟩ := putLoop_done (v := v) h hr
  exact ⟨u, by rw [putBits, preCheck_ok he hl, Run.andThen_done, e]; rfl, g⟩

/-- PutBits with the budget there, where transfer `j` is the first to fail: LIMIT is not charged. -/
theorem putBits_failed {v n j : Nat} {t : Stream} (h : t.CanPut) (he : t.bs.err = none)
    (hl : t.bs.limitEn = true → n ≤ t.bs.limit.toNat) (hj : j < putBytes n t) (hr : t.chan.Reliable j)
    (hd : t.chan.drawAt j = true) : ∃ u, putBits v n t = .raised .ioFailure u ∧ PutErr j (lowBits n v) t .ioFailure u := by
  obtain ⟨u, e, g⟩ := putLoop_failed (v := v) h hj hr hd
  exact ⟨u, by rw [putBits, preCheck_ok he hl, Run.andThen_done, e]; rfl, g⟩

/-! ## FlushPartial -/

/-- All FlushPartial can do (R123): nothing at a byte boundary, else the partial byte goes out or is lost. -/
theorem flushPartial_cases (t : Stream) :
    (8 ≤ t.bs.count.toNat ∧ flushPartial t = .done () t) ∨
      (t.bs.count.toNat < 8 ∧ t.chan.nextDraw = true ∧
        flushPartial t = .raised .ioFailure ⟨{ t.bs with buf := 0, count := 8, err := some .ioFailure }, t.chan.drawOne⟩) ∨
      (t.bs.count.toNat < 8 ∧ t.chan.nextDraw = false ∧
        flushPartial t = .done () ⟨{ t.bs with buf := 0, count := 8 },
          { t.chan.drawOne with output := t.chan.output ++ [t.bs.buf] }⟩) := by
  unfold flushPartial
  by_cases h : t.bs.count.toNat < 8
  · rw [if_pos h]
    rcases writeBuf_cases t with ⟨hd, e⟩ | ⟨hd, e⟩
    · exact .inr (.inl ⟨h, hd, e⟩)
    · exact .inr (.inr ⟨h, hd, e⟩)
  · rw [if_neg h]; exact .inl ⟨by omega, rfl⟩

/-- The partial byte's free positions go out as zeros (R123). -/
theorem written_flushed {t : Stream} (h : t.CanPut) (ch : Channel) (b : BitStream) (hb : b.count = 8)
    (ho : ch.output = t.chan.output ++ [t.bs.buf]) :
    Stream.written ⟨b, ch⟩ = t.written ++ List.replicate t.bs.count.toNat false := by
  obtain ⟨h1, h8, hz⟩ := h
  rw [written_eq h8]
  unfold Stream.written
  simp only [hb, ho, List.flatMap_append, List.flatMap_singleton, byteBits]
  have : lowBits 8 t.bs.buf.toNat =
      lowBits (8 - t.bs.count.toNat) (t.bs.buf.toNat / 2 ^ t.bs.count.toNat) ++ List.replicate t.bs.count.toNat false := by
    rw [lowBits_split h8, ← lowBits_mod t.bs.count.toNat t.bs.count.toNat _ (Nat.le_refl _), hz, lowBits_zero_value]
  rw [this]
  simp

end Sys2Proof.Machine
end

