-- ==== Sys2Proof/Laws/Bytes.lean ====
section
/-! SUPPORT. What PutByte, runs of it and GetByte can do (42_arith_coder.md R200), in whole bytes, the limit charged. -/

namespace Sys2Proof.Machine

/-! ## Sequences of coder procedures -/

@[simp] theorem Coded.andThen_done {α β : Type} (a : α) (e : Engine) (k : α → Engine → Coded β) :
    (Coded.done a e).andThen k = k a e := rfl

@[simp] theorem Coded.andThen_raised {α β : Type} (x : StreamErr) (e : Engine) (k : α → Engine → Coded β) :
    (Coded.raised x e : Coded α).andThen k = .raised x e := rfl

@[simp] theorem Coded.andThen_overflow {α β : Type} (k : α → Engine → Coded β) :
    (Coded.overflow : Coded α).andThen k = .overflow := rfl

@[simp] theorem Coded.andThen_diverges {α β : Type} (k : α → Engine → Coded β) :
    (Coded.diverges : Coded α).andThen k = .diverges := rfl

theorem Coded.andThen_assoc {α β γ : Type} (r : Coded α) (f : α → Engine → Coded β) (g : β → Engine → Coded γ) :
    (r.andThen f).andThen g = r.andThen fun a e => (f a e).andThen g := by cases r <;> rfl

/-! ## Sending bytes -/

/-- What sending `k` bytes, the bits `l`, leaves where it succeeds. -/
structure Sent (k : Nat) (l : List Bool) (t u : Stream) : Prop where
  written : u.written = t.written ++ l
  length : l.length = 8 * k
  canPut : u.CanPut
  grown : t.chan.output <+: u.chan.output
  drawn : u.chan.drawn = t.chan.drawn + k
  draws : ∀ j, u.chan.drawAt j = t.chan.drawAt (k + j)
  count : u.bs.count = t.bs.count
  budget : t.bs.limitEn = true → 8 * k ≤ t.bs.limit.toNat
  limit : u.bs.limit.toNat = if t.bs.limitEn then t.bs.limit.toNat - 8 * k else t.bs.limit.toNat
  bs : u.bs = { t.bs with buf := u.bs.buf, count := u.bs.count, limit := u.bs.limit }
  chan : u.chan = { t.chan with output := u.chan.output, draws := u.chan.draws, drawn := u.chan.drawn }

/-- What sending up to `k` bytes leaves where it fails: the limit is short, or a ChanWrite failed. -/
structure SendErr (k : Nat) (t : Stream) (x : StreamErr) (u : Stream) : Prop where
  kind : x = .limitExceeded ∨ x = .ioFailure
  short : x = .limitExceeded → t.bs.limitEn = true ∧ t.bs.limit.toNat < 8 * k
  failed : x = .ioFailure → ∃ j < k, t.chan.drawAt j = true
  canPut : u.CanPut
  grown : t.chan.output <+: u.chan.output
  drawn : t.chan.drawn ≤ u.chan.drawn ∧ u.chan.drawn ≤ t.chan.drawn + k
  limit : t.bs.limitEn = false → u.bs.limit = t.bs.limit
  bs : u.bs = { t.bs with buf := u.bs.buf, count := u.bs.count, err := some x, limit := u.bs.limit }
  chan : u.chan = { t.chan with output := u.chan.output, draws := u.chan.draws, drawn := u.chan.drawn }

theorem Sent.err {k : Nat} {l : List Bool} {t u : Stream} (g : Sent k l t u) : u.bs.err = t.bs.err := by rw [g.bs]

theorem Sent.mode {k : Nat} {l : List Bool} {t u : Stream} (g : Sent k l t u) : u.bs.mode = t.bs.mode := by rw [g.bs]

theorem Sent.limitEn {k : Nat} {l : List Bool} {t u : Stream} (g : Sent k l t u) : u.bs.limitEn = t.bs.limitEn := by
  rw [g.bs]

theorem Sent.inpos {k : Nat} {l : List Bool} {t u : Stream} (g : Sent k l t u) : u.chan.inpos = t.chan.inpos := by
  rw [g.chan]

theorem Sent.input {k : Nat} {l : List Bool} {t u : Stream} (g : Sent k l t u) : u.chan.input = t.chan.input := by
  rw [g.chan]

/-- Sending nothing. -/
theorem Sent.refl {t : Stream} (h : t.CanPut) : Sent 0 [] t t :=
  ⟨by simp, rfl, h, List.prefix_refl _, by simp, by simp, rfl, by simp, by simp, rfl, rfl⟩

/-- Sending one run and then another. -/
theorem Sent.trans {k m : Nat} {l r : List Bool} {t u w : Stream} (g : Sent k l t u) (h : Sent m r u w) :
    Sent (k + m) (l ++ r) t w := by
  have hl := g.limit
  have hb := h.budget
  have hm := h.limit
  rw [g.limitEn] at hb hm
  refine ⟨by rw [h.written, g.written, List.append_assoc], ?_, h.canPut, g.grown.trans h.grown, ?_, ?_, ?_, ?_, ?_, ?_, ?_⟩
  · rw [List.length_append, g.length, h.length]; omega
  · rw [h.drawn, g.drawn]; omega
  · intro j; rw [h.draws, g.draws]; congr 1; omega
  · rw [h.count, g.count]
  · intro he
    have := hb he
    have := g.budget he
    rw [if_pos he] at hl; omega
  · rw [hm, hl]; split <;> omega
  · rw [h.bs, g.bs]
  · rw [h.chan, g.chan]

/-- A failure after a success. -/
theorem SendErr.after {k m : Nat} {l : List Bool} {t u w : Stream} {x : StreamErr} (g : Sent k l t u)
    (h : SendErr m u x w) : SendErr (k + m) t x w := by
  have hl := g.limit
  have hd := g.drawn
  have hs := h.short
  rw [g.limitEn] at hs
  refine ⟨h.kind, fun hx => ?_, fun hx => ?_, h.canPut, g.grown.trans h.grown, ?_, fun he => ?_, ?_, ?_⟩
  · obtain ⟨he, hlt⟩ := hs hx
    have := g.budget he
    rw [if_pos he] at hl
    exact ⟨he, by omega⟩
  · obtain ⟨j, hj, hf⟩ := h.failed hx
    exact ⟨k + j, by omega, by rw [← g.draws]; exact hf⟩
  · have := h.drawn; omega
  · rw [h.limit (by rw [g.limitEn]; exact he)]
    exact BitVec.eq_of_toNat_eq (by rw [hl, he]; rfl)
  · rw [h.bs, g.bs]
  · rw [h.chan, g.chan]

/-- A failure of fewer bytes is one of more. -/
theorem SendErr.mono {k m : Nat} {t u : Stream} {x : StreamErr} (hk : k ≤ m) (h : SendErr k t x u) : SendErr m t x u := by
  refine ⟨h.kind, fun hx => ?_, fun hx => ?_, h.canPut, h.grown, ?_, h.limit, h.bs, h.chan⟩
  · have := h.short hx; exact ⟨this.1, by omega⟩
  · obtain ⟨j, hj, hf⟩ := h.failed hx
    exact ⟨j, by omega, hf⟩
  · have := h.drawn; omega

/-- With the budget there and no failing draw, sending cannot fail. -/
theorem SendErr.absurd {k : Nat} {t u : Stream} {x : StreamErr} (h : SendErr k t x u)
    (hl : t.bs.limitEn = true → 8 * k ≤ t.bs.limit.toNat) (hr : t.chan.Reliable k) : False := by
  rcases h.kind with hx | hx
  · obtain ⟨he, hs⟩ := h.short hx
    have := hl he; omega
  · obtain ⟨j, hj, hf⟩ := h.failed hx
    rw [hr j hj] at hf; cases hf

/-- All PutByte can do on an unfaulted writer (R200): the coder's registers are not touched. -/
theorem putByte_ends (b : Nat) {e : Engine} (h : e.stream.CanPut) (he : e.stream.bs.err = none) :
    (∃ u, putByte b e = .done () { e with stream := u } ∧ Sent 1 (lowBits 8 b) e.stream u) ∨
      (∃ x u, putByte b e = .raised x { e with stream := u } ∧ SendErr 1 e.stream x u) := by
  have hc := h.1
  have hc8 := h.2.1
  have hk : putBytes 8 e.stream = 1 := by simp only [putBytes]; omega
  unfold putByte onStream
  rcases putBits_ends b 8 h with ⟨x, hx, -⟩ | ⟨-, hl, hn, eq⟩ | ⟨-, hl, ⟨u, eq, g⟩ | ⟨k, x, u, eq, g⟩⟩
  · rw [he] at hx; cases hx
  · rw [eq]
    exact .inr ⟨_, _, rfl, .inl rfl, fun _ => ⟨hl, hn⟩, by simp, h, List.prefix_refl _, by simp, fun _ => rfl, rfl, rfl⟩
  · rw [eq]
    refine .inl ⟨_, rfl, ?_⟩
    have hb := g.bs
    have hcnt : u.bs.count = e.stream.bs.count :=
      BitVec.eq_of_toNat_eq (by have := g.count; simp only [lowBits_length, hk] at this; omega)
    have hlim := chargeLimit_limit 8 u
    have hq := chargeLimit_eq 8 u
    refine ⟨?_, rfl, ?_, ?_, ?_, ?_, ?_, hl, ?_, ?_, ?_⟩
    · rw [chargeLimit_written, g.written]
    · have := g.canPut; rw [hq]; exact this
    · rw [chargeLimit_chan]; exact g.grown
    · rw [chargeLimit_chan, g.drawn, lowBits_length, hk]
    · intro j; rw [chargeLimit_chan, g.draws, lowBits_length, hk]
    · rw [hq]; exact hcnt
    · rw [hlim, hb]
    · rw [hq, hb]
    · rw [chargeLimit_chan, g.chan]
  · rw [eq]
    have hi := g.inside
    have hd : u.chan.drawn = e.stream.chan.drawn + (k + 1) := by rw [g.chan]
    rw [lowBits_length, hk] at hi
    refine .inr ⟨x, u, rfl, .inr g.kind, fun hx => ?_, fun _ => ⟨k, hi, g.failed⟩, ?_, g.grown, by omega, fun _ => ?_, ?_, ?_⟩
    · rw [g.kind] at hx; cases hx
    · rw [Stream.CanPut, g.bs]; simp
    · rw [g.bs]
    · rw [g.bs, g.kind]
    · rw [g.chan]

/-- All a run of PutByte can do (R206, R210). -/
theorem putRun_ends (b n : Nat) {e : Engine} (h : e.stream.CanPut) (he : e.stream.bs.err = none) :
    (∃ u, putRun b n e = .done () { e with stream := u } ∧
        Sent n ((List.replicate n (BitVec.ofNat 8 b)).flatMap byteBits) e.stream u) ∨
      (∃ x u, putRun b n e = .raised x { e with stream := u } ∧ SendErr n e.stream x u) := by
  induction n generalizing e with
  | zero => exact .inl ⟨e.stream, rfl, Sent.refl h⟩
  | succ n ih =>
    have hb : lowBits 8 b = byteBits (BitVec.ofNat 8 b) := by
      rw [byteBits, BitVec.toNat_ofNat, lowBits_mod _ _ _ (Nat.le_refl _)]
    rw [putRun]
    rcases putByte_ends b h he with ⟨u, eq, g⟩ | ⟨x, u, eq, g⟩ <;> rw [eq]
    · rw [Coded.andThen_done, List.replicate_succ, List.flatMap_cons, ← hb, Nat.add_comm n 1]
      rcases ih (e := { e with stream := u }) g.canPut (g.err.trans he) with ⟨w, eq', g'⟩ | ⟨x, w, eq', g'⟩
      · exact .inl ⟨w, eq', g.trans g'⟩
      · exact .inr ⟨x, w, eq', g'.after g⟩
    · exact .inr ⟨x, u, rfl, g.mono (by omega)⟩

/-! ## Receiving bytes -/

/-- What receiving `k` bytes leaves where it succeeds. -/
structure Received (k : Nat) (t u : Stream) : Prop where
  enough : 8 * k ≤ t.unread.length
  unread : u.unread = t.unread.drop (8 * k)
  inpos : u.chan.inpos = t.chan.inpos + k
  drawn : u.chan.drawn = t.chan.drawn + k
  draws : ∀ j, u.chan.drawAt j = t.chan.drawAt (k + j)
  count : u.bs.count = t.bs.count
  budget : t.bs.limitEn = true → 8 * k ≤ t.bs.limit.toNat
  limit : u.bs.limit.toNat = if t.bs.limitEn then t.bs.limit.toNat - 8 * k else t.bs.limit.toNat
  bs : u.bs = { t.bs with buf := u.bs.buf, count := u.bs.count, limit := u.bs.limit }
  chan : u.chan = { t.chan with inpos := u.chan.inpos, draws := u.chan.draws, drawn := u.chan.drawn }

/-- What receiving up to `k` bytes leaves where it fails. -/
structure ReceiveErr (k : Nat) (t : Stream) (x : StreamErr) (u : Stream) : Prop where
  short : x = .limitExceeded → t.bs.limitEn = true ∧ t.bs.limit.toNat < 8 * k
  failed : x = .ioFailure → ∃ j < k, t.chan.drawAt j = true
  ended : x = .ioExhausted → t.unread.length < 8 * k
  inpos : t.chan.inpos ≤ u.chan.inpos
  inside : t.chan.inpos ≤ t.chan.input.length → u.chan.inpos ≤ t.chan.input.length
  drawn : t.chan.drawn ≤ u.chan.drawn ∧ u.chan.drawn ≤ t.chan.drawn + k
  count : u.bs.count.toNat ≤ t.bs.count.toNat
  limit : t.bs.limitEn = false → u.bs.limit = t.bs.limit
  bs : u.bs = { t.bs with buf := u.bs.buf, count := u.bs.count, err := some x, limit := u.bs.limit }
  chan : u.chan = { t.chan with inpos := u.chan.inpos, draws := u.chan.draws, drawn := u.chan.drawn }

theorem Received.err {k : Nat} {t u : Stream} (g : Received k t u) : u.bs.err = t.bs.err := by rw [g.bs]

theorem Received.mode {k : Nat} {t u : Stream} (g : Received k t u) : u.bs.mode = t.bs.mode := by rw [g.bs]

theorem Received.limitEn {k : Nat} {t u : Stream} (g : Received k t u) : u.bs.limitEn = t.bs.limitEn := by rw [g.bs]

theorem Received.input {k : Nat} {t u : Stream} (g : Received k t u) : u.chan.input = t.chan.input := by rw [g.chan]

theorem Received.output {k : Nat} {t u : Stream} (g : Received k t u) : u.chan.output = t.chan.output := by rw [g.chan]

/-- The unread bits are the whole of BUF's and the input's (R17). -/
theorem unread_length (t : Stream) : t.unread.length = t.bs.count.toNat + 8 * (t.chan.input.length - t.chan.inpos) := by
  unfold Stream.unread
  rw [List.length_append, lowBits_length, flatMap_byteBits_length, List.length_drop]

/-- Bytes were there to receive: the position stays inside the input. -/
theorem Received.inside {k : Nat} {t u : Stream} (g : Received k t u) (h : t.bs.count.toNat ≤ 7) (hw : t.chan.Wf) :
    u.chan.Wf := by
  have := g.enough
  rw [unread_length] at this
  show u.chan.inpos ≤ u.chan.input.length
  rw [g.inpos, g.input]
  have : t.chan.inpos ≤ t.chan.input.length := hw
  omega

/-- Receiving nothing. -/
theorem Received.refl (t : Stream) : Received 0 t t :=
  ⟨by simp, by simp, by simp, by simp, by simp, rfl, by simp, by simp, rfl, rfl⟩

/-- Receiving one run and then another. -/
theorem Received.trans {k m : Nat} {t u w : Stream} (g : Received k t u) (h : Received m u w) : Received (k + m) t w := by
  have hl := g.limit
  have hb := h.budget
  have hm := h.limit
  have hn := h.enough
  rw [g.limitEn] at hb hm
  rw [g.unread, List.length_drop] at hn
  have := g.enough
  refine ⟨by omega, ?_, ?_, ?_, ?_, ?_, ?_, ?_, ?_, ?_⟩
  · rw [h.unread, g.unread, List.drop_drop]; congr 1; omega
  · rw [h.inpos, g.inpos]; omega
  · rw [h.drawn, g.drawn]; omega
  · intro j; rw [h.draws, g.draws]; congr 1; omega
  · rw [h.count, g.count]
  · intro he
    have := hb he
    have := g.budget he
    rw [if_pos he] at hl; omega
  · rw [hm, hl]; split <;> omega
  · rw [h.bs, g.bs]
  · rw [h.chan, g.chan]

/-- A failure after a success. -/
theorem ReceiveErr.after {k m : Nat} {t u w : Stream} {x : StreamErr} (hc : t.bs.count.toNat ≤ 7) (g : Received k t u)
    (h : ReceiveErr m u x w) : ReceiveErr (k + m) t x w := by
  have hl := g.limit
  have hd := g.drawn
  have hs := h.short
  have hi := h.inside
  rw [g.limitEn] at hs
  rw [g.input] at hi
  refine ⟨fun hx => ?_, fun hx => ?_, fun hx => ?_, ?_, fun hw => hi ?_, ?_, ?_, fun he => ?_, ?_, ?_⟩
  · obtain ⟨he, hlt⟩ := hs hx
    have := g.budget he
    rw [if_pos he] at hl
    exact ⟨he, by omega⟩
  · obtain ⟨j, hj, hf⟩ := h.failed hx
    exact ⟨k + j, by omega, by rw [← g.draws]; exact hf⟩
  · have := h.ended hx
    rw [g.unread, List.length_drop] at this
    omega
  · have := h.inpos; have := g.inpos; omega
  · have := g.inside hc hw
    rw [← g.input]; exact this
  · have := h.drawn; omega
  · have := h.count; rw [g.count] at this; exact this
  · rw [h.limit (by rw [g.limitEn]; exact he)]
    exact BitVec.eq_of_toNat_eq (by rw [hl, he]; rfl)
  · rw [h.bs, g.bs]
  · rw [h.chan, g.chan]

/-- A failure of fewer bytes is one of more. -/
theorem ReceiveErr.mono {k m : Nat} {t u : Stream} {x : StreamErr} (hk : k ≤ m) (h : ReceiveErr k t x u) :
    ReceiveErr m t x u := by
  refine ⟨fun hx => ?_, fun hx => ?_, fun hx => ?_, h.inpos, h.inside, ?_, h.count, h.limit, h.bs, h.chan⟩
  · have := h.short hx; exact ⟨this.1, by omega⟩
  · obtain ⟨j, hj, hf⟩ := h.failed hx
    exact ⟨j, by omega, hf⟩
  · have := h.ended hx; omega
  · have := h.drawn; omega

/-- With the budget and the bits there and no failing draw, receiving cannot fail. -/
theorem ReceiveErr.absurd {k : Nat} {t u : Stream} {x : StreamErr} (h : ReceiveErr k t x u)
    (hl : t.bs.limitEn = true → 8 * k ≤ t.bs.limit.toNat) (hn : 8 * k ≤ t.unread.length) (hr : t.chan.Reliable k) :
    False := by
  cases x with
  | limitExceeded =>
    obtain ⟨he, hs⟩ := h.short rfl
    have := hl he; omega
  | ioFailure =>
    obtain ⟨j, hj, hf⟩ := h.failed rfl
    rw [hr j hj] at hf; cases hf
  | ioExhausted => have := h.ended rfl; omega

/-- All GetByte can do on an unfaulted reader (R200): the coder's registers are not touched. -/
theorem getByte_ends {e : Engine} (h : e.stream.bs.count.toNat ≤ 7) (he : e.stream.bs.err = none) :
    (∃ u, getByte e = .done (bitsNat (e.stream.unread.take 8)) { e with stream := u } ∧ Received 1 e.stream u) ∨
      (∃ x u, getByte e = .raised x { e with stream := u } ∧ ReceiveErr 1 e.stream x u) := by
  have hk : getBytes 8 e.stream = 1 := by simp only [getBytes]; omega
  unfold getByte onStream
  rcases getBits_ends 8 e.stream (by omega) with ⟨x, hx, -⟩ | ⟨-, hl, hn, eq⟩ | ⟨-, hl, ⟨u, eq, g⟩ | ⟨x, u, eq, g⟩⟩
  · rw [he] at hx; cases hx
  · rw [eq]
    exact .inr ⟨_, _, rfl, fun _ => ⟨hl, hn⟩, by simp, by simp, Nat.le_refl _, fun h => h, by simp, Nat.le_refl _,
      fun _ => rfl, rfl, rfl⟩
  · rw [eq]
    refine .inl ⟨_, rfl, ?_⟩
    have hb := g.bs
    have hcnt : u.bs.count = e.stream.bs.count :=
      BitVec.eq_of_toNat_eq (by have := g.count; simp only [hk] at this; omega)
    have hlim := chargeLimit_limit 8 u
    have hq := chargeLimit_eq 8 u
    refine ⟨g.enough, ?_, ?_, ?_, ?_, ?_, hl, ?_, ?_, ?_⟩
    · rw [chargeLimit_unread, g.unread]
    · rw [chargeLimit_chan, g.inpos, hk]
    · rw [chargeLimit_chan, g.drawn, hk]
    · intro j; rw [chargeLimit_chan, g.draws, hk]
    · rw [hq]; exact hcnt
    · rw [hlim, hb]
    · rw [hq, hb]
    · rw [chargeLimit_chan, g.chan]
  · rw [eq]
    refine .inr ⟨x, u, rfl, fun hx => ?_, fun hx => ?_, fun hx => ?_, g.inpos, g.inside, ?_, ?_, fun _ => ?_, ?_, g.chan⟩
    · rcases g.kind with hy | hy <;> rw [hy] at hx <;> cases hx
    · obtain ⟨j, hj, -, hf⟩ := g.failed hx
      exact ⟨j, by omega, hf⟩
    · have := g.short hx; omega
    · have := g.drawn; omega
    · rw [g.bs]; simp
    · rw [g.bs]
    · rw [g.bs]

end Sys2Proof.Machine
end

