-- ==== Sys2Proof/Laws/ContextModel.lean ====
section
/-! SUPPORT. All that Update, Rescale and CTX_INIT can make of a context (41_context_model.md R161 to R165). -/

namespace Sys2Proof.Machine

/-- The counts Rescale leaves fit their registers: Update on a well-formed context narrows nothing (R161, R162). -/
theorem nextCounts_fit {x : Context} (h : x.Wf) (bit : Bool) :
    (nextCounts x bit).1 < 2 ^ 16 ∧ (nextCounts x bit).2 < 2 ^ 16 := by
  obtain ⟨h1, h2, h3, h4⟩ := h
  have hm := x.maxf.isLt
  have hb : bit.toNat ≤ 1 := by cases bit <;> simp
  unfold nextCounts
  simp only
  split
  · simp only [rescale]; omega
  · simp only; omega

/-- All Update can do to a well-formed context (R161): nothing where ADAPT is 0, else the next counts, unnarrowed. -/
theorem update_cases {x : Context} (h : x.Wf) (bit : Bool) :
    (x.adapt = false ∧ x.update bit = x) ∨
      (x.adapt = true ∧ (x.update bit).one.toNat = (nextCounts x bit).1 ∧
        (x.update bit).total.toNat = (nextCounts x bit).2) := by
  obtain ⟨f1, f2⟩ := nextCounts_fit h bit
  unfold Context.update
  cases ha : x.adapt
  · exact .inl ⟨rfl, rfl⟩
  · exact .inr ⟨rfl, by simpa using Nat.mod_eq_of_lt f1, by simpa using Nat.mod_eq_of_lt f2⟩

/-- The next counts below the ceiling (R161). -/
theorem nextCounts_below {x : Context} {bit : Bool} (h : x.total.toNat + 1 < x.maxf.toNat) :
    nextCounts x bit = (x.one.toNat + bit.toNat, x.total.toNat + 1) := by
  unfold nextCounts
  simp only
  rw [if_neg (by omega)]

/-- The next counts at the ceiling (R161, R162). -/
theorem nextCounts_ceiling {x : Context} {bit : Bool} (h : x.maxf.toNat ≤ x.total.toNat + 1) :
    nextCounts x bit = rescale (x.one.toNat + bit.toNat) (x.total.toNat + 1) := by
  unfold nextCounts
  simp only
  rw [if_pos h]

theorem Context.zero_eq (x : Context) : x.zero = x.total.toNat - x.one.toNat := rfl

/-- A well-formed context's two frequencies are positive and sum to TOTAL (R21, R22). -/
theorem Context.Wf.zero_pos {x : Context} (h : x.Wf) : 1 ≤ x.zero ∧ x.zero < x.total.toNat ∧ x.total.toNat < 2 ^ 16 := by
  obtain ⟨h1, h2, h3, h4⟩ := h
  have hm := x.maxf.isLt
  unfold Context.zero
  omega

@[simp] theorem ctxAt_eq (s : State) (c : Nat) : s.ctxAt c = s.ctx[c]? := rfl

/-- A context id names a context exactly when it is below NUM_CTX (R61). -/
theorem ctxAt_none (s : State) (c : Nat) : s.ctxAt c = none ↔ s.ctx.length ≤ c := List.getElem?_eq_none_iff

/-- Writing one context keeps the invariant of the file, if what is written is well-formed (R22). -/
theorem CtxInv.putCtx {s : State} {c : Nat} {x : Context} (h : s.CtxInv) (hx : x.Wf) : (s.putCtx c x).CtxInv := by
  obtain ⟨h1, h2, h3⟩ := h
  refine ⟨by simpa using h1, by simpa using h2, fun y hy => ?_⟩
  rcases List.mem_or_eq_of_mem_set hy with hy | rfl
  · exact h3 y hy
  · exact hx

/-- A context of a machine that meets the invariant is well-formed. -/
theorem CtxInv.wf {s : State} {c : Nat} {x : Context} (h : s.CtxInv) (hc : s.ctx[c]? = some x) : x.Wf :=
  h.2.2 x (List.mem_of_getElem? hc)

/-- The counts CTX_INIT accepts (R165). -/
theorem countsOk_iff (one total maxf : BitVec 16) :
    countsOk one total maxf = true ↔
      2 ≤ maxf.toNat ∧ 1 ≤ one.toNat ∧ one.toNat < total.toNat ∧ total.toNat ≤ maxf.toNat := by
  simp [countsOk, and_assoc]

end Sys2Proof.Machine
end

