-- ==== Sys2Proof/Laws/Encoder.lean ====
section
/-! SUPPORT. What the encoder's procedures can do (42_arith_coder.md R203 to R210): the code value of R224 keeps its place in
the interval, and the carry state of R222 stays resolvable. -/

namespace Sys2Proof.Machine

/-! ## The interval -/

/-- The interval's end from its start and width (R203). -/
theorem high_eq {a : Coder} (h : a.low.toNat ≤ a.high.toNat) : a.high.toNat + 1 = a.low.toNat + a.range := by
  unfold Coder.range; omega

theorem shiftedLow_toNat (a : Coder) : a.shiftedLow.toNat = a.low.toNat % 2 ^ 24 * 2 ^ 8 := by
  unfold Coder.shiftedLow
  rw [BitVec.toNat_ofNat]
  exact Nat.mod_eq_of_lt (by simp only [Config.top, Config.renormUnit]; omega)

/-- What a Shift makes of a narrow interval (R207): its width times 2^8, its start with the top bits dropped. -/
theorem shift_spec {a : Coder} (h : a.low.toNat ≤ a.high.toNat) (hr : a.range < 2 ^ 24) :
    a.shift.low.toNat = a.low.toNat % 2 ^ 24 * 2 ^ 8 ∧ a.shift.range = a.range * 2 ^ 8 ∧
      a.shift.low.toNat ≤ a.shift.high.toNat ∧
      a.shift.high.toNat = a.low.toNat % 2 ^ 24 * 2 ^ 8 + a.range * 2 ^ 8 - 1 := by
  have hw : 1 ≤ a.range := by unfold Coder.range; omega
  have h1 : a.shift.low.toNat = a.low.toNat % 2 ^ 24 * 2 ^ 8 := shiftedLow_toNat a
  have h2 : a.shift.high.toNat = a.low.toNat % 2 ^ 24 * 2 ^ 8 + a.range * 2 ^ 8 - 1 := by
    show (BitVec.ofNat 33 (a.shiftedLow.toNat + a.range * Config.renormUnit - 1)).toNat = _
    rw [BitVec.toNat_ofNat, shiftedLow_toNat]
    exact Nat.mod_eq_of_lt (by simp only [Config.renormUnit]; omega)
  refine ⟨h1, ?_, by omega, h2⟩
  show a.shift.high.toNat + 1 - a.shift.low.toNat = _
  omega

/-- Select narrows the interval to the symbol's part (R205). -/
theorem select_spec {a : Coder} {r0 : Nat} (h : a.low.toNat ≤ a.high.toNat) (h1 : 1 ≤ r0) (h2 : r0 < a.range) (bit : Bool) :
    (a.select r0 bit).low.toNat = a.low.toNat + symbolBase r0 bit ∧
      (a.select r0 bit).range = symbolWidth a.range r0 bit ∧ (a.select r0 bit).low.toNat ≤ (a.select r0 bit).high.toNat ∧
      (a.select r0 bit).high.toNat ≤ a.high.toNat := by
  have hh := high_eq h
  have hi := a.high.isLt
  cases bit
  · have e : (a.select r0 false).high.toNat = a.low.toNat + r0 - 1 := by
      show (BitVec.ofNat 33 _).toNat = _
      rw [BitVec.toNat_ofNat]; exact Nat.mod_eq_of_lt (by omega)
    have e' : (a.select r0 false).low = a.low := rfl
    refine ⟨by simp [e', symbolBase], ?_, ?_, ?_⟩
    · simp only [Coder.range, e, e', symbolWidth]; simp; omega
    · rw [e, e']; omega
    · rw [e]; omega
  · have e : (a.select r0 true).low.toNat = a.low.toNat + r0 := by
      show (BitVec.ofNat 33 _).toNat = _
      rw [BitVec.toNat_ofNat]; exact Nat.mod_eq_of_lt (by omega)
    have e' : (a.select r0 true).high = a.high := rfl
    refine ⟨by simp [e, symbolBase], ?_, ?_, ?_⟩
    · simp only [Coder.range, e, e', symbolWidth] at *; simp; omega
    · rw [e, e']; omega
    · rw [e']

/-- R204, R222(a): a split by legal frequencies leaves neither part narrower than the frequencies allow. -/
theorem split_bounds {r f0 t : Nat} (hf : 1 ≤ f0) (ht : f0 < t) (hr : t ≤ r) :
    1 ≤ split r f0 t ∧ split r f0 t < r := by
  unfold split
  constructor
  · rw [Nat.le_div_iff_mul_le (by omega)]; nlinarith
  · rw [Nat.div_lt_iff_lt_mul (by omega)]; nlinarith

/-! ## The held bytes -/

theorem bitsNat_replicate_ff (n : Nat) :
    bitsNat ((List.replicate n (0xFF : Byte)).flatMap byteBits) + 1 = 2 ^ (8 * n) := by
  induction n with
  | zero => rfl
  | succ n ih =>
    rw [List.replicate_succ, List.flatMap_cons, bitsNat_append, bitsNat_byteBits, flatMap_byteBits_length,
      List.length_replicate, show 8 * (n + 1) = 8 + 8 * n by ring, pow_add]
    have : (0xFF : Byte).toNat = 255 := rfl
    rw [this]; omega

theorem bitsNat_replicate_zero (n : Nat) : bitsNat ((List.replicate n (0 : Byte)).flatMap byteBits) = 0 := by
  induction n with
  | zero => rfl
  | succ n ih =>
    rw [List.replicate_succ, List.flatMap_cons, bitsNat_append, bitsNat_byteBits, ih]; simp

/-- The number the written and held bytes are. -/
def Engine.heldValue (e : Engine) : Nat := bitsNat (e.stream.written ++ e.ac.held.flatMap byteBits)

theorem codeValue_eq (e : Engine) : e.codeValue = e.heldValue * 2 ^ 32 + e.ac.low.toNat := rfl

theorem held_length (a : Coder) : a.held.length = a.cacheValid.toNat + a.pending.toNat := by
  unfold Coder.held
  cases a.cacheValid <;> simp [Nat.add_comm]

/-- The carry of LOW can be resolved (R222(b)). -/
abbrev Coder.Resolvable (a : Coder) : Prop :=
  (a.cacheValid = false → a.low.toNat < 2 ^ 32 ∧ a.pending = 0) ∧ (2 ^ 32 ≤ a.low.toNat → a.cache ≠ 0xFF)

theorem CarryInv.resolvable {a : Coder} (h : a.low.toNat ≤ a.high.toNat) (hc : a.CarryInv) : a.Resolvable := by
  obtain ⟨h1, h2⟩ := hc
  refine ⟨fun hv => ⟨?_, (h1 hv).2⟩, fun hl => h2 ?_⟩
  · have := (h1 hv).1; simp only [Config.codeSpan] at this; omega
  · simp only [Config.codeSpan]; omega

/-! ## EmitTop -/

theorem carry_eq (a : Coder) : a.carry = a.low.toNat / 2 ^ 32 := rfl

theorem topByte_eq (a : Coder) : a.topByte = a.low.toNat / 2 ^ 24 % 2 ^ 8 := rfl

theorem carryByte_toNat (a : Coder) : a.carryByte.toNat = a.carry := by
  have := a.low.isLt
  unfold Coder.carryByte
  rw [BitVec.toNat_setWidth, BitVec.extractLsb'_toNat, Nat.shiftRight_eq_div_pow, carry_eq]
  omega

theorem topByte_bits (a : Coder) : BitVec.ofNat 8 a.topByte = a.low.extractLsb' 24 8 := by
  apply BitVec.eq_of_toNat_eq
  rw [BitVec.toNat_ofNat, BitVec.extractLsb'_toNat, Nat.shiftRight_eq_div_pow, topByte_eq, Nat.mod_mod]

/-- LOW[32] is the carry. -/
theorem carry_bit (a : Coder) : a.carry = (a.low.getLsbD 32).toNat := by
  have := a.low.isLt
  rw [carry_eq, BitVec.getLsbD, Nat.testBit_eq_decide_div_mod_eq]
  rcases (by omega : a.low.toNat / 2 ^ 32 = 0 ∨ a.low.toNat / 2 ^ 32 = 1) with h | h <;> rw [h] <;> simp

theorem top_bits (a : Coder) : a.low.extractLsb' 24 8 = 0xFF ↔ a.topByte = 255 := by
  rw [← topByte_bits, ← BitVec.toNat_inj, BitVec.toNat_ofNat, topByte_eq, Nat.mod_mod]
  rfl

/-- The top byte is held back where no carry is in LOW and the byte is 0xFF (R206). -/
theorem holdsBack_iff (a : Coder) : a.holdsBack = true ↔ a.cacheValid = true ∧ a.carry = 0 ∧ a.topByte = 255 := by
  have := a.low.isLt
  unfold Coder.holdsBack
  rw [Bool.and_eq_true, beq_iff_eq, ← BitVec.toNat_inj, BitVec.extractLsb'_toNat, Nat.shiftRight_eq_div_pow, carry_eq,
    topByte_eq]
  refine and_congr_right fun _ => ?_
  show _ = 255 ↔ _
  omega

/-- The first byte of a block: nothing is written, and it goes to CACHE (R206). -/
theorem Coder.emit_first {a : Coder} (hv : a.cacheValid = false) :
    a.holdsBack = false ∧ a.released = [] ∧
      a.emitted = { a with cache := BitVec.ofNat 8 a.topByte, cacheValid := true, pending := 0 } := by
  have hb : a.holdsBack = false := by unfold Coder.holdsBack; rw [hv]; rfl
  exact ⟨hb, by unfold Coder.released; rw [hv]; rfl, by unfold Coder.emitted; rw [hb, topByte_bits]; rfl⟩

/-- The carry into CACHE is resolved: CACHE and the held bytes are written (R206). -/
theorem Coder.emit_resolved {a : Coder} (hv : a.cacheValid = true) (hs : a.carry = 1 ∨ a.topByte ≠ 255) :
    a.holdsBack = false ∧
      a.released = BitVec.ofNat 8 ((a.cache.toNat + a.carry) % 256) ::
        List.replicate a.pending.toNat (BitVec.ofNat 8 ((0xFF + a.carry) % 256)) ∧
      a.emitted = { a with cache := BitVec.ofNat 8 a.topByte, pending := 0 } := by
  have hb : a.holdsBack = false := by
    rw [← Bool.not_eq_true, holdsBack_iff]
    rintro ⟨-, h0, h1⟩
    omega
  have e (b : Byte) : BitVec.ofNat 8 ((b.toNat + a.carry) % 256) = b + a.carryByte := by
    apply BitVec.eq_of_toNat_eq
    rw [BitVec.toNat_ofNat, BitVec.toNat_add, carryByte_toNat, Nat.mod_mod]
  refine ⟨hb, ?_, ?_⟩
  · unfold Coder.released
    rw [hv, hb, e, show ((0xFF : Nat) + a.carry) % 256 = ((0xFF : Byte).toNat + a.carry) % 256 from rfl, e]
    rfl
  · unfold Coder.emitted
    rw [hb, ← topByte_bits]
    simp [hv]

/-- A later carry may still ripple: nothing is written and one more byte is held back (R206). -/
theorem Coder.emit_held {a : Coder} (hb : a.holdsBack = true) :
    a.released = [] ∧ a.emitted = { a with pending := a.pending + 1 } := by
  unfold Coder.released Coder.emitted
  rw [hb]
  simp

/-- The three cases of EmitTop (R206). -/
theorem Coder.emit_cases (a : Coder) :
    a.cacheValid = false ∨ (a.cacheValid = true ∧ (a.carry = 1 ∨ a.topByte ≠ 255)) ∨ a.holdsBack = true := by
  have := a.low.isLt
  rw [holdsBack_iff]
  cases a.cacheValid
  · exact .inl rfl
  · have : a.carry ≤ 1 := by rw [carry_eq]; omega
    by_cases h0 : a.carry = 0 ∧ a.topByte = 255
    · exact .inr (.inr ⟨rfl, h0⟩)
    · exact .inr (.inl ⟨rfl, by omega⟩)

/-- What an EmitTop leaves where it succeeds (R206): the bytes released are sent, and the carry state moves on. -/
structure Emitted (e e' : Engine) : Prop where
  sent : Sent e.ac.released.length (e.ac.released.flatMap byteBits) e.stream e'.stream
  ac : e'.ac = e.ac.emitted
  counts : e.ac.holdsBack = true → e.ac.pending.toNat + 1 < 2 ^ 32

/-- All EmitTop can do on an unfaulted writer (R206). -/
theorem emitTop_ends {e : Engine} (h : e.stream.CanPut) (he : e.stream.bs.err = none) :
    (∃ e', emitTop e = .done () e' ∧ Emitted e e') ∨
      (∃ x u, emitTop e = .raised x { e with stream := u } ∧ SendErr e.ac.released.length e.stream x u) ∨
      (emitTop e = .overflow ∧ e.ac.holdsBack = true ∧ 2 ^ 32 ≤ e.ac.pending.toNat + 1) := by
  unfold emitTop
  rcases e.ac.emit_cases with hv | ⟨hv, hs⟩ | hb
  · obtain ⟨hb, hr, ha⟩ := Coder.emit_first hv
    exact .inl ⟨_, if_pos hv, by rw [hr]; exact Sent.refl h, ha.symm, by simp [hb]⟩
  · obtain ⟨hb, hr, ha⟩ := Coder.emit_resolved hv hs
    rw [if_neg (by simp [hv]), if_pos hs, hr, List.length_cons, List.length_replicate, Nat.add_comm e.ac.pending.toNat 1]
    have hc : byteBits (BitVec.ofNat 8 ((e.ac.cache.toNat + e.ac.carry) % 256)) =
        lowBits 8 ((e.ac.cache.toNat + e.ac.carry) % 256) := by
      rw [byteBits, BitVec.toNat_ofNat, lowBits_mod _ _ _ (Nat.le_refl _)]
    rcases putByte_ends ((e.ac.cache.toNat + e.ac.carry) % 256) h he with ⟨u, eq, g⟩ | ⟨x, u, eq, g⟩ <;> rw [eq]
    · rw [Coded.andThen_done]
      rcases putRun_ends ((0xFF + e.ac.carry) % 256) e.ac.pending.toNat (e := { e with stream := u }) g.canPut
        (g.err.trans he) with ⟨w, eq', g'⟩ | ⟨x, w, eq', g'⟩
      · refine .inl ⟨{ e with stream := w, ac := e.ac.emitted }, by simp only [eq', Coded.andThen_done, ha], ?_, rfl, by simp [hb]⟩
        rw [hr, List.length_cons, List.length_replicate, Nat.add_comm e.ac.pending.toNat 1, List.flatMap_cons, hc]
        exact g.trans g'
      · exact .inr (.inl ⟨x, w, by simp only [eq', Coded.andThen_raised], g'.after g⟩)
    · exact .inr (.inl ⟨x, u, rfl, g.mono (by omega)⟩)
  · obtain ⟨hv, hc, ht⟩ := (holdsBack_iff _).mp hb
    obtain ⟨hr, ha⟩ := Coder.emit_held hb
    rw [if_neg (by simp [hv]), if_neg (by omega)]
    by_cases hov : e.ac.pending.toNat + 1 < Config.pendingSpan
    · rw [if_pos hov]
      exact .inl ⟨_, rfl, by rw [hr]; exact Sent.refl h, ha.symm, fun _ => hov⟩
    · rw [if_neg hov]
      exact .inr (.inr ⟨rfl, hb, by simp only [Config.pendingSpan] at hov; omega⟩)

/-- EmitTop fills CACHE, and moves nothing but the carry state. -/
theorem Coder.emitted_eq (a : Coder) :
    a.emitted = { a with cache := a.emitted.cache, cacheValid := true, pending := a.emitted.pending } := by
  unfold Coder.emitted
  split
  · next hb => simp [((holdsBack_iff a).mp hb).1]
  · rfl

@[simp] theorem Coder.emitted_low (a : Coder) : a.emitted.low = a.low := by rw [a.emitted_eq]
@[simp] theorem Coder.emitted_high (a : Coder) : a.emitted.high = a.high := by rw [a.emitted_eq]
@[simp] theorem Coder.emitted_cacheValid (a : Coder) : a.emitted.cacheValid = true := by rw [a.emitted_eq]

/-- EmitTop never leaves CACHE = 0xFF where a carry can still reach it, but where CACHE was so before (R222(b)). -/
theorem Coder.emitted_cache (a : Coder) :
    a.emitted.cache ≠ 0xFF ∨ (a.topByte = 255 ∧ (a.low.toNat < 2 ^ 32 → a.cacheValid = true → a.emitted.cache = a.cache)) := by
  have ht8 : a.topByte < 2 ^ 8 := by rw [topByte_eq]; omega
  have hff : BitVec.ofNat 8 a.topByte = (0xFF : Byte) → a.topByte = 255 := fun h => by
    have := congrArg BitVec.toNat h
    rwa [BitVec.toNat_ofNat, Nat.mod_eq_of_lt ht8] at this
  rcases a.emit_cases with hv | ⟨hv, hs⟩ | hb
  · rw [(Coder.emit_first hv).2.2]
    by_cases h : a.topByte = 255
    · exact .inr ⟨h, fun _ hv' => by rw [hv] at hv'; cases hv'⟩
    · exact .inl fun hh => h (hff hh)
  · rw [(Coder.emit_resolved hv hs).2.2]
    by_cases h : a.topByte = 255
    · refine .inr ⟨h, fun hl _ => ?_⟩
      rw [carry_eq] at hs; omega
    · exact .inl fun hh => h (hff hh)
  · rw [(Coder.emit_held hb).2]
    exact .inr ⟨((holdsBack_iff a).mp hb).2.2, fun _ _ => rfl⟩

/-- One more byte is held back, or none. -/
theorem Coder.emitted_pending (a : Coder) : a.emitted.pending.toNat ≤ a.pending.toNat + 1 := by
  unfold Coder.emitted
  split
  · rw [BitVec.toNat_add]; exact Nat.mod_le _ _
  · exact Nat.zero_le _

/-- Each EmitTop adds one byte to what is written or held back (R228). -/
theorem Coder.emit_length {a : Coder} (h : a.cacheValid = false → a.pending = 0)
    (hc : a.holdsBack = true → a.pending.toNat + 1 < 2 ^ 32) :
    a.released.length + a.emitted.held.length = a.held.length + 1 := by
  rw [held_length, held_length]
  rcases a.emit_cases with hv | ⟨hv, hs⟩ | hb
  · obtain ⟨-, hr, ha⟩ := Coder.emit_first hv
    simp [hr, ha, hv, h hv]
  · obtain ⟨-, hr, ha⟩ := Coder.emit_resolved hv hs
    simp [hr, ha, hv]; omega
  · obtain ⟨hr, ha⟩ := Coder.emit_held hb
    have hpn : (a.pending + 1).toNat = a.pending.toNat + 1 := by
      rw [BitVec.toNat_add]; exact Nat.mod_eq_of_lt (hc hb)
    rw [hr, ha, ((holdsBack_iff a).mp hb).1, hpn]; simp; omega

/-- The bytes EmitTop releases and then holds back are those held before and LOW's top byte, with the carry added (R206). -/
theorem Coder.emit_value {a : Coder} (h : a.Resolvable) (hc : a.holdsBack = true → a.pending.toNat + 1 < 2 ^ 32) (w : Nat) :
    (w * 2 ^ (8 * a.released.length) + bitsNat (a.released.flatMap byteBits)) * 2 ^ (8 * a.emitted.held.length) +
        bitsNat (a.emitted.held.flatMap byteBits) =
      (w * 2 ^ (8 * a.held.length) + bitsNat (a.held.flatMap byteBits)) * 2 ^ 8 + a.low.toNat / 2 ^ 24 := by
  have hlow := a.low.isLt
  have htop : a.low.toNat / 2 ^ 24 = a.carry * 2 ^ 8 + a.topByte := by rw [topByte_eq, carry_eq]; omega
  have ht8 : a.topByte < 2 ^ 8 := by rw [topByte_eq]; omega
  have hc1 : a.carry ≤ 1 := by rw [carry_eq]; omega
  have htn : (BitVec.ofNat 8 a.topByte).toNat = a.topByte := by
    rw [BitVec.toNat_ofNat]; exact Nat.mod_eq_of_lt ht8
  have z : (0 : BitVec 32).toNat = 0 := rfl
  have held (n : Nat) : bitsNat ((a.cache :: List.replicate n (0xFF : Byte)).flatMap byteBits) + 1 =
      (a.cache.toNat + 1) * 2 ^ (8 * n) := by
    rw [List.flatMap_cons, bitsNat_append, bitsNat_byteBits, flatMap_byteBits_length, List.length_replicate, Nat.add_assoc,
      bitsNat_replicate_ff]
    ring
  rcases a.emit_cases with hv | ⟨hv, hs⟩ | hb
  · obtain ⟨-, hr, ha⟩ := Coder.emit_first hv
    obtain ⟨hl, hp⟩ := h.1 hv
    have hcz : a.carry = 0 := by rw [carry_eq]; omega
    rw [hr, ha, htop, hcz]
    simp [Coder.held, hv, hp, bitsNat_byteBits, htn]
  · obtain ⟨-, hr, ha⟩ := Coder.emit_resolved hv hs
    have e1 : a.held = a.cache :: List.replicate a.pending.toNat 0xFF := by unfold Coder.held; rw [hv]; rfl
    have e2 : a.emitted.held = [BitVec.ofNat 8 a.topByte] := by rw [ha]; unfold Coder.held; simp [hv]
    have hd := held a.pending.toNat
    rw [e1, e2, hr, htop]
    simp only [List.length_cons, List.length_replicate, List.length_nil, List.flatMap_cons, List.flatMap_nil, List.append_nil,
      bitsNat_append, bitsNat_byteBits, flatMap_byteBits_length, htn] at hd ⊢
    rcases Nat.le_one_iff_eq_zero_or_eq_one.mp hc1 with hc | hc
    · have hcl := a.cache.isLt
      rw [hc, show BitVec.ofNat 8 ((0xFF + 0) % 256) = (0xFF : Byte) from rfl, BitVec.toNat_ofNat,
        show (a.cache.toNat + 0) % 256 % 2 ^ 8 = a.cache.toNat by omega]
      ring
    · have hne := h.2 (by rw [carry_eq] at hc; omega)
      have hcl : a.cache.toNat + 1 < 2 ^ 8 := by
        have := a.cache.isLt
        have : a.cache.toNat ≠ 255 := fun h => hne (BitVec.eq_of_toNat_eq h)
        omega
      rw [hc, show BitVec.ofNat 8 ((0xFF + 1) % 256) = (0 : Byte) from rfl, BitVec.toNat_ofNat, bitsNat_replicate_zero,
        show (a.cache.toNat + 1) % 256 % 2 ^ 8 = a.cache.toNat + 1 by omega, ← hd]
      ring
  · obtain ⟨hr, ha⟩ := Coder.emit_held hb
    obtain ⟨hv, hcz, htt⟩ := (holdsBack_iff a).mp hb
    have hpn : (a.pending + 1).toNat = a.pending.toNat + 1 := by
      rw [BitVec.toNat_add]; exact Nat.mod_eq_of_lt (hc hb)
    have e1 : a.held = a.cache :: List.replicate a.pending.toNat 0xFF := by unfold Coder.held; rw [hv]; rfl
    have e2 : a.emitted.held = a.cache :: List.replicate (a.pending.toNat + 1) 0xFF := by
      rw [ha]; unfold Coder.held; rw [← hpn]; simp [hv]
    have h1 := held a.pending.toNat
    have h2 := held (a.pending.toNat + 1)
    rw [e1, e2, hr, htop, hcz, htt]
    simp only [List.length_cons, List.length_replicate, List.length_nil, List.flatMap_nil, bitsNat_nil] at h1 h2 ⊢
    have e8 : 2 ^ (8 * (a.pending.toNat + 1)) = 2 ^ (8 * a.pending.toNat) * 2 ^ 8 := by
      rw [← pow_add]; congr 1
    have e9 : 2 ^ (8 * (a.pending.toNat + 1 + 1)) = 2 ^ (8 * (a.pending.toNat + 1)) * 2 ^ 8 := by
      rw [← pow_add]; congr 1
    rw [e8] at h2
    rw [e9, e8]
    generalize bitsNat ((a.cache :: List.replicate a.pending.toNat 0xFF).flatMap byteBits) = x at *
    generalize bitsNat ((a.cache :: List.replicate (a.pending.toNat + 1) 0xFF).flatMap byteBits) = y at *
    generalize 2 ^ (8 * a.pending.toNat) = q at *
    have hy : y + 1 = (x + 1) * 2 ^ 8 := by rw [h2, h1]; ring
    have : y = x * 2 ^ 8 + 255 := by omega
    rw [this]; ring

/-- EmitTop takes LOW's top byte and carry into the number that the written and held bytes are (R206, R224). -/
theorem Emitted.value {e e' : Engine} (g : Emitted e e') (h : e.ac.Resolvable) :
    e'.heldValue = e.heldValue * 2 ^ 8 + e.ac.low.toNat / 2 ^ 24 := by
  have := Coder.emit_value h g.counts (bitsNat e.stream.written)
  unfold Engine.heldValue
  rw [g.ac, g.sent.written, bitsNat_append, bitsNat_append, bitsNat_append]
  simp only [flatMap_byteBits_length]
  exact this

/-- Each EmitTop adds one byte to what is written or held (R228). -/
theorem Emitted.bits {e e' : Engine} (g : Emitted e e') (h : e.ac.Resolvable) : e'.codeBits = e.codeBits + 8 := by
  have := Coder.emit_length (fun hv => (h.1 hv).2) g.counts
  have hw := congrArg List.length g.sent.written
  rw [List.length_append, flatMap_byteBits_length] at hw
  unfold Engine.codeBits
  rw [g.ac, hw]; omega

/-! ## Renormalization -/

/-- `k` is the number of renormalization steps a width of `w` takes (R208, R209). -/
abbrev Steps (k w : Nat) : Prop := 2 ^ 24 ≤ w * 2 ^ (8 * k) ∧ ∀ j < k, w * 2 ^ (8 * j) < 2 ^ 24

/-- R223: a width of at least 2^8 takes at most two steps. -/
theorem renormCount_steps {w : Nat} (h : 2 ^ 8 ≤ w) : Steps (renormCount w) w ∧ renormCount w ≤ 2 := by
  unfold renormCount
  split
  · exact ⟨⟨by simpa, fun j hj => by omega⟩, by omega⟩
  · split
    · refine ⟨⟨by omega, fun j hj => ?_⟩, by omega⟩
      obtain rfl : j = 0 := by omega
      omega
    · refine ⟨⟨by omega, fun j hj => ?_⟩, by omega⟩
      rcases (by omega : j = 0 ∨ j = 1) with rfl | rfl <;> omega

theorem Steps.tail {k w : Nat} (h : Steps (k + 1) w) : w < 2 ^ 24 ∧ Steps k (w * 2 ^ 8) := by
  refine ⟨by simpa using h.2 0 (by omega), ?_, fun j hj => ?_⟩
  · have := h.1
    rwa [show 8 * (k + 1) = 8 + 8 * k by ring, pow_add, ← Nat.mul_assoc] at this
  · have := h.2 (j + 1) (by omega)
    rwa [show 8 * (j + 1) = 8 + 8 * j by ring, pow_add, ← Nat.mul_assoc] at this

/-- A width has one number of steps. -/
theorem Steps.unique {k m w : Nat} (h : Steps k w) (h' : Steps m w) : k = m := by
  rcases Nat.lt_trichotomy k m with hl | rfl | hl
  · have := h'.2 k hl; have := h.1; omega
  · rfl
  · have := h.2 m hl; have := h'.1; omega

/-- Where `k` steps leave LOW (R207): times 2^8 for each, the bits above the window dropped. -/
def steppedLow (k low : Nat) : Nat := if k = 0 then low else low * 2 ^ (8 * k) % 2 ^ 32

theorem steppedLow_succ (k low : Nat) : steppedLow k (low % 2 ^ 24 * 2 ^ 8) = steppedLow (k + 1) low := by
  unfold steppedLow
  have e : low % 2 ^ 24 * 2 ^ 8 = low * 2 ^ 8 % 2 ^ 32 := by omega
  rw [if_neg (by omega : ¬ k + 1 = 0), e, show 8 * (k + 1) = 8 + 8 * k by ring, pow_add, ← Nat.mul_assoc]
  split
  · next h => subst h; simp
  · rw [Nat.mod_mul_mod]

/-! ## Rounds of EmitTop -/

/-- HIGH takes no part in EmitTop. -/
theorem Coder.emitted_withHigh (a : Coder) (h : BitVec 33) :
    Coder.emitted { a with high := h } = { a.emitted with high := h } := by
  have e : Coder.holdsBack { a with high := h } = a.holdsBack := rfl
  unfold Coder.emitted
  rw [e]
  cases a.holdsBack <;> rfl

theorem Coder.rounds_withHigh (k : Nat) (a : Coder) (h : BitVec 33) :
    Coder.rounds k { a with high := h } = { a.rounds k with high := h } ∧
      Coder.roundBytes k { a with high := h } = a.roundBytes k := by
  induction k generalizing a with
  | zero => exact ⟨rfl, rfl⟩
  | succ k ih =>
    have e : ({ Coder.emitted { a with high := h } with low := Coder.shiftedLow { a with high := h } } : Coder) =
        { ({ a.emitted with low := a.shiftedLow } : Coder) with high := h } := by rw [Coder.emitted_withHigh]; rfl
    unfold Coder.rounds Coder.roundBytes
    rw [e, (ih _).1, (ih _).2]
    exact ⟨rfl, rfl⟩

/-- A carry state without HIGH: PENDING is counted the same. -/
theorem Coder.keepsCount_withHigh {k : Nat} {a : Coder} {h : BitVec 33} :
    Coder.KeepsCount { a with high := h } k ↔ a.KeepsCount k := by
  have e (j : Nat) : (Coder.rounds j { a with high := h }).holdsBack = (a.rounds j).holdsBack ∧
      (Coder.rounds j { a with high := h }).pending = (a.rounds j).pending := by
    rw [(Coder.rounds_withHigh j a h).1]; exact ⟨rfl, rfl⟩
  unfold Coder.KeepsCount
  simp only [(e _).1, (e _).2]

/-- The first round, then the others. -/
theorem Coder.keepsCount_succ {k : Nat} {a : Coder} : a.KeepsCount (k + 1) ↔
    (a.holdsBack = true → a.pending.toNat + 1 < 2 ^ 32) ∧ Coder.KeepsCount { a.emitted with low := a.shiftedLow } k := by
  constructor
  · exact fun h => ⟨h 0 (by omega), fun j hj => h (j + 1) (by omega)⟩
  · rintro ⟨h0, h⟩ j hj
    cases j with
    | zero => exact h0
    | succ j => exact h j (by omega)

/-- After a round nothing stands in the way of the next carry: LOW is below 2^32 and CACHE is filled. -/
theorem Coder.round_resolvable (a : Coder) : Coder.Resolvable { a.emitted with low := a.shiftedLow } := by
  refine ⟨fun h => ?_, fun h => ?_⟩
  · rw [show a.emitted.cacheValid = true from a.emitted_cacheValid] at h; cases h
  · have := shiftedLow_toNat a
    simp only at h
    omega

/-- Where `k` rounds leave LOW (R207). -/
theorem Coder.rounds_low (k : Nat) (a : Coder) : (a.rounds k).low.toNat = steppedLow k a.low.toNat := by
  induction k generalizing a with
  | zero => rfl
  | succ k ih => rw [Coder.rounds, ih, ← steppedLow_succ]; simp only; rw [shiftedLow_toNat]

/-- Rounds of EmitTop move LOW and the carry state only. -/
theorem Coder.rounds_eq (k : Nat) (a : Coder) : a.rounds k = { a with
    low := (a.rounds k).low, cache := (a.rounds k).cache, cacheValid := (a.rounds k).cacheValid
    pending := (a.rounds k).pending } := by
  induction k generalizing a with
  | zero => rfl
  | succ k ih =>
    rw [Coder.rounds, ih, a.emitted_eq]

theorem Coder.rounds_cacheValid {k : Nat} {a : Coder} (h : a.cacheValid = true ∨ 1 ≤ k) : (a.rounds k).cacheValid = true := by
  induction k generalizing a with
  | zero => exact h.resolve_right (by omega)
  | succ k ih => exact ih (.inl a.emitted_cacheValid)

/-- Each round counts one held byte at most. -/
theorem Coder.rounds_pending (k : Nat) (a : Coder) : (a.rounds k).pending.toNat ≤ a.pending.toNat + k := by
  induction k generalizing a with
  | zero => exact Nat.le_refl _
  | succ k ih =>
    have := ih { a.emitted with low := a.shiftedLow }
    have := a.emitted_pending
    rw [Coder.rounds]
    simp only at *
    omega

/-- With PENDING well below its limit no round passes it (X3). -/
theorem Coder.keepsCount_of_lt {k : Nat} {a : Coder} (h : a.pending.toNat + k < 2 ^ 32) : a.KeepsCount k := fun j hj _ => by
  have := a.rounds_pending j
  omega

/-- The bytes rounds write: what was held back before them, and one for each round but the last (R228). -/
theorem Coder.roundBytes_length (k : Nat) (a : Coder) :
    (a.roundBytes k).length ≤ a.cacheValid.toNat + a.pending.toNat + (k - 1) := by
  have one (a : Coder) : a.released.length + a.emitted.pending.toNat ≤ a.cacheValid.toNat + a.pending.toNat := by
    rcases a.emit_cases with hv | ⟨hv, hs⟩ | hb
    · obtain ⟨-, hr, ha⟩ := Coder.emit_first hv
      simp [hr, ha]
    · obtain ⟨-, hr, ha⟩ := Coder.emit_resolved hv hs
      simp [hr, ha, hv, Nat.add_comm]
    · have := a.emitted_pending
      rw [(Coder.emit_held hb).1, ((holdsBack_iff a).mp hb).1, List.length_nil, Bool.toNat_true]
      omega
  induction k generalizing a with
  | zero => exact Nat.zero_le _
  | succ k ih =>
    have h1 := one a
    have h2 := ih { a.emitted with low := a.shiftedLow }
    rw [show ({ a.emitted with low := a.shiftedLow } : Coder).cacheValid = true from a.emitted_cacheValid] at h2
    change _ ≤ 1 + a.emitted.pending.toNat + (k - 1) at h2
    rw [Coder.roundBytes, List.length_append]
    cases k with
    | zero => simp only [Coder.roundBytes, List.length_nil]; omega
    | succ k => omega

/-- Rounds add one byte each to what is written or held back (R228). -/
theorem Coder.rounds_length {k : Nat} {a : Coder} (h : a.Resolvable) (hc : a.KeepsCount k) :
    (a.roundBytes k).length + (a.rounds k).held.length = a.held.length + k := by
  induction k generalizing a with
  | zero => exact Nat.zero_add _
  | succ k ih =>
    obtain ⟨hc0, hc⟩ := Coder.keepsCount_succ.mp hc
    have h1 := Coder.emit_length (fun hv => (h.1 hv).2) hc0
    have h2 := ih a.round_resolvable hc
    have e : Coder.held { a.emitted with low := a.shiftedLow } = a.emitted.held := rfl
    rw [Coder.roundBytes, Coder.rounds, List.length_append]
    rw [e] at h2
    omega

/-- The integer that the bits `w`, then the held bytes, then LOW are (R224). -/
def Coder.valueAfter (a : Coder) (w : List Bool) : Nat := bitsNat (w ++ a.held.flatMap byteBits) * 2 ^ 32 + a.low.toNat

/-- Rounds put the code value at 2^8 times the scale each (R206, R207, R224). -/
theorem Coder.rounds_value {k : Nat} {a : Coder} (h : a.Resolvable) (hc : a.KeepsCount k) (w : List Bool) :
    (a.rounds k).valueAfter (w ++ (a.roundBytes k).flatMap byteBits) = a.valueAfter w * 2 ^ (8 * k) := by
  induction k generalizing a w with
  | zero => simp [Coder.rounds, Coder.roundBytes]
  | succ k ih =>
    obtain ⟨hc0, hc⟩ := Coder.keepsCount_succ.mp hc
    have h1 := Coder.emit_value h hc0 (bitsNat w)
    have h2 := ih a.round_resolvable hc (w ++ a.released.flatMap byteBits)
    rw [Coder.rounds, Coder.roundBytes, List.flatMap_append, ← List.append_assoc, h2]
    have e : Coder.valueAfter { a.emitted with low := a.shiftedLow } (w ++ a.released.flatMap byteBits) =
        a.valueAfter w * 2 ^ 8 := by
      unfold Coder.valueAfter
      have eh : Coder.held { a.emitted with low := a.shiftedLow } = a.emitted.held := rfl
      rw [eh]
      simp only
      rw [bitsNat_append, bitsNat_append, bitsNat_append, flatMap_byteBits_length, flatMap_byteBits_length,
        flatMap_byteBits_length, h1, shiftedLow_toNat]
      have := Nat.div_add_mod a.low.toNat (2 ^ 24)
      omega
    rw [e, Nat.mul_assoc, ← pow_add]
    congr 2; ring

/-- What `k` rounds of EmitTop leave of the engine where they succeed (R206 to R208, R210): the bytes they release are sent,
and LOW and the carry state are theirs. HIGH is its caller's. -/
structure Rounds (k : Nat) (e e' : Engine) : Prop where
  sent : Sent (e.ac.roundBytes k).length ((e.ac.roundBytes k).flatMap byteBits) e.stream e'.stream
  ac : e'.ac = { e.ac.rounds k with high := e'.ac.high }
  counts : e.ac.KeepsCount k

theorem Rounds.refl {e : Engine} (h : e.stream.CanPut) : Rounds 0 e e := ⟨Sent.refl h, rfl, fun j hj => by omega⟩

/-- One round, then `k` more; HIGH may be set between them. -/
theorem Emitted.rounds {k : Nat} {e e' e'' : Engine} {high : BitVec 33} (g : Emitted e e')
    (h : Rounds k { e' with ac := { e'.ac with low := e'.ac.shiftedLow, high := high } } e'') : Rounds (k + 1) e e'' := by
  have ha : ({ e'.ac with low := e'.ac.shiftedLow, high := high } : Coder) =
      { ({ e.ac.emitted with low := e.ac.shiftedLow } : Coder) with high := high } := by
    rw [g.ac]
    simp only [Coder.mk.injEq, true_and, and_true]
    unfold Coder.shiftedLow
    rw [Coder.emitted_low]
  obtain ⟨r1, r2⟩ := Coder.rounds_withHigh k { e.ac.emitted with low := e.ac.shiftedLow } high
  have hs := h.sent
  have hc := h.ac
  have hk := h.counts
  rw [ha, r2] at hs
  rw [ha, r1] at hc
  rw [ha, Coder.keepsCount_withHigh] at hk
  refine ⟨?_, hc, Coder.keepsCount_succ.mpr ⟨g.counts, hk⟩⟩
  rw [Coder.roundBytes, List.length_append, List.flatMap_append]
  exact g.sent.trans hs

theorem Rounds.low {k : Nat} {e e' : Engine} (g : Rounds k e e') : e'.ac.low.toNat = steppedLow k e.ac.low.toNat := by
  rw [g.ac]; exact Coder.rounds_low k _

theorem Rounds.value {k : Nat} {e e' : Engine} (g : Rounds k e e') (h : e.ac.Resolvable) :
    e'.codeValue = e.codeValue * 2 ^ (8 * k) := by
  have := Coder.rounds_value h g.counts e.stream.written
  rw [codeValue_eq, codeValue_eq]
  unfold Engine.heldValue
  rw [g.ac, g.sent.written]
  exact this

theorem Rounds.bits {k : Nat} {e e' : Engine} (g : Rounds k e e') (h : e.ac.Resolvable) :
    e'.codeBits = e.codeBits + 8 * k := by
  have := Coder.rounds_length h g.counts
  have hw := congrArg List.length g.sent.written
  rw [List.length_append, flatMap_byteBits_length] at hw
  have eh : e'.ac.held = (e.ac.rounds k).held := by rw [g.ac]; rfl
  unfold Engine.codeBits
  rw [eh, hw]; omega

/-- Which of the coder's registers rounds of EmitTop can have moved. -/
theorem Rounds.moved {k : Nat} {e e' : Engine} (g : Rounds k e e') : e'.ac = { e.ac with
    low := e'.ac.low, high := e'.ac.high, cache := e'.ac.cache, cacheValid := e'.ac.cacheValid, pending := e'.ac.pending } := by
  rw [g.ac, Coder.rounds_eq]

/-! ## The encoder's renormalization -/

/-- What `k` renormalization steps of the encoder leave (R208, R223). -/
structure Renormed (k : Nat) (e e' : Engine) : Prop where
  rounds : Rounds k e e'
  range : e'.ac.range = e.ac.range * 2 ^ (8 * k)
  ordered : e'.ac.low.toNat ≤ e'.ac.high.toNat
  carry : e'.ac.CarryInv

/-- An encoder that can go on: an unfaulted writer, an interval that is not empty, a carry state that can be resolved. -/
structure CanEncode (e : Engine) : Prop where
  canPut : e.stream.CanPut
  err : e.stream.bs.err = none
  ordered : e.ac.low.toNat ≤ e.ac.high.toNat
  carry : e.ac.CarryInv

theorem CanEncode.resolvable {e : Engine} (h : CanEncode e) : e.ac.Resolvable := CarryInv.resolvable h.ordered h.carry

/-- The Shift after an EmitTop widens the interval, and no carry can meet CACHE = 0xFF (R207, R222(b)). -/
theorem Emitted.shift {e e' : Engine} (h : CanEncode e) (hr : e.ac.range < 2 ^ 24) (g : Emitted e e') :
    e'.ac.shift.range = e.ac.range * 2 ^ 8 ∧ CanEncode { e' with ac := e'.ac.shift } := by
  have hac := g.ac
  have hl : e'.ac.low = e.ac.low := by rw [hac, Coder.emitted_low]
  have hh : e'.ac.high = e.ac.high := by rw [hac, Coder.emitted_high]
  have hv : e'.ac.cacheValid = true := by rw [hac, Coder.emitted_cacheValid]
  have hrg : e'.ac.range = e.ac.range := by unfold Coder.range; rw [hl, hh]
  obtain ⟨s1, s2, s3, s4⟩ := shift_spec (a := e'.ac) (by rw [hl, hh]; exact h.ordered) (by rw [hrg]; exact hr)
  rw [hl] at s1 s4
  rw [hrg] at s2 s4
  have hend := high_eq h.ordered
  have hhi := e.ac.high.isLt
  refine ⟨s2, g.sent.canPut, g.sent.err.trans h.err, s3, fun hv' => ?_, fun hge => ?_⟩
  · rw [Coder.shift_cacheValid, hv] at hv'; cases hv'
  · rw [Coder.shift_cache, hac]
    rw [s4] at hge
    simp only [Config.codeSpan] at hge
    rcases e.ac.emitted_cache with hc | ⟨ht, hc⟩
    · exact hc
    · rw [topByte_eq] at ht
      have h32 : e.ac.low.toNat < 2 ^ 32 := by omega
      have hge' : 2 ^ 32 ≤ e.ac.high.toNat := by omega
      by_cases hcv : e.ac.cacheValid = true
      · rw [hc h32 hcv]; exact h.carry.2 hge'
      · have := (h.carry.1 (by simpa using hcv)).1
        simp only [Config.codeSpan] at this; omega

/-- All EncRenorm can do where `k` of at most `n` steps are needed (R208). -/
theorem encRenorm_ends {k : Nat} (n : Nat) {e : Engine} (hk : k ≤ n) (h : CanEncode e) (hs : Steps k e.ac.range) :
    (∃ e', encRenorm n e = .done () e' ∧ Renormed k e e') ∨
      (∃ x e', encRenorm n e = .raised x e' ∧ SendErr (e.ac.roundBytes k).length e.stream x e'.stream ∧
        e'.ac = { e.ac with
          low := e'.ac.low, high := e'.ac.high, cache := e'.ac.cache, cacheValid := e'.ac.cacheValid
          pending := e'.ac.pending }) ∨
      (encRenorm n e = .overflow ∧ ¬ e.ac.KeepsCount k) := by
  induction k generalizing n e with
  | zero =>
    have hr : ¬ e.ac.range < Config.top := by simp only [Config.top]; have := hs.1; omega
    refine .inl ⟨e, ?_, Rounds.refl h.canPut, by simp, h.ordered, h.carry⟩
    cases n <;> rw [encRenorm, if_neg hr]
  | succ k ih =>
    obtain ⟨n, rfl⟩ : ∃ m, n = m + 1 := ⟨n - 1, by omega⟩
    obtain ⟨hr, hs'⟩ := hs.tail
    rw [encRenorm, if_pos hr]
    rcases emitTop_ends h.canPut h.err with ⟨e', eq, g⟩ | ⟨x, u, eq, g⟩ | ⟨eq, hb, hp⟩ <;> rw [eq]
    · obtain ⟨g1, h1⟩ := g.shift h hr
      have ha : e'.ac.shift = { ({ e.ac.emitted with low := e.ac.shiftedLow } : Coder) with high := e'.ac.shift.high } := by
        rw [g.ac]
        have : e.ac.emitted.shiftedLow = e.ac.shiftedLow := by unfold Coder.shiftedLow; rw [Coder.emitted_low]
        rw [← this]; rfl
      rw [Coded.andThen_done]
      rcases ih n (by omega) h1 (by simp only; rw [g1]; exact hs') with
        ⟨e'', eq'', g2⟩ | ⟨x, e'', eq'', g2, hac⟩ | ⟨eq'', g2⟩
      · refine .inl ⟨e'', eq'', g.rounds (high := e'.ac.shift.high) g2.rounds, ?_, g2.ordered, g2.carry⟩
        rw [g2.range]
        simp only
        rw [g1, Nat.mul_assoc, ← pow_add]; congr 2; ring
      · refine .inr (.inl ⟨x, e'', eq'', ?_, ?_⟩)
        · simp only at g2
          rw [ha, (Coder.rounds_withHigh _ _ _).2] at g2
          rw [Coder.roundBytes, List.length_append]
          exact g2.after g.sent
        · rw [hac]
          simp only
          rw [ha, e.ac.emitted_eq]
      · refine .inr (.inr ⟨eq'', fun hk => g2 ?_⟩)
        simp only
        rw [ha, Coder.keepsCount_withHigh]
        exact (Coder.keepsCount_succ.mp hk).2
    · refine .inr (.inl ⟨x, _, rfl, g.mono ?_, rfl⟩)
      rw [Coder.roundBytes, List.length_append]; omega
    · refine .inr (.inr ⟨rfl, fun hk => ?_⟩)
      have := (Coder.keepsCount_succ.mp hk).1 hb
      omega

/-! ## One symbol -/

/-- The encoder's engine once LOW has moved to the start of the symbol's part. -/
abbrev Engine.atSymbol (e : Engine) (r0 : Nat) (bit : Bool) : Engine := { e with ac := e.ac.atSymbol r0 bit }

/-- What one symbol of the encoder leaves (R205 to R208): the selected part, renormalized by `k` steps. -/
structure SymbolEncoded (k r0 : Nat) (bit : Bool) (e e' : Engine) : Prop where
  rounds : Rounds k (e.atSymbol r0 bit) e'
  range : e'.ac.range = symbolWidth e.ac.range r0 bit * 2 ^ (8 * k)
  low : e'.ac.low.toNat = steppedLow k (e.ac.low.toNat + symbolBase r0 bit)
  value : e'.codeValue = (e.codeValue + symbolBase r0 bit) * 2 ^ (8 * k)
  bits : e'.codeBits = e.codeBits + 8 * k
  can : CanEncode e'

/-- The registers a symbol of the encoder can have moved. -/
theorem SymbolEncoded.ac {k r0 : Nat} {bit : Bool} {e e' : Engine} (g : SymbolEncoded k r0 bit e e') : e'.ac = { e.ac with
    low := e'.ac.low, high := e'.ac.high, cache := e'.ac.cache, cacheValid := e'.ac.cacheValid, pending := e'.ac.pending } :=
  g.rounds.moved

/-- Select moves LOW to the start of the symbol's part, and HIGH to its end (R205). -/
theorem select_eq (a : Coder) (r0 : Nat) (bit : Bool) :
    a.select r0 bit = { a.atSymbol r0 bit with high := (a.select r0 bit).high } := by
  cases bit <;> simp [Coder.select, symbolBase, BitVec.ofNat_add]

/-- Selecting a part keeps an encoder able to go on (R205, R222). -/
theorem CanEncode.select {e : Engine} (h : CanEncode e) {r0 : Nat} (h1 : 1 ≤ r0) (h2 : r0 < e.ac.range) (bit : Bool) :
    CanEncode { e with ac := e.ac.select r0 bit } := by
  obtain ⟨s1, s2, s3, s4⟩ := select_spec h.ordered h1 h2 bit
  refine ⟨h.canPut, h.err, s3, fun hv => ?_, fun hv => ?_⟩
  · rw [Coder.select_cacheValid] at hv
    have := h.carry.1 hv
    exact ⟨by have := this.1; simp only at s4 ⊢; omega, by simpa using this.2⟩
  · rw [Coder.select_cache]
    exact h.carry.2 (by simp only at s4 hv ⊢; omega)

/-- All the coding of one symbol can do (R205 to R208, R212, R213). -/
theorem encodeSymbol_ends {f0 t k : Nat} {bit : Bool} {e : Engine} (h : CanEncode e) (h1 : 1 ≤ split e.ac.range f0 t)
    (h2 : split e.ac.range f0 t < e.ac.range) (hk : k ≤ 3)
    (hs : Steps k (symbolWidth e.ac.range (split e.ac.range f0 t) bit)) :
    (∃ e', encodeSymbol f0 t bit e = .done () e' ∧ SymbolEncoded k (split e.ac.range f0 t) bit e e') ∨
      (∃ x e', encodeSymbol f0 t bit e = .raised x e' ∧
        SendErr ((e.ac.atSymbol (split e.ac.range f0 t) bit).roundBytes k).length e.stream x e'.stream ∧
        e'.ac = { e.ac with
          low := e'.ac.low, high := e'.ac.high, cache := e'.ac.cache, cacheValid := e'.ac.cacheValid
          pending := e'.ac.pending }) ∨
      (encodeSymbol f0 t bit e = .overflow ∧ ¬ (e.ac.atSymbol (split e.ac.range f0 t) bit).KeepsCount k) := by
  unfold encodeSymbol
  generalize split e.ac.range f0 t = r0 at *
  have hc := h.select h1 h2 bit
  obtain ⟨s1, s2, -, -⟩ := select_spec h.ordered h1 h2 bit
  obtain ⟨r1, r2⟩ := Coder.rounds_withHigh k (e.ac.atSymbol r0 bit) (e.ac.select r0 bit).high
  have hlow : (e.ac.atSymbol r0 bit).low.toNat = e.ac.low.toNat + symbolBase r0 bit := by rw [← s1, select_eq]
  have hsel : ({ e with ac := e.ac.select r0 bit } : Engine).codeValue = e.codeValue + symbolBase r0 bit := by
    have eh : ({ e with ac := e.ac.select r0 bit } : Engine).heldValue = e.heldValue := by
      unfold Engine.heldValue; rw [select_eq]; rfl
    rw [codeValue_eq, codeValue_eq, eh]
    simp only
    rw [s1]; omega
  have hbits : ({ e with ac := e.ac.select r0 bit } : Engine).codeBits = e.codeBits := by
    unfold Engine.codeBits; rw [select_eq]; rfl
  rcases encRenorm_ends Config.renormSteps (by simpa using hk) hc (by rw [s2]; exact hs) with
    ⟨e', eq, g⟩ | ⟨x, e', eq, g, ha⟩ | ⟨eq, g⟩
  · have gr := g.rounds
    refine .inl ⟨e', eq, ⟨?_, ?_, ?_⟩, by rw [g.range, s2], by rw [gr.low, s1], by rw [gr.value hc.resolvable, hsel],
      by rw [gr.bits hc.resolvable, hbits], gr.sent.canPut, gr.sent.err.trans h.err, g.ordered, g.carry⟩
    · have := gr.sent
      simp only at this
      rw [select_eq, r2] at this
      exact this
    · have := gr.ac
      simp only at this
      rw [select_eq, r1] at this
      exact this
    · have := gr.counts
      simp only at this
      rw [select_eq, Coder.keepsCount_withHigh] at this
      exact this
  · refine .inr (.inl ⟨x, e', eq, ?_, ?_⟩)
    · simp only at g
      rw [select_eq, r2] at g
      exact g
    · rw [ha, select_eq]
  · refine .inr (.inr ⟨eq, fun hk => g ?_⟩)
    simp only
    rw [select_eq, Coder.keepsCount_withHigh]
    exact hk

/-- R222(a): on a well-formed context neither part of a wide interval is narrower than 2^8. -/
theorem split_wf {r : Nat} {x : Context} (hr : 2 ^ 24 ≤ r) (hx : x.Wf) :
    2 ^ 8 ≤ split r x.zero x.total.toNat ∧ split r x.zero x.total.toNat + 2 ^ 8 ≤ r := by
  obtain ⟨h1, h2, h3⟩ := hx.zero_pos
  unfold split
  generalize x.total.toNat = t at *
  have hm : r ≤ r * x.zero := Nat.le_mul_of_pos_right _ h1
  have hd := Nat.div_add_mod (r * x.zero) t
  have hz : r * x.zero + r ≤ r * t := by rw [← Nat.mul_succ]; exact Nat.mul_le_mul_left _ h2
  constructor
  · rw [Nat.le_div_iff_mul_le (by omega)]; omega
  · generalize r * x.zero / t = q at *
    by_contra hc
    have h5 : r * t ≤ (q + 255) * t := Nat.mul_le_mul_right _ (by omega)
    have e4 : (q + 255) * t = t * q + 255 * t := by ring
    omega

/-- The width of either symbol's part, from the bounds on the split (R222(a)). -/
theorem symbolWidth_bounds {r r0 w : Nat} (h1 : w ≤ r0) (h2 : r0 + w ≤ r) (bit : Bool) :
    w ≤ symbolWidth r r0 bit ∧ symbolWidth r r0 bit + w ≤ r := by
  unfold symbolWidth
  cases bit
  · exact ⟨h1, h2⟩
  · simp only [if_true]; omega

/-! ## The flush -/

/-- All the rounds of EncFlush can do (R210). -/
theorem flushRounds_ends (n : Nat) {e : Engine} (h : e.stream.CanPut) (he : e.stream.bs.err = none) :
    (∃ e', flushRounds n e = .done () e' ∧ Rounds n e e' ∧ e'.ac.high = e.ac.high) ∨
      (∃ x e', flushRounds n e = .raised x e' ∧ SendErr (e.ac.roundBytes n).length e.stream x e'.stream ∧
        e'.ac = { e.ac with
          low := e'.ac.low, cache := e'.ac.cache, cacheValid := e'.ac.cacheValid, pending := e'.ac.pending }) ∨
      (flushRounds n e = .overflow ∧ ¬ e.ac.KeepsCount n) := by
  induction n generalizing e with
  | zero => exact .inl ⟨e, rfl, Rounds.refl h, rfl⟩
  | succ n ih =>
    rw [flushRounds]
    rcases emitTop_ends h he with ⟨e', eq, g⟩ | ⟨x, u, eq, g⟩ | ⟨eq, hb, hp⟩ <;> rw [eq]
    · have ha : ({ e'.ac with low := e'.ac.shiftedLow } : Coder) = { e.ac.emitted with low := e.ac.shiftedLow } := by
        rw [g.ac]
        simp only [Coder.mk.injEq, true_and, and_true]
        unfold Coder.shiftedLow
        rw [Coder.emitted_low]
      rw [Coded.andThen_done]
      rcases ih (e := { e' with ac := { e'.ac with low := e'.ac.shiftedLow } }) g.sent.canPut (g.sent.err.trans he) with
        ⟨e2, eq2, g2, hh⟩ | ⟨x, e2, eq2, g2, hac⟩ | ⟨eq2, g2⟩
      · refine .inl ⟨e2, eq2, g.rounds (high := e'.ac.high) g2, ?_⟩
        rw [hh]
        simp only
        rw [g.ac, Coder.emitted_high]
      · refine .inr (.inl ⟨x, e2, eq2, ?_, ?_⟩)
        · simp only at g2
          rw [ha] at g2
          rw [Coder.roundBytes, List.length_append]
          exact g2.after g.sent
        · rw [hac]
          simp only
          rw [g.ac, e.ac.emitted_eq]
      · refine .inr (.inr ⟨eq2, fun hk => g2 ?_⟩)
        simp only
        rw [ha]
        exact (Coder.keepsCount_succ.mp hk).2
    · refine .inr (.inl ⟨x, _, rfl, g.mono ?_, rfl⟩)
      rw [Coder.roundBytes, List.length_append]; omega
    · refine .inr (.inr ⟨rfl, fun hk => ?_⟩)
      have := (Coder.keepsCount_succ.mp hk).1 hb
      omega

/-- What EncFlush leaves where it succeeds (R210, R224): the code value is written, and nothing is held. -/
structure Flushed (e e' : Engine) : Prop where
  value : bitsNat e'.stream.written = e.codeValue
  sent : ∃ l, Sent (e.ac.cacheValid.toNat + e.ac.pending.toNat + 4) l e.stream e'.stream
  ac : e'.ac = { e.ac with low := 0, cache := e'.ac.cache, cacheValid := false, pending := 0 }

/-- All EncFlush can do on an unfaulted writer whose carry can be resolved (R210). -/
theorem encFlush_ends {e : Engine} (h : e.stream.CanPut) (he : e.stream.bs.err = none) (hr : e.ac.Resolvable) :
    (∃ e', encFlush e = .done () e' ∧ Flushed e e') ∨
      (∃ x e', encFlush e = .raised x e' ∧
        SendErr (e.ac.cacheValid.toNat + e.ac.pending.toNat + 4) e.stream x e'.stream ∧
        e'.ac = { e.ac with
          low := e'.ac.low, cache := e'.ac.cache, cacheValid := e'.ac.cacheValid, pending := e'.ac.pending }) ∨
      (encFlush e = .overflow ∧ ¬ e.ac.KeepsCount 4) := by
  unfold encFlush
  rcases flushRounds_ends 4 h he with ⟨e1, eq, g, hh⟩ | ⟨x, e1, eq, g, hac⟩ | ⟨eq, g⟩ <;> rw [eq]
  · rw [Coded.andThen_done]
    have gs := g.sent
    have hv : e1.ac.cacheValid = true := by rw [g.ac]; exact Coder.rounds_cacheValid (.inr (by omega))
    have hl : e1.ac.low.toNat = 0 := by rw [g.low]; simp [steppedLow]
    have hac : e1.ac = { e.ac with
        low := e1.ac.low, cache := e1.ac.cache, cacheValid := e1.ac.cacheValid, pending := e1.ac.pending } := by
      have := g.moved
      rw [hh] at this
      exact this
    have hlen : (e.ac.roundBytes 4).length + (1 + e1.ac.pending.toNat) = e.ac.cacheValid.toNat + e.ac.pending.toNat + 4 := by
      have := Coder.rounds_length hr g.counts
      have eh : (e.ac.rounds 4).held = e1.ac.held := by rw [g.ac]; rfl
      rw [eh, held_length, held_length, hv] at this
      exact this
    have hcb : lowBits 8 e1.ac.cache.toNat = byteBits e1.ac.cache := rfl
    rcases putByte_ends e1.ac.cache.toNat gs.canPut (gs.err.trans he) with ⟨u, eq, g1⟩ | ⟨x, u, eq, g1⟩ <;> rw [eq]
    · rw [Coded.andThen_done]
      rcases putRun_ends 0xFF e1.ac.pending.toNat (e := { e1 with stream := u }) g1.canPut
        (g1.err.trans (gs.err.trans he)) with ⟨w, eq', g2⟩ | ⟨x, w, eq', g2⟩
      · have gg := (gs.trans (g1.trans g2))
        rw [hlen] at gg
        refine .inl ⟨{ e1 with stream := w, ac := { e1.ac with pending := 0, cacheValid := false } },
          by simp only [eq', Coded.andThen_done], ?_, ⟨_, gg⟩, ?_⟩
        · have hval := g.value hr
          rw [codeValue_eq, hl] at hval
          have : bitsNat w.written = e1.heldValue := by
            rw [g2.written, g1.written, hcb]
            unfold Engine.heldValue Coder.held
            rw [hv, List.append_assoc]
            simp
          simp only [this]
          omega
        · rw [hac]
          simp only [Coder.mk.injEq, true_and, and_true]
          exact BitVec.eq_of_toNat_eq hl
      · exact .inr (.inl ⟨x, { e1 with stream := w }, by simp only [eq', Coded.andThen_raised],
          (g2.after (gs.trans g1)).mono (by omega), hac⟩)
    · exact .inr (.inl ⟨x, _, rfl, (g1.after gs).mono (by omega), hac⟩)
  · refine .inr (.inl ⟨x, e1, rfl, g.mono ?_, hac⟩)
    have := Coder.roundBytes_length 4 e.ac
    omega
  · exact .inr (.inr ⟨rfl, g⟩)

end Sys2Proof.Machine
end

