-- ==== Sys2Proof/Laws/Decoder.lean ====
section
/-! SUPPORT. What the decoder's procedures can do (42_arith_coder.md R209, R215 to R217): the code value's distance from LOW
stays below the interval's width (R225), and each step takes the next eight bits into it. -/

namespace Sys2Proof.Machine

theorem offset_eq (a : Coder) : a.offset = (a.code.toNat + 2 ^ 32 - a.low.toNat % 2 ^ 32) % 2 ^ 32 := by
  unfold Coder.offset
  rw [BitVec.toNat_sub, BitVec.toNat_setWidth]
  congr 1
  have := a.code.isLt
  omega

theorem offset_lt (a : Coder) : a.offset < 2 ^ 32 := (a.code - a.low.setWidth 32).isLt

/-- The symbol decided keeps the offset inside its part (R216, R225). -/
theorem select_offset {a : Coder} {r0 : Nat} (h : a.low.toNat ≤ a.high.toNat) (h1 : 1 ≤ r0) (h2 : r0 < a.range)
    (ho : a.offset < a.range) :
    (a.select r0 (a.decision r0)).offset = a.offset - symbolBase r0 (a.decision r0) ∧
      (a.select r0 (a.decision r0)).offset < (a.select r0 (a.decision r0)).range := by
  obtain ⟨s1, s2, -, -⟩ := select_spec h h1 h2 (a.decision r0)
  have hlt := offset_lt a
  have key : (a.select r0 (a.decision r0)).offset = a.offset - symbolBase r0 (a.decision r0) := by
    rw [offset_eq, Coder.select_code, s1]
    unfold Coder.decision symbolBase
    by_cases hd : r0 ≤ a.offset
    · simp only [hd, decide_true, if_true]
      rw [offset_eq] at hd ⊢
      have := a.code.isLt
      omega
    · simp only [hd, decide_false, Bool.false_eq_true, if_false, Nat.add_zero, Nat.sub_zero]
      rw [offset_eq]
  refine ⟨key, ?_⟩
  rw [key, s2]
  unfold Coder.decision symbolBase symbolWidth
  by_cases hd : r0 ≤ a.offset
  · simp only [hd, decide_true, if_true]; omega
  · simp only [hd, decide_false, Bool.false_eq_true, if_false]; omega

theorem pushCode_toNat (a : Coder) (b : Nat) : (a.pushCode b).code.toNat = (a.code.toNat * 2 ^ 8 + b) % 2 ^ 32 :=
  BitVec.toNat_ofNat _ _

/-- One step of the window (R209): the offset times 2^8, plus the byte. -/
theorem step_offset {a : Coder} {b : Nat} (h : a.low.toNat ≤ a.high.toNat) (hr : a.range < 2 ^ 24) (ho : a.offset < a.range)
    (hb : b < 2 ^ 8) : (a.pushCode b).shift.offset = a.offset * 2 ^ 8 + b := by
  obtain ⟨s1, -, -, -⟩ := shift_spec (a := a.pushCode b) h hr
  rw [offset_eq, Coder.shift_code, pushCode_toNat, s1, Coder.pushCode_low]
  rw [offset_eq] at ho ⊢
  have := a.code.isLt
  omega

/-- What `k` renormalization steps of the decoder leave (R209, R223, R225, R228). -/
structure DecRenormed (k : Nat) (e e' : Engine) : Prop where
  range : e'.ac.range = e.ac.range * 2 ^ (8 * k)
  low : e'.ac.low.toNat = steppedLow k e.ac.low.toNat
  ordered : e'.ac.low.toNat ≤ e'.ac.high.toNat
  offset : e'.ac.offset = e.ac.offset * 2 ^ (8 * k) + bitsNat (e.stream.unread.take (8 * k))
  inside : e'.ac.offset < e'.ac.range
  received : Received k e.stream e'.stream
  ac : e'.ac = { e.ac with low := e'.ac.low, high := e'.ac.high, code := e'.ac.code }

/-- A decoder that can go on: an unfaulted reader, an interval that is not empty, the code value inside it (R225). -/
structure CanDecode (e : Engine) : Prop where
  count : e.stream.bs.count.toNat ≤ 7
  err : e.stream.bs.err = none
  ordered : e.ac.low.toNat ≤ e.ac.high.toNat
  inside : e.ac.offset < e.ac.range

/-- All DecRenorm can do where `k` of at most `n` steps are needed (R209). -/
theorem decRenorm_ends {k : Nat} (n : Nat) {e : Engine} (hk : k ≤ n) (h : CanDecode e) (hs : Steps k e.ac.range) :
    (∃ e', decRenorm n e = .done () e' ∧ DecRenormed k e e') ∨
      (∃ x e', decRenorm n e = .raised x e' ∧ ReceiveErr k e.stream x e'.stream ∧
        e'.ac = { e.ac with low := e'.ac.low, high := e'.ac.high, code := e'.ac.code }) := by
  induction k generalizing n e with
  | zero =>
    have hr : ¬ e.ac.range < Config.top := by simp only [Config.top]; have := hs.1; omega
    refine .inl ⟨e, ?_, by simp, rfl, h.ordered, by simp, h.inside, Received.refl _, rfl⟩
    cases n <;> rw [decRenorm, if_neg hr]
  | succ k ih =>
    obtain ⟨n, rfl⟩ : ∃ m, n = m + 1 := ⟨n - 1, by omega⟩
    obtain ⟨hr, hs'⟩ := hs.tail
    rw [decRenorm, if_pos hr]
    rcases getByte_ends h.count h.err with ⟨u, eq, g⟩ | ⟨x, u, eq, g⟩ <;> rw [eq]
    · have hb : bitsNat (e.stream.unread.take 8) < 2 ^ 8 := by
        have := bitsNat_lt (e.stream.unread.take 8)
        rwa [List.length_take, Nat.min_eq_left (by have := g.enough; omega)] at this
      rw [Coded.andThen_done]
      obtain ⟨b, hbe⟩ : ∃ b, b = bitsNat (e.stream.unread.take 8) := ⟨_, rfl⟩
      rw [← hbe] at hb ⊢
      obtain ⟨s1, s2, s3, -⟩ := shift_spec (a := e.ac.pushCode b) h.ordered hr
      have so := step_offset h.ordered hr h.inside hb
      have sr : (e.ac.pushCode b).shift.range = e.ac.range * 2 ^ 8 := s2
      have h1 : CanDecode ⟨(e.ac.pushCode b).shift, u⟩ :=
        ⟨by show u.bs.count.toNat ≤ 7; rw [g.count]; exact h.count, g.err.trans h.err, s3, by
          show (e.ac.pushCode b).shift.offset < (e.ac.pushCode b).shift.range
          rw [so, sr]; have := h.inside; omega⟩
      rcases ih n (by omega) h1 (by show Steps k (e.ac.pushCode b).shift.range; rw [sr]; exact hs') with
        ⟨e2, eq2, g2⟩ | ⟨x, e2, eq2, g2, hac⟩
      · have hp : (2 : Nat) ^ (8 * (k + 1)) = 2 ^ 8 * 2 ^ (8 * k) := by rw [← pow_add]; congr 1; ring
        refine .inl ⟨e2, eq2, ?_, ?_, g2.ordered, ?_, g2.inside, ?_, ?_⟩
        · rw [g2.range]; simp only; rw [sr, hp, Nat.mul_assoc]
        · rw [g2.low]; simp only; rw [s1, ← steppedLow_succ]; rfl
        · rw [g2.offset]
          simp only
          rw [so, hbe, g.unread, hp]
          have hlen := g2.received.enough
          simp only at hlen
          rw [g.unread, List.length_drop] at hlen
          rw [show 8 * (k + 1) = 8 + 8 * k by ring, List.take_add, bitsNat_append, List.length_take, List.length_drop,
            Nat.mul_one, Nat.min_eq_left (by omega)]
          ring
        · rw [Nat.add_comm k 1]; exact g.trans g2.received
        · rw [g2.ac]; rfl
      · refine .inr ⟨x, e2, eq2, ?_, by rw [hac]; rfl⟩
        rw [Nat.add_comm k 1]
        exact g2.after h.count g
    · exact .inr ⟨x, _, rfl, g.mono (by omega), rfl⟩

/-- What one symbol of the decoder leaves (R216): the part the offset is in, renormalized by `k` steps. -/
structure SymbolDecoded (k r0 : Nat) (bit : Bool) (e e' : Engine) : Prop where
  range : e'.ac.range = symbolWidth e.ac.range r0 bit * 2 ^ (8 * k)
  low : e'.ac.low.toNat = steppedLow k (e.ac.low.toNat + symbolBase r0 bit)
  offset : e'.ac.offset = (e.ac.offset - symbolBase r0 bit) * 2 ^ (8 * k) + bitsNat (e.stream.unread.take (8 * k))
  received : Received k e.stream e'.stream
  can : CanDecode e'
  ac : e'.ac = { e.ac with low := e'.ac.low, high := e'.ac.high, code := e'.ac.code }

/-- Selecting the part the offset is in keeps a decoder able to go on (R216, R225). -/
theorem CanDecode.select {e : Engine} (h : CanDecode e) {r0 : Nat} (h1 : 1 ≤ r0) (h2 : r0 < e.ac.range) :
    CanDecode { e with ac := e.ac.select r0 (e.ac.decision r0) } :=
  ⟨h.count, h.err, (select_spec h.ordered h1 h2 _).2.2.1, (select_offset h.ordered h1 h2 h.inside).2⟩

/-- All the decoding of one symbol can do (R204, R205, R209, R216, R217). -/
theorem decodeSymbol_ends {f0 t k : Nat} {e : Engine} (h : CanDecode e) (h1 : 1 ≤ split e.ac.range f0 t)
    (h2 : split e.ac.range f0 t < e.ac.range) (hk : k ≤ 3)
    (hs : Steps k (symbolWidth e.ac.range (split e.ac.range f0 t) (e.ac.decision (split e.ac.range f0 t)))) :
    (∃ e', decodeSymbol f0 t e = .done (e.ac.decision (split e.ac.range f0 t)) e' ∧
        SymbolDecoded k (split e.ac.range f0 t) (e.ac.decision (split e.ac.range f0 t)) e e') ∨
      (∃ x e', decodeSymbol f0 t e = .raised x e' ∧ ReceiveErr k e.stream x e'.stream ∧
        e'.ac = { e.ac with low := e'.ac.low, high := e'.ac.high, code := e'.ac.code }) := by
  have hc := h.select h1 h2
  obtain ⟨s1, s2, -, -⟩ := select_spec h.ordered h1 h2 (e.ac.decision (split e.ac.range f0 t))
  have so := (select_offset h.ordered h1 h2 h.inside).1
  unfold decodeSymbol
  simp only
  obtain ⟨bit, hbit⟩ : ∃ bit, bit = e.ac.decision (split e.ac.range f0 t) := ⟨_, rfl⟩
  rw [← hbit] at hc s1 s2 so hs ⊢
  have hac : e.ac.select (split e.ac.range f0 t) bit = { e.ac with
      low := (e.ac.select (split e.ac.range f0 t) bit).low
      high := (e.ac.select (split e.ac.range f0 t) bit).high } := by cases bit <;> rfl
  obtain ⟨e0, he0⟩ : ∃ e0 : Engine, e0 = { e with ac := e.ac.select (split e.ac.range f0 t) bit } := ⟨_, rfl⟩
  have he0ac : e0.ac = e.ac.select (split e.ac.range f0 t) bit := by rw [he0]
  have he0s : e0.stream = e.stream := by rw [he0]
  rw [← he0] at hc ⊢
  rw [← he0ac] at hac s1 s2 so
  rcases decRenorm_ends Config.renormSteps hk hc (by rw [s2]; exact hs) with ⟨e', eq, g⟩ | ⟨x, e', eq, g, ha⟩ <;> rw [eq]
  · have gr := g.received
    rw [he0s] at gr
    refine .inl ⟨e', rfl, by rw [g.range, s2], by rw [g.low, s1], by rw [g.offset, so, he0s], gr, ?_, by rw [g.ac, hac]⟩
    exact ⟨by rw [gr.count]; exact h.count, gr.err.trans h.err, g.ordered, g.inside⟩
  · rw [he0s] at g
    exact .inr ⟨x, e', rfl, g, by rw [ha, hac]⟩

/-- What loading `n` bytes into CODE leaves (R215). -/
structure Loaded (n : Nat) (e e' : Engine) : Prop where
  code : e'.ac.code.toNat = (e.ac.code.toNat * 2 ^ (8 * n) + bitsNat (e.stream.unread.take (8 * n))) % 2 ^ 32
  received : Received n e.stream e'.stream
  ac : e'.ac = { e.ac with code := e'.ac.code }

/-- All the loading of CODE can do (R215). -/
theorem loadCode_ends (n : Nat) {e : Engine} (h : e.stream.bs.count.toNat ≤ 7) (he : e.stream.bs.err = none) :
    (∃ e', loadCode n e = .done () e' ∧ Loaded n e e') ∨
      (∃ x e', loadCode n e = .raised x e' ∧ ReceiveErr n e.stream x e'.stream ∧
        e'.ac = { e.ac with code := e'.ac.code }) := by
  induction n generalizing e with
  | zero =>
    refine .inl ⟨e, rfl, ?_, Received.refl _, rfl⟩
    have := e.ac.code.isLt
    simp only [Nat.mul_zero, pow_zero, Nat.mul_one, List.take_zero, bitsNat_nil, Nat.add_zero]
    omega
  | succ n ih =>
    rw [loadCode]
    rcases getByte_ends h he with ⟨u, eq, g⟩ | ⟨x, u, eq, g⟩ <;> rw [eq]
    · rw [Coded.andThen_done]
      rcases ih (e := ⟨e.ac.pushCode (bitsNat (e.stream.unread.take 8)), u⟩) (by rw [g.count]; exact h) (g.err.trans he) with
        ⟨e2, eq2, g2⟩ | ⟨x, e2, eq2, g2, hac⟩
      · refine .inl ⟨e2, eq2, ?_, ?_, ?_⟩
        · have hlen := g2.received.enough
          simp only at hlen
          rw [g.unread, List.length_drop] at hlen
          rw [g2.code]
          simp only
          rw [pushCode_toNat, g.unread, show 8 * (n + 1) = 8 + 8 * n by ring, List.take_add, bitsNat_append, List.length_take,
            List.length_drop, Nat.mul_one, Nat.min_eq_left (by omega), pow_add]
          rw [Nat.add_mod, Nat.mod_mul_mod, ← Nat.add_mod]
          congr 1; ring
        · rw [Nat.add_comm n 1]; exact g.trans g2.received
        · rw [g2.ac]; rfl
      · refine .inr ⟨x, e2, eq2, ?_, by rw [hac]; rfl⟩
        rw [Nat.add_comm n 1]
        exact g2.after h g
    · exact .inr ⟨x, _, rfl, g.mono (by omega), rfl⟩

end Sys2Proof.Machine
end

