-- ==== Sys2Proof/Laws/Endings.lean ====
section
/-! SUPPORT. How a command can end (60_exceptions.md R246, R247; 42_arith_coder.md R202): for each shared ending, all the next
states it can give; and the state preconditions of R249 as propositions. -/

namespace Sys2Proof.Machine

/-- A block that failed (R202). -/
abbrev State.failed (s : State) : State := { s with ac := { s.ac with state := .failed } }

theorem ended_eq (st : Status) (v : BitVec 32) (s : State) : ended st v s = .next (s.answer st v) := rfl

theorem raise_eq (st : Status) (s : State) : raise st s = .next (s.answer st 0) := rfl

theorem failBlock_eq (st : Status) (s : State) : failBlock st s = .next (s.failed.answer st 0) := rfl

theorem require_next {b : Bool} {st : Status} {s t : State} {k : Result} :
    require b st s k = .next t ↔ (b = false ∧ t = s.answer st 0) ∨ (b = true ∧ k = .next t) := by
  cases b <;> simp [require, raise_eq, eq_comm]

theorem unlessErr_next {s t : State} {k : Result} :
    unlessErr s k = .next t ↔ (∃ x, s.bs.err = some x ∧ t = s.answer x.status 0) ∨ (s.bs.err = none ∧ k = .next t) := by
  unfold unlessErr
  cases s.bs.err <;> simp [raise_eq, eq_comm]

theorem unlessFaulted_next {s t : State} {k : Result} :
    unlessFaulted s k = .next t ↔
      (∃ x, s.bs.err = some x ∧ t = s.failed.answer x.status 0) ∨ (s.bs.err = none ∧ k = .next t) := by
  unfold unlessFaulted
  cases s.bs.err <;> simp [failBlock_eq, eq_comm]

theorem runStream_next {α : Type} {p : Stream → Run Stream α} {s t : State} {k : α → State → Result} :
    runStream p s k = .next t ↔
      (∃ a u, p s.stream = .done a u ∧ k a (s.setStream u) = .next t) ∨
        (∃ x u, p s.stream = .raised x u ∧ t = (s.setStream u).answer x.status 0) := by
  unfold runStream
  cases p s.stream <;> simp [raise_eq, eq_comm]

theorem runCoder_next {α : Type} {p : Engine → Coded α} {s t : State} {k : α → State → Result} :
    runCoder p s k = .next t ↔
      (∃ a e, p s.engine = .done a e ∧ k a (s.setEngine e) = .next t) ∨
        (∃ x e, p s.engine = .raised x e ∧ t = (s.setEngine e).failed.answer x.status 0) := by
  unfold runCoder
  cases p s.engine <;> simp [failBlock_eq, eq_comm]

/-! ## The preconditions of R249 -/

theorem started_iff (s : State) : s.started = true ↔ s.ac.state = .started := by simp [State.started]

theorem mayBind_iff (s : State) : s.mayBind = true ↔ s.bs.mode = .none ∧ s.ac.state ≠ .started := by
  simp [State.mayBind, State.started]

theorem mayGet_iff (s : State) : s.mayGet = true ↔ s.bs.mode = .reader ∧ s.ac.state ≠ .started := by
  simp [State.mayGet, State.started]

theorem mayPut_iff (s : State) : s.mayPut = true ↔ s.bs.mode = .writer ∧ s.ac.state ≠ .started := by
  simp [State.mayPut, State.started]

theorem mayMove_iff (s : State) : s.mayMove = true ↔ s.bs.mode ≠ .none ∧ s.ac.state ≠ .started := by
  simp [State.mayMove, State.started]

theorem bound_iff (s : State) : s.bound = true ↔ s.bs.mode ≠ .none := by simp [State.bound]

theorem mayStartEnc_iff (s : State) : s.mayStartEnc = true ↔ s.ac.state = .unstarted ∧ s.bs.mode = .writer := by
  simp [State.mayStartEnc]

theorem mayStartDec_iff (s : State) : s.mayStartDec = true ↔ s.ac.state = .unstarted ∧ s.bs.mode = .reader := by
  simp [State.mayStartDec]

theorem encoding_iff (s : State) : s.encoding = true ↔ s.ac.state = .started ∧ s.ac.role = .enc := by
  simp [State.encoding, State.started]

theorem decoding_iff (s : State) : s.decoding = true ↔ s.ac.state = .started ∧ s.ac.role = .dec := by
  simp [State.decoding, State.started]

theorem countOk_iff (n : Nat) : countOk n = true ↔ 1 ≤ n ∧ n ≤ 31 := by simp [countOk, Config.nMin, Config.nMax]

theorem putArgsOk_iff (n : Nat) (v : BitVec 32) : putArgsOk n v = true ↔ (1 ≤ n ∧ n ≤ 31) ∧ v.toNat < 2 ^ n := by
  simp [putArgsOk, valueFits, countOk_iff]

/-! ## What the invariant gives a running block -/

/-- A running encoder's machinery can go on (R221, R222). -/
theorem Inv.canEncode {s : State} (h : s.Inv) (hs : s.ac.state = .started) (hr : s.ac.role = .enc) :
    CanEncode s.engine ∧ s.bs.mode = .writer ∧ 2 ^ 24 ≤ s.ac.range ∧ s.ac.range ≤ 2 ^ 32 := by
  obtain ⟨-, hb, -, -, hst, -⟩ := h
  obtain ⟨he, ⟨i1, i2, i3⟩, ⟨-, hm, hc⟩ | ⟨hr', -, -⟩⟩ := hst hs
  · exact ⟨⟨hb.2.2.1 hm, he, i1, hc⟩, hm, i2, i3⟩
  · rw [hr] at hr'; cases hr'

/-- A running decoder's machinery can go on (R221, R225). -/
theorem Inv.canDecode {s : State} (h : s.Inv) (hs : s.ac.state = .started) (hr : s.ac.role = .dec) :
    CanDecode s.engine ∧ s.bs.mode = .reader ∧ 2 ^ 24 ≤ s.ac.range ∧ s.ac.range ≤ 2 ^ 32 := by
  obtain ⟨-, hb, -, -, hst, -⟩ := h
  obtain ⟨he, ⟨i1, i2, i3⟩, ⟨hr', -, -⟩ | ⟨-, hm, hc⟩⟩ := hst hs
  · rw [hr] at hr'; cases hr'
  · exact ⟨⟨hb.2.1 hm, he, i1, hc⟩, hm, i2, i3⟩

end Sys2Proof.Machine
end

