-- ==== Sys2Proof/Laws/Frames.lean ====
section
/-! SUPPORT. What every procedure leaves unchanged, in every state and however it ends: a get never touches the output, a put
never touches the read position (20_memory.md R63, R64), the coder's procedures keep STATE and ROLE to their command
(42_arith_coder.md R201), a raise always leaves its kind in ERR (40_bitstream.md R149), and a procedure that ends with a value
leaves ERR as it was. -/

namespace Sys2Proof.Machine

/-- However a stream procedure started in `t` ends, `P` holds of the stream; a value leaves ERR as it was, and a raise left its
kind there. -/
def Run.Ends {α : Type} (t : Stream) (P : Stream → Prop) : Run Stream α → Prop
  | .done _ u => P u ∧ u.bs.err = t.bs.err
  | .raised x u => P u ∧ u.bs.err = some x

/-- The same for a coder procedure started in `e`. -/
def Coded.Ends {α : Type} (e : Engine) (P : Engine → Prop) : Coded α → Prop
  | .done _ u => P u ∧ u.stream.bs.err = e.stream.bs.err
  | .raised x u => P u ∧ u.stream.bs.err = some x
  | .overflow => True
  | .diverges => True

/-- From a frame of what came before to one of the whole. -/
theorem Run.Ends.after {α : Type} {P Q : Stream → Prop} {t u : Stream} {r : Run Stream α} (h : r.Ends u P)
    (he : u.bs.err = t.bs.err) (hq : ∀ w, P w → Q w) : r.Ends t Q := by
  cases r with
  | done a w => exact ⟨hq w h.1, h.2.trans he⟩
  | raised x w => exact ⟨hq w h.1, h.2⟩

theorem Coded.Ends.after {α : Type} {P Q : Engine → Prop} {e u : Engine} {r : Coded α} (h : r.Ends u P)
    (he : u.stream.bs.err = e.stream.bs.err) (hq : ∀ w, P w → Q w) : r.Ends e Q := by
  cases r with
  | done a w => exact ⟨hq w h.1, h.2.trans he⟩
  | raised x w => exact ⟨hq w h.1, h.2⟩
  | overflow => trivial
  | diverges => trivial

theorem Run.Ends.andThen {α β : Type} {P Q : Stream → Prop} {t : Stream} {r : Run Stream α} {k : α → Stream → Run Stream β}
    (h : r.Ends t P) (hq : ∀ u, P u → Q u) (hk : ∀ a u, P u → (k a u).Ends u Q) : (r.andThen k).Ends t Q := by
  cases r with
  | done a u => exact (hk a u h.1).after h.2 fun _ h => h
  | raised x u => exact ⟨hq u h.1, h.2⟩

theorem Coded.Ends.andThen {α β : Type} {P Q : Engine → Prop} {e : Engine} {r : Coded α} {k : α → Engine → Coded β}
    (h : r.Ends e P) (hq : ∀ u, P u → Q u) (hk : ∀ a u, P u → (k a u).Ends u Q) : (r.andThen k).Ends e Q := by
  cases r with
  | done a u => exact (hk a u h.1).after h.2 fun _ h => h
  | raised x u => exact ⟨hq u h.1, h.2⟩
  | overflow => trivial
  | diverges => trivial

/-! ## Streams -/

/-- What a read leaves unchanged. -/
structure ReadFrame (t u : Stream) : Prop where
  mode : u.bs.mode = t.bs.mode
  limitEn : u.bs.limitEn = t.bs.limitEn
  input : u.chan.input = t.chan.input
  output : u.chan.output = t.chan.output
  inpos : t.chan.inpos ≤ u.chan.inpos

/-- What a write leaves unchanged. -/
structure WriteFrame (t u : Stream) : Prop where
  mode : u.bs.mode = t.bs.mode
  limitEn : u.bs.limitEn = t.bs.limitEn
  input : u.chan.input = t.chan.input
  output : t.chan.output <+: u.chan.output
  inpos : u.chan.inpos = t.chan.inpos

theorem ReadFrame.refl (t : Stream) : ReadFrame t t := ⟨rfl, rfl, rfl, rfl, Nat.le_refl _⟩

theorem ReadFrame.trans {t u w : Stream} (h : ReadFrame t u) (g : ReadFrame u w) : ReadFrame t w :=
  ⟨g.mode.trans h.mode, g.limitEn.trans h.limitEn, g.input.trans h.input, g.output.trans h.output, h.inpos.trans g.inpos⟩

theorem WriteFrame.refl (t : Stream) : WriteFrame t t := ⟨rfl, rfl, rfl, List.prefix_refl _, rfl⟩

theorem WriteFrame.trans {t u w : Stream} (h : WriteFrame t u) (g : WriteFrame u w) : WriteFrame t w :=
  ⟨g.mode.trans h.mode, g.limitEn.trans h.limitEn, g.input.trans h.input, h.output.trans g.output, g.inpos.trans h.inpos⟩

theorem preCheck_frame (n : Nat) (t : Stream) : (preCheck n t).Ends t fun u => ReadFrame t u ∧ WriteFrame t u := by
  rcases preCheck_cases n t with ⟨x, hx, e⟩ | ⟨-, -, -, e⟩ | ⟨-, -, e⟩ <;> rw [e]
  · exact ⟨⟨.refl t, .refl t⟩, hx⟩
  · exact ⟨⟨⟨rfl, rfl, rfl, rfl, Nat.le_refl _⟩, ⟨rfl, rfl, rfl, List.prefix_refl _, rfl⟩⟩, rfl⟩
  · exact ⟨⟨.refl t, .refl t⟩, rfl⟩

theorem chargeLimit_frame (n : Nat) (t : Stream) :
    ReadFrame t (chargeLimit n t) ∧ WriteFrame t (chargeLimit n t) ∧ (chargeLimit n t).bs.err = t.bs.err := by
  rw [chargeLimit_eq]
  exact ⟨⟨rfl, rfl, rfl, rfl, Nat.le_refl _⟩, ⟨rfl, rfl, rfl, List.prefix_refl _, rfl⟩, rfl⟩

theorem refill_frame (t : Stream) : (refill t).Ends t (ReadFrame t) := by
  by_cases h : t.bs.count = 0
  · rcases refill_empty h with ⟨-, e⟩ | ⟨-, -, e⟩ | ⟨-, b, -, e⟩ <;> rw [e]
    · exact ⟨⟨rfl, rfl, rfl, rfl, Nat.le_refl _⟩, rfl⟩
    · exact ⟨⟨rfl, rfl, rfl, rfl, Nat.le_refl _⟩, rfl⟩
    · exact ⟨⟨rfl, rfl, rfl, rfl, Nat.le_succ _⟩, rfl⟩
  · rw [refill_pos (count_pos h)]; exact ⟨.refl t, rfl⟩

theorem getLoop_frame (n v : Nat) (t : Stream) : (getLoop n v t).Ends t (ReadFrame t) := by
  induction n generalizing v t with
  | zero => exact ⟨.refl t, rfl⟩
  | succ n ih =>
    refine (refill_frame t).andThen (fun _ h => h) fun _ u h => ?_
    have h' : ReadFrame t (stepCount u) := h.trans ⟨rfl, rfl, rfl, rfl, Nat.le_refl _⟩
    exact (ih (2 * v + (nextBit u).toNat) (stepCount u)).after rfl fun _ g => h'.trans g

theorem getBits_frame (n : Nat) (t : Stream) : (getBits n t).Ends t (ReadFrame t) := by
  refine (preCheck_frame n t).andThen (fun _ h => h.1) fun _ u h => ?_
  refine (getLoop_frame n 0 u).andThen (fun _ g => h.1.trans g) fun _ w g => ?_
  exact ⟨(h.1.trans g).trans (chargeLimit_frame _ _).1, (chargeLimit_frame _ _).2.2⟩

theorem writeBuf_frame (t : Stream) : (writeBuf t).Ends t (WriteFrame t) := by
  rcases writeBuf_cases t with ⟨-, e⟩ | ⟨-, e⟩ <;> rw [e]
  · exact ⟨⟨rfl, rfl, rfl, List.prefix_refl _, rfl⟩, rfl⟩
  · exact ⟨⟨rfl, rfl, rfl, List.prefix_append _ _, rfl⟩, rfl⟩

theorem flushPartial_frame (t : Stream) : (flushPartial t).Ends t (WriteFrame t) := by
  unfold flushPartial
  split
  · exact writeBuf_frame t
  · exact ⟨.refl t, rfl⟩

theorem putBit_frame (b : Bool) (t : Stream) : (putBit b t).Ends t (WriteFrame t) := by
  unfold putBit
  simp only
  split
  · exact (writeBuf_frame (stepCount { t with bs := { t.bs with buf := t.bufWith b } })).after rfl fun _ g =>
      ⟨g.mode, g.limitEn, g.input, g.output, g.inpos⟩
  · exact ⟨⟨rfl, rfl, rfl, List.prefix_refl _, rfl⟩, rfl⟩

theorem putLoop_frame (v n : Nat) (t : Stream) : (putLoop v n t).Ends t (WriteFrame t) := by
  induction n generalizing t with
  | zero => exact ⟨.refl t, rfl⟩
  | succ n ih => exact (putBit_frame _ t).andThen (fun _ h => h) fun _ u h => (ih u).after rfl fun _ g => h.trans g

theorem putBits_frame (v n : Nat) (t : Stream) : (putBits v n t).Ends t (WriteFrame t) := by
  refine (preCheck_frame n t).andThen (fun _ h => h.2) fun _ u h => ?_
  refine (putLoop_frame v n u).andThen (fun _ g => h.2.trans g) fun _ w g => ?_
  exact ⟨(h.2.trans g).trans (chargeLimit_frame _ _).2.1, (chargeLimit_frame _ _).2.2⟩

/-! ## The coder -/

/-- What an encoder's procedure leaves unchanged. -/
structure EncFrame (e e' : Engine) : Prop where
  state : e'.ac.state = e.ac.state
  role : e'.ac.role = e.ac.role
  code : e'.ac.code = e.ac.code
  stream : WriteFrame e.stream e'.stream

/-- What a decoder's procedure leaves unchanged. -/
structure DecFrame (e e' : Engine) : Prop where
  state : e'.ac.state = e.ac.state
  role : e'.ac.role = e.ac.role
  cache : e'.ac.cache = e.ac.cache
  cacheValid : e'.ac.cacheValid = e.ac.cacheValid
  pending : e'.ac.pending = e.ac.pending
  stream : ReadFrame e.stream e'.stream

theorem EncFrame.refl (e : Engine) : EncFrame e e := ⟨rfl, rfl, rfl, .refl _⟩

theorem EncFrame.trans {e e' e'' : Engine} (h : EncFrame e e') (g : EncFrame e' e'') : EncFrame e e'' :=
  ⟨g.state.trans h.state, g.role.trans h.role, g.code.trans h.code, h.stream.trans g.stream⟩

theorem DecFrame.refl (e : Engine) : DecFrame e e := ⟨rfl, rfl, rfl, rfl, rfl, .refl _⟩

theorem DecFrame.trans {e e' e'' : Engine} (h : DecFrame e e') (g : DecFrame e' e'') : DecFrame e e'' :=
  ⟨g.state.trans h.state, g.role.trans h.role, g.cache.trans h.cache, g.cacheValid.trans h.cacheValid,
    g.pending.trans h.pending, h.stream.trans g.stream⟩

/-- A frame of one procedure carries over to what follows a frame. -/
theorem Coded.Ends.enc {α : Type} {e e' : Engine} {r : Coded α} (h : EncFrame e e') (g : r.Ends e' (EncFrame e')) :
    r.Ends e' (EncFrame e) := g.after rfl fun _ g => h.trans g

theorem Coded.Ends.dec {α : Type} {e e' : Engine} {r : Coded α} (h : DecFrame e e') (g : r.Ends e' (DecFrame e')) :
    r.Ends e' (DecFrame e) := g.after rfl fun _ g => h.trans g

/-- A procedure of the coder after registers of its own were written. -/
theorem Coded.Ends.withCoder {α : Type} {P : Engine → Prop} {e : Engine} {a : Coder} {r : Coded α}
    (g : r.Ends { e with ac := a } P) : r.Ends e P := g.after rfl fun _ h => h

theorem putByte_frame (b : Nat) (e : Engine) : (putByte b e).Ends e (EncFrame e) := by
  have g := putBits_frame b 8 e.stream
  unfold putByte onStream
  cases hr : putBits b 8 e.stream <;> rw [hr] at g
  · exact ⟨⟨rfl, rfl, rfl, g.1⟩, g.2⟩
  · exact ⟨⟨rfl, rfl, rfl, g.1⟩, g.2⟩

theorem getByte_frame (e : Engine) : (getByte e).Ends e (DecFrame e) := by
  have g := getBits_frame 8 e.stream
  unfold getByte onStream
  cases hr : getBits 8 e.stream <;> rw [hr] at g
  · exact ⟨⟨rfl, rfl, rfl, rfl, rfl, g.1⟩, g.2⟩
  · exact ⟨⟨rfl, rfl, rfl, rfl, rfl, g.1⟩, g.2⟩

theorem putRun_frame (b n : Nat) (e : Engine) : (putRun b n e).Ends e (EncFrame e) := by
  induction n generalizing e with
  | zero => exact ⟨.refl e, rfl⟩
  | succ n ih => exact (putByte_frame b e).andThen (fun _ h => h) fun _ u h => (ih u).enc h

theorem emitTop_frame (e : Engine) : (emitTop e).Ends e (EncFrame e) := by
  unfold emitTop
  simp only
  split
  · exact ⟨⟨rfl, rfl, rfl, .refl _⟩, rfl⟩
  · split
    · refine (putByte_frame _ e).andThen (fun _ h => h) fun _ u h => ?_
      refine ((putRun_frame _ _ u).enc h).andThen (fun _ h => h) fun _ w h => ?_
      exact ⟨h.trans ⟨rfl, rfl, rfl, .refl _⟩, rfl⟩
    · split
      · exact ⟨⟨rfl, rfl, rfl, .refl _⟩, rfl⟩
      · trivial

theorem encRenorm_frame (n : Nat) (e : Engine) : (encRenorm n e).Ends e (EncFrame e) := by
  induction n generalizing e with
  | zero =>
    rw [encRenorm]
    split
    · trivial
    · exact ⟨.refl e, rfl⟩
  | succ n ih =>
    rw [encRenorm]
    split
    · refine (emitTop_frame e).andThen (fun _ h => h) fun _ u h => ?_
      exact (Coded.Ends.enc (e' := { u with ac := u.ac.shift }) (h.trans ⟨rfl, rfl, rfl, .refl _⟩) (ih _)).withCoder
    · exact ⟨.refl e, rfl⟩

theorem encodeSymbol_frame (f0 t : Nat) (bit : Bool) (e : Engine) : (encodeSymbol f0 t bit e).Ends e (EncFrame e) :=
  (Coded.Ends.enc (e' := { e with ac := e.ac.select (split e.ac.range f0 t) bit })
    ⟨Coder.select_state _ _ _, Coder.select_role _ _ _, Coder.select_code _ _ _, .refl _⟩ (encRenorm_frame _ _)).withCoder

theorem flushRounds_frame (n : Nat) (e : Engine) : (flushRounds n e).Ends e (EncFrame e) := by
  induction n generalizing e with
  | zero => exact ⟨.refl e, rfl⟩
  | succ n ih =>
    refine (emitTop_frame e).andThen (fun _ h => h) fun _ u h => ?_
    exact (Coded.Ends.enc (e' := { u with ac := { u.ac with low := u.ac.shiftedLow } })
      (h.trans ⟨rfl, rfl, rfl, .refl _⟩) (ih _)).withCoder

theorem encFlush_frame (e : Engine) : (encFlush e).Ends e (EncFrame e) := by
  refine (flushRounds_frame _ e).andThen (fun _ h => h) fun _ u h => ?_
  refine ((putByte_frame _ u).enc h).andThen (fun _ h => h) fun _ w h => ?_
  refine ((putRun_frame _ _ w).enc h).andThen (fun _ h => h) fun _ v h => ?_
  exact ⟨h.trans ⟨rfl, rfl, rfl, .refl _⟩, rfl⟩

theorem decRenorm_frame (n : Nat) (e : Engine) : (decRenorm n e).Ends e (DecFrame e) := by
  induction n generalizing e with
  | zero =>
    rw [decRenorm]
    split
    · trivial
    · exact ⟨.refl e, rfl⟩
  | succ n ih =>
    rw [decRenorm]
    split
    · refine (getByte_frame e).andThen (fun _ h => h) fun b u h => ?_
      exact (Coded.Ends.dec (e' := { u with ac := (u.ac.pushCode b).shift }) (h.trans ⟨rfl, rfl, rfl, rfl, rfl, .refl _⟩)
        (ih _)).withCoder
    · exact ⟨.refl e, rfl⟩

theorem decodeSymbol_frame (f0 t : Nat) (e : Engine) : (decodeSymbol f0 t e).Ends e (DecFrame e) := by
  unfold decodeSymbol
  simp only
  have h : DecFrame e { e with ac := e.ac.select (split e.ac.range f0 t) (e.ac.decision (split e.ac.range f0 t)) } :=
    ⟨Coder.select_state _ _ _, Coder.select_role _ _ _, Coder.select_cache _ _ _, Coder.select_cacheValid _ _ _,
      Coder.select_pending _ _ _, .refl _⟩
  exact (Coded.Ends.dec h (decRenorm_frame _ _)).withCoder.andThen (fun _ h => h) fun _ u h => ⟨h, rfl⟩

theorem loadCode_frame (n : Nat) (e : Engine) : (loadCode n e).Ends e (DecFrame e) := by
  induction n generalizing e with
  | zero => exact ⟨.refl e, rfl⟩
  | succ n ih =>
    refine (getByte_frame e).andThen (fun _ h => h) fun b u h => ?_
    exact (Coded.Ends.dec (e' := { u with ac := u.ac.pushCode b }) (h.trans ⟨rfl, rfl, rfl, rfl, rfl, .refl _⟩)
      (ih _)).withCoder

end Sys2Proof.Machine
end

