-- ==== Sys2Proof/Laws/Commands.lean ====
section
/-! SUPPORT. All a command can do, said once: which parts of the machine it can have moved and which checks it passed
(42_arith_coder.md R201, R202; 60_exceptions.md R246, R247). Statements about every command go by cases of this. -/

namespace Sys2Proof.Machine

/-- A coder command's run by an encoder's procedure: it goes on with a framed engine, or the block fails. -/
theorem runCoder_enc {α : Type} {p : Engine → Coded α} {s t : State} {k : α → State → Result}
    (hf : (p s.engine).Ends s.engine (EncFrame s.engine)) (h : runCoder p s k = .next t) :
    (∃ a e, p s.engine = .done a e ∧ EncFrame s.engine e ∧ e.stream.bs.err = s.bs.err ∧ k a (s.setEngine e) = .next t) ∨
      (∃ x e, EncFrame s.engine e ∧ e.stream.bs.err = some x ∧ t = (s.setEngine e).failed.answer x.status 0) := by
  rcases runCoder_next.mp h with ⟨a, e, he, h⟩ | ⟨x, e, he, h⟩ <;> rw [he] at hf
  · exact .inl ⟨a, e, he, hf.1, hf.2, h⟩
  · exact .inr ⟨x, e, hf.1, hf.2, h⟩

/-- The same for a decoder's procedure. -/
theorem runCoder_dec {α : Type} {p : Engine → Coded α} {s t : State} {k : α → State → Result}
    (hf : (p s.engine).Ends s.engine (DecFrame s.engine)) (h : runCoder p s k = .next t) :
    (∃ a e, p s.engine = .done a e ∧ DecFrame s.engine e ∧ e.stream.bs.err = s.bs.err ∧ k a (s.setEngine e) = .next t) ∨
      (∃ x e, DecFrame s.engine e ∧ e.stream.bs.err = some x ∧ t = (s.setEngine e).failed.answer x.status 0) := by
  rcases runCoder_next.mp h with ⟨a, e, he, h⟩ | ⟨x, e, he, h⟩ <;> rw [he] at hf
  · exact .inl ⟨a, e, he, hf.1, hf.2, h⟩
  · exact .inr ⟨x, e, hf.1, hf.2, h⟩

/-- The same for a Bit Stream command's procedure. -/
theorem runStream_ends {α : Type} {P : Stream → Prop} {p : Stream → Run Stream α} {s t : State} {k : α → State → Result}
    (hf : (p s.stream).Ends s.stream P) (h : runStream p s k = .next t) :
    (∃ a u, p s.stream = .done a u ∧ P u ∧ u.bs.err = s.bs.err ∧ k a (s.setStream u) = .next t) ∨
      (∃ x u, P u ∧ u.bs.err = some x ∧ t = (s.setStream u).answer x.status 0) := by
  rcases runStream_next.mp h with ⟨a, e, he, h⟩ | ⟨x, e, he, h⟩ <;> rw [he] at hf
  · exact .inl ⟨a, e, he, hf.1, hf.2, h⟩
  · exact .inr ⟨x, e, hf.1, hf.2, h⟩

/-- All the next states a command can give, with the checks it passed (R201, R202, R246, R247). The values it computes are
said by the lemmas of its own procedures; this says which parts of the machine it can have moved. -/
inductive CommandEnd (i : Instr) (s : State) : State → Prop where
  /-- A failed check (R247 steps 2 and 3). -/
  | rejected {st : Status} (h : st = .badState ∨ st = .badArgument) : CommandEnd i s (s.answer st 0)
  /-- A stored error returned by BS_ALIGN or BS_FLUSH (R247 step 4). -/
  | sticky {x : StreamErr} (h : s.bs.err = some x) (hi : returnsErr i = true) : CommandEnd i s (s.answer x.status 0)
  /-- A stored error that fails the block (R202 case 1). -/
  | faulted {x : StreamErr} (h : s.bs.err = some x) (hi : failsBlock i = true) (hb : ¬ BadStateWhen i s) :
      CommandEnd i s (s.failed.answer x.status 0)
  /-- A Bit Stream command: the stream and the channel move, nothing else. -/
  | bs {t : State} (hi : ofStream i = true) (ctx : t.ctx = s.ctx) (ac : t.ac = s.ac) (host : t.host = s.host)
      (input : t.chan.input = s.chan.input) (output : s.chan.output <+: t.chan.output)
      (inpos : (∀ dir, i ≠ .bsBind dir) → s.chan.inpos ≤ t.chan.inpos) : CommandEnd i s t
  | ctxWritten {c : Nat} {one total maxf : BitVec 16} {adaptive : Bool} (hi : i = .ctxInit c one total maxf adaptive) :
      CommandEnd i s ((s.putCtx c ⟨one, total, maxf, adaptive⟩).answer .ok 0)
  | ctxRead {v : BitVec 32} (hi : ofContexts i = true) : CommandEnd i s (s.answer .ok v)
  | coderRead {v : BitVec 32} (hi : i = .acStatus) : CommandEnd i s (s.answer .ok v)
  | init (hi : i = .acInit) : CommandEnd i s (State.answer { s with ac := .reset } .ok 0)
  | encStarted (hi : i = .encStart) (hs : s.ac.state = .unstarted) (hm : s.bs.mode = .writer) (he : s.bs.err = none) :
      CommandEnd i s (State.answer { s with ac := ⟨.started, .enc, 0, 0xFFFFFFFF, s.ac.code, 0, false, 0⟩ } .ok 0)
  | encSymbol {c : Nat} {x : Context} {bit : Bool} {e : Engine} (hi : i = .encRegular c bit) (hs : s.encoding = true)
      (he : s.bs.err = none)
      (hc : s.ctx[c]? = some x) (h : EncFrame s.engine e) (hx : e.stream.bs.err = none) :
      CommandEnd i s (((s.setEngine e).putCtx c (x.update bit)).answer .ok 0)
  | encBypassed {bit : Bool} {e : Engine} (hi : i = .encBypass bit) (hs : s.encoding = true) (he : s.bs.err = none)
      (h : EncFrame s.engine e) (hx : e.stream.bs.err = none) :
      CommandEnd i s ((s.setEngine e).answer .ok 0)
  | encTerminated {e : Engine} (hi : i = .encTerminate) (hs : s.encoding = true) (he : s.bs.err = none)
      (h : EncFrame s.engine e) (hx : e.stream.bs.err = none) :
      CommandEnd i s ((s.setEngine e).terminate.answer .ok 0)
  | encFailed {x : StreamErr} {e : Engine} (hi : i.op ∈ [Op.encRegular, .encBypass, .encTerminate]) (hs : s.encoding = true)
      (he : s.bs.err = none) (h : EncFrame s.engine e) (hx : e.stream.bs.err = some x) : CommandEnd i s ((s.setEngine e).failed.answer x.status 0)
  | decStarted {e : Engine} (hi : i = .decStart) (hs : s.mayStartDec = true) (he : s.bs.err = none)
      (h : DecFrame s.openDecoder.engine e) (hx : e.stream.bs.err = none) :
      CommandEnd i s ((s.openDecoder.setEngine e).answer .ok 0)
  | decStartFailed {x : StreamErr} {e : Engine} (hi : i = .decStart) (hs : s.mayStartDec = true) (he : s.bs.err = none)
      (h : DecFrame s.openDecoder.engine e) (hx : e.stream.bs.err = some x) :
      CommandEnd i s ((s.openDecoder.setEngine e).failed.answer x.status 0)
  | decSymbol {c : Nat} {x : Context} {bit : Bool} {e : Engine} (hi : i = .decRegular c) (hs : s.decoding = true)
      (he : s.bs.err = none)
      (hc : s.ctx[c]? = some x) (h : DecFrame s.engine e) (hx : e.stream.bs.err = none) :
      CommandEnd i s (((s.setEngine e).putCtx c (x.update bit)).answer .ok (BitVec.ofNat 32 bit.toNat))
  | decBypassed {bit : Bool} {e : Engine} (hi : i = .decBypass) (hs : s.decoding = true) (he : s.bs.err = none)
      (h : DecFrame s.engine e) (hx : e.stream.bs.err = none) :
      CommandEnd i s ((s.setEngine e).answer .ok (BitVec.ofNat 32 bit.toNat))
  | decFailed {x : StreamErr} {e : Engine} (hi : i.op ∈ [Op.decRegular, .decBypass]) (hs : s.decoding = true)
      (he : s.bs.err = none) (h : DecFrame s.engine e) (hx : e.stream.bs.err = some x) : CommandEnd i s ((s.setEngine e).failed.answer x.status 0)
  | decTerminated (hi : i = .decTerminate) (hs : s.decoding = true) (he : s.bs.err = none)
      (hc : s.ac.code = s.ac.low.setWidth 32) : CommandEnd i s (s.terminate.answer .ok 0)
  | decMismatched (hi : i = .decTerminate) (hs : s.decoding = true) (he : s.bs.err = none)
      (hc : s.ac.code ≠ s.ac.low.setWidth 32) :
      CommandEnd i s (s.failed.answer .decodeFailure 0)

/-- Every next state of every command is one of these ends. -/
theorem exec_ends {i : Instr} {s t : State} (ht : exec i s = .next t) : CommandEnd i s t := by
  have rd {i : Instr} {u : Stream} (hi : ofStream i = true) (h : ReadFrame s.stream u) (st : Status) (v : BitVec 32) :
      CommandEnd i s ((s.setStream u).answer st v) :=
    .bs hi rfl rfl rfl h.input ⟨[], by simpa using h.output.symm⟩ fun _ => h.inpos
  have wr {i : Instr} {u : Stream} (hi : ofStream i = true) (h : WriteFrame s.stream u) (st : Status) (v : BitVec 32) :
      CommandEnd i s ((s.setStream u).answer st v) :=
    .bs hi rfl rfl rfl h.input h.output fun _ => Nat.le_of_eq h.inpos.symm
  have still {i : Instr} (hi : ofStream i = true) (b : BitStream) (r : Option Response) :
      CommandEnd i s { s with bs := b, resp := r } :=
    .bs hi rfl rfl rfl rfl (List.prefix_refl _) fun _ => Nat.le_refl _
  cases i with
  | bsBind d =>
    rcases require_next.mp ht with ⟨-, rfl⟩ | ⟨hm, ht⟩
    · exact .rejected (.inl rfl)
    · cases ht
      exact .bs rfl rfl rfl rfl rfl (List.prefix_refl _) fun h => absurd rfl (h d)
  | bsGetbits n =>
    rcases require_next.mp ht with ⟨-, rfl⟩ | ⟨hm, ht⟩
    · exact .rejected (.inl rfl)
    · rcases require_next.mp ht with ⟨-, rfl⟩ | ⟨hm2, ht⟩
      · exact .rejected (.inr rfl)
      · rcases runStream_ends (getBits_frame _ _) ht with ⟨a, u, e, h, -, ht⟩ | ⟨x, u, h, -, rfl⟩
        · cases ht; exact rd rfl h _ _
        · exact rd rfl h _ _
  | bsPutbits n v =>
    rcases require_next.mp ht with ⟨-, rfl⟩ | ⟨hm, ht⟩
    · exact .rejected (.inl rfl)
    · rcases require_next.mp ht with ⟨-, rfl⟩ | ⟨hm2, ht⟩
      · exact .rejected (.inr rfl)
      · rcases runStream_ends (putBits_frame _ _ _) ht with ⟨a, u, e, h, -, ht⟩ | ⟨x, u, h, -, rfl⟩
        · cases ht; exact wr rfl h _ _
        · exact wr rfl h _ _
  | bsAlign =>
    rcases require_next.mp ht with ⟨-, rfl⟩ | ⟨hm, ht⟩
    · exact .rejected (.inl rfl)
    · rcases unlessErr_next.mp ht with ⟨x, hx, rfl⟩ | ⟨hx, ht⟩
      · exact .sticky hx rfl
      · split at ht
        · cases ht
          exact still rfl _ _
        · rcases runStream_ends (flushPartial_frame _) ht with ⟨a, u, e, h, -, ht⟩ | ⟨x, u, h, -, rfl⟩
          · cases ht; exact wr rfl h _ _
          · exact wr rfl h _ _
  | bsFlush =>
    rcases require_next.mp ht with ⟨-, rfl⟩ | ⟨hm, ht⟩
    · exact .rejected (.inl rfl)
    · rcases unlessErr_next.mp ht with ⟨x, hx, rfl⟩ | ⟨hx, ht⟩
      · exact .sticky hx rfl
      · rcases runStream_ends (flushPartial_frame _) ht with ⟨a, u, e, h, -, ht⟩ | ⟨x, u, h, -, rfl⟩
        · cases ht; exact wr rfl h _ _
        · exact wr rfl h _ _
  | bsClose =>
    rcases require_next.mp ht with ⟨-, rfl⟩ | ⟨hm, ht⟩
    · exact .rejected (.inl rfl)
    · split at ht
      · cases ht; exact still rfl _ _
      · split at ht
        · have hf := flushPartial_frame s.stream
          split at ht
          · next heq =>
            rw [heq] at hf; cases ht
            exact .bs rfl rfl rfl rfl hf.1.input hf.1.output fun _ => Nat.le_of_eq hf.1.inpos.symm
          · next heq =>
            rw [heq] at hf; cases ht
            exact .bs rfl rfl rfl rfl hf.1.input hf.1.output fun _ => Nat.le_of_eq hf.1.inpos.symm
        · cases ht; exact still rfl _ _
  | bsSetLimit l =>
    rcases require_next.mp ht with ⟨-, rfl⟩ | ⟨hm, ht⟩
    · exact .rejected (.inl rfl)
    · cases ht; exact still rfl _ _
  | bsClearLimit =>
    rcases require_next.mp ht with ⟨-, rfl⟩ | ⟨hm, ht⟩
    · exact .rejected (.inl rfl)
    · cases ht; exact still rfl _ _
  | bsClearError =>
    rcases require_next.mp ht with ⟨-, rfl⟩ | ⟨hm, ht⟩
    · exact .rejected (.inl rfl)
    · cases ht; exact still rfl _ _
  | bsStatus => cases ht; exact still rfl _ _
  | bsGetLimit => cases ht; exact still rfl _ _
  | ctxInit c o tt m a =>
    simp only [exec, execCtxInit] at ht
    split at ht
    · cases ht; exact .rejected (.inr rfl)
    · rcases require_next.mp ht with ⟨-, rfl⟩ | ⟨hm, ht⟩
      · exact .rejected (.inr rfl)
      · cases ht; exact .ctxWritten rfl
  | ctxRead c =>
    simp only [exec, execCtxRead] at ht
    split at ht <;> cases ht
    · exact .rejected (.inr rfl)
    · exact .ctxRead rfl
  | ctxReadCfg c =>
    simp only [exec, execCtxReadCfg] at ht
    split at ht <;> cases ht
    · exact .rejected (.inr rfl)
    · exact .ctxRead rfl
  | acInit => cases ht; exact .init rfl
  | acStatus => cases ht; exact .coderRead rfl
  | encStart =>
    rcases require_next.mp ht with ⟨-, rfl⟩ | ⟨hm, ht⟩
    · exact .rejected (.inl rfl)
    · obtain ⟨h1, h2⟩ := (mayStartEnc_iff s).mp hm
      rcases unlessFaulted_next.mp ht with ⟨x, hx, rfl⟩ | ⟨hx, ht⟩
      · exact .faulted hx rfl (by simp only [BadStateWhen]; tauto)
      · cases ht; exact .encStarted rfl h1 h2 hx
  | encRegular c bit =>
    rcases require_next.mp ht with ⟨-, rfl⟩ | ⟨hm, ht⟩
    · exact .rejected (.inl rfl)
    · have hm' := (encoding_iff s).mp hm
      split at ht
      · cases ht; exact .rejected (.inr rfl)
      · next y hy =>
        rcases unlessFaulted_next.mp ht with ⟨x, hx, rfl⟩ | ⟨hx, ht⟩
        · exact .faulted hx rfl (by simp only [BadStateWhen]; tauto)
        · rcases runCoder_enc (encodeSymbol_frame _ _ _ _) ht with ⟨a, e, -, h, hne, ht⟩ | ⟨x, e, h, hxx, rfl⟩
          · cases ht; exact .encSymbol rfl hm hx hy h (hne.trans hx)
          · exact .encFailed (by simp [Instr.op]) hm hx h hxx
  | encBypass bit =>
    rcases require_next.mp ht with ⟨-, rfl⟩ | ⟨hm, ht⟩
    · exact .rejected (.inl rfl)
    · have hm' := (encoding_iff s).mp hm
      rcases unlessFaulted_next.mp ht with ⟨x, hx, rfl⟩ | ⟨hx, ht⟩
      · exact .faulted hx rfl (by simp only [BadStateWhen]; tauto)
      · rcases runCoder_enc (encodeSymbol_frame _ _ _ _) ht with ⟨a, e, -, h, hne, ht⟩ | ⟨x, e, h, hxx, rfl⟩
        · cases ht; exact .encBypassed rfl hm hx h (hne.trans hx)
        · exact .encFailed (by simp [Instr.op]) hm hx h hxx
  | encTerminate =>
    rcases require_next.mp ht with ⟨-, rfl⟩ | ⟨hm, ht⟩
    · exact .rejected (.inl rfl)
    · have hm' := (encoding_iff s).mp hm
      rcases unlessFaulted_next.mp ht with ⟨x, hx, rfl⟩ | ⟨hx, ht⟩
      · exact .faulted hx rfl (by simp only [BadStateWhen]; tauto)
      · rcases runCoder_enc (encFlush_frame _) ht with ⟨a, e, -, h, hne, ht⟩ | ⟨x, e, h, hxx, rfl⟩
        · cases ht; exact .encTerminated rfl hm hx h (hne.trans hx)
        · exact .encFailed (by simp [Instr.op]) hm hx h hxx
  | decStart =>
    rcases require_next.mp ht with ⟨-, rfl⟩ | ⟨hm, ht⟩
    · exact .rejected (.inl rfl)
    · have hm' := (mayStartDec_iff s).mp hm
      rcases unlessFaulted_next.mp ht with ⟨x, hx, rfl⟩ | ⟨hx, ht⟩
      · exact .faulted hx rfl (by simp only [BadStateWhen]; tauto)
      · rcases runCoder_dec (loadCode_frame _ _) ht with ⟨a, e, -, h, hne, ht⟩ | ⟨x, e, h, hxx, rfl⟩
        · cases ht; exact .decStarted rfl hm hx h (hne.trans hx)
        · exact .decStartFailed rfl hm hx h hxx
  | decRegular c =>
    rcases require_next.mp ht with ⟨-, rfl⟩ | ⟨hm, ht⟩
    · exact .rejected (.inl rfl)
    · have hm' := (decoding_iff s).mp hm
      split at ht
      · cases ht; exact .rejected (.inr rfl)
      · next y hy =>
        rcases unlessFaulted_next.mp ht with ⟨x, hx, rfl⟩ | ⟨hx, ht⟩
        · exact .faulted hx rfl (by simp only [BadStateWhen]; tauto)
        · rcases runCoder_dec (decodeSymbol_frame _ _ _) ht with ⟨a, e, -, h, hne, ht⟩ | ⟨x, e, h, hxx, rfl⟩
          · cases ht; exact .decSymbol rfl hm hx hy h (hne.trans hx)
          · exact .decFailed (by simp [Instr.op]) hm hx h hxx
  | decBypass =>
    rcases require_next.mp ht with ⟨-, rfl⟩ | ⟨hm, ht⟩
    · exact .rejected (.inl rfl)
    · have hm' := (decoding_iff s).mp hm
      rcases unlessFaulted_next.mp ht with ⟨x, hx, rfl⟩ | ⟨hx, ht⟩
      · exact .faulted hx rfl (by simp only [BadStateWhen]; tauto)
      · rcases runCoder_dec (decodeSymbol_frame _ _ _) ht with ⟨a, e, -, h, hne, ht⟩ | ⟨x, e, h, hxx, rfl⟩
        · cases ht; exact .decBypassed rfl hm hx h (hne.trans hx)
        · exact .decFailed (by simp [Instr.op]) hm hx h hxx
  | decTerminate =>
    rcases require_next.mp ht with ⟨-, rfl⟩ | ⟨hm, ht⟩
    · exact .rejected (.inl rfl)
    · have hm' := (decoding_iff s).mp hm
      rcases unlessFaulted_next.mp ht with ⟨x, hx, rfl⟩ | ⟨hx, ht⟩
      · exact .faulted hx rfl (by simp only [BadStateWhen]; tauto)
      · split at ht
        · next hc => cases ht; exact .decTerminated rfl hm hx hc
        · next hc => cases ht; exact .decMismatched rfl hm hx hc

/-- A stream error's status is none of the statuses of the checks, and not OK (R96). -/
theorem StreamErr.status_ne (x : StreamErr) :
    x.status ≠ .badState ∧ x.status ≠ .badArgument ∧ x.status ≠ .badCommand ∧ x.status ≠ .ok ∧ x.status ≠ .decodeFailure := by
  cases x <;> simp [StreamErr.status]

end Sys2Proof.Machine
end

