-- ==== Sys2Proof/Laws/Decode.lean ====
section
/-! SUPPORT. The fields of a CMD word and the decoder's pieces (30_encoding.md R81 to R87): packing and cutting are inverse,
an OP value names at most one operation, and all the decoder can answer. -/

namespace Sys2Proof

@[ext] theorem Fields.eq_of {f g : Fields} (h1 : f.op = g.op) (h2 : f.ctx = g.ctx) (h3 : f.b = g.b) (h4 : f.rsv = g.rsv)
    (h5 : f.imm = g.imm) : f = g := by
  cases f; cases g; simp_all

/-- Every bit of a CMD word is in exactly one field (R81): packing a cut word gives the word. -/
theorem pack_fieldsOf (w : Word) : pack (fieldsOf w) = w := by
  apply BitVec.eq_of_getLsbD_eq
  intro k hk
  simp only [pack, fieldsOf, BitVec.getLsbD_or, BitVec.getLsbD_shiftLeft, BitVec.getLsbD_setWidth, BitVec.getLsbD_extractLsb']
  interval_cases k <;> simp

/-- Cutting a packed word gives the fields (R81). -/
theorem fieldsOf_pack (f : Fields) : fieldsOf (pack f) = f := by
  ext k hk <;>
    simp only [pack, fieldsOf, BitVec.getElem_extractLsb', BitVec.getLsbD_or, BitVec.getLsbD_shiftLeft,
      BitVec.getLsbD_setWidth] <;>
    interval_cases k <;> simp [BitVec.getLsbD_eq_getElem]

/-- Two words with the same fields are the same word. -/
theorem fieldsOf_inj {v w : Word} (h : fieldsOf v = fieldsOf w) : v = w := by
  rw [← pack_fieldsOf v, h, pack_fieldsOf]

/-- The OP column names each operation once (R85). -/
theorem opOf_code (o : Op) : opOf o.code = some o := by cases o <;> rfl

theorem opOf_eq_some {code : BitVec 5} {o : Op} : opOf code = some o ↔ code = o.code := by
  constructor
  · intro h
    have := List.find?_some h
    simpa using (beq_iff_eq.mp this).symm
  · rintro rfl; exact opOf_code o

/-- All the decoder can answer (R87). -/
theorem decode_ok_iff {cmd data : Word} {i : Instr} :
    decode cmd data = .ok i ↔
      ∃ o, (fieldsOf cmd).op = o.code ∧ unusedZero o (fieldsOf cmd) = true ∧ operands o (fieldsOf cmd) data = i := by
  unfold decode
  cases h : opOf (fieldsOf cmd).op with
  | none =>
    simp only [reduceCtorEq, false_iff, not_exists, not_and]
    intro o ho
    rw [ho, opOf_code] at h; cases h
  | some o =>
    have ho := opOf_eq_some.mp h
    by_cases hz : unusedZero o (fieldsOf cmd) = true
    · simp only [hz, if_true, Except.ok.injEq]
      constructor
      · intro e; exact ⟨o, ho, hz, e⟩
      · rintro ⟨p, hp, -, e⟩
        have : some o = some p := by rw [← h, hp, opOf_code]
        cases this; exact e
    · simp only [if_neg hz]
      simp only [reduceCtorEq, false_iff, not_exists, not_and]
      intro p hp hz'
      have : some o = some p := by rw [← h, hp, opOf_code]
      cases this; exact absurd hz' hz

/-- The operation of a decoded command is the one OP names. -/
theorem operands_op (o : Op) (f : Fields) (data : Word) : (operands o f data).op = o := by cases o <;> rfl

/-- Decoded operands fit their fields (R81, R88). -/
theorem operands_wf (o : Op) (f : Fields) (data : Word) : (operands o f data).wf = true := by
  have h1 := f.imm.isLt
  have h2 := f.ctx.isLt
  cases o <;> simp [operands, Instr.wf, fitsImm, fitsCtx] <;> omega

/-- `CTX_INIT`'s DATA word is cut into the halves it was built from (R82). -/
theorem data_halves (one total : BitVec 16) :
    dataOne (one.setWidth 32 <<< 16 ||| total.setWidth 32) = one ∧
      dataTotal (one.setWidth 32 <<< 16 ||| total.setWidth 32) = total := by
  constructor <;> apply BitVec.eq_of_getLsbD_eq <;> intro k hk <;>
    simp only [dataOne, dataTotal, BitVec.getLsbD_extractLsb', BitVec.getLsbD_or, BitVec.getLsbD_shiftLeft,
      BitVec.getLsbD_setWidth] <;>
    interval_cases k <;> simp

/-- The halves of a DATA word make it again (R82). -/
theorem data_of_halves (data : Word) : (dataOne data).setWidth 32 <<< 16 ||| (dataTotal data).setWidth 32 = data := by
  apply BitVec.eq_of_getLsbD_eq
  intro k hk
  simp only [dataOne, dataTotal, BitVec.getLsbD_or, BitVec.getLsbD_shiftLeft, BitVec.getLsbD_setWidth,
    BitVec.getLsbD_extractLsb']
  interval_cases k <;> simp

/-- A one-bit field is the field of its truth value (R88). -/
theorem bitField_bit (f : Fields) : bitField f.bit = f.b := by
  obtain ⟨_, _, b, _, _⟩ := f
  show bitField (b == 1) = b
  revert b; decide

/-! ## The mask and match rows -/

/-- The mask of a row (R85) covers OP, RSV and every field the operation does not use. -/
def Op.maskFields (o : Op) : Fields :=
  ⟨.allOnes 5, if o.uses.ctx then 0 else .allOnes 8, if o.uses.b then 0 else .allOnes 1, .allOnes 2,
    if o.uses.imm then 0 else .allOnes 16⟩

theorem Op.fieldsOf_mask (o : Op) : fieldsOf o.maskWord = o.maskFields := by cases o <;> rfl

theorem Op.fieldsOf_match (o : Op) : fieldsOf o.matchWord = ⟨o.code, 0, 0, 0, 0⟩ := by cases o <;> rfl

theorem fieldsOf_and (v w : Word) :
    fieldsOf (v &&& w) =
      ⟨(fieldsOf v).op &&& (fieldsOf w).op, (fieldsOf v).ctx &&& (fieldsOf w).ctx, (fieldsOf v).b &&& (fieldsOf w).b,
        (fieldsOf v).rsv &&& (fieldsOf w).rsv, (fieldsOf v).imm &&& (fieldsOf w).imm⟩ := by
  simp [fieldsOf, BitVec.extractLsb'_and]

/-- A field under its part of the mask is zero exactly when it is used or zero. -/
theorem masked_zero {n : Nat} (used : Bool) (v : BitVec n) :
    (v &&& if used = true then 0 else BitVec.allOnes n) = 0 ↔ used = true ∨ v = 0 := by
  cases used <;> simp

/-- A row selects a word exactly when OP is the row's and the unused fields are zero (R83, R85, R87). -/
theorem selects_iff (o : Op) (cmd : Word) :
    o.selects cmd = true ↔ (fieldsOf cmd).op = o.code ∧ unusedZero o (fieldsOf cmd) = true := by
  have key : o.selects cmd = true ↔ fieldsOf (cmd &&& o.maskWord) = fieldsOf o.matchWord :=
    ⟨fun h => by rw [beq_iff_eq.mp h], fun h => beq_iff_eq.mpr (fieldsOf_inj h)⟩
  rw [key, fieldsOf_and, o.fieldsOf_mask, o.fieldsOf_match]
  simp only [Op.maskFields, unusedZero, Fields.mk.injEq, BitVec.and_allOnes, masked_zero, Bool.and_eq_true, Bool.or_eq_true,
    beq_iff_eq]
  tauto

end Sys2Proof
end

