-- ==== Sys2Proof/Laws/PerInstr.lean ====
section
/-! SUPPORT. A law of every command, one lemma a constructor: the CMD word a command encodes to is selected by its own row of
30_encoding.md R85, and by no other (R83, R97). -/

namespace Sys2Proof.Laws.RowSelects

/-- The row of the command, and no other row, selects the CMD word the command encodes to. -/
def Statement (i : Instr) : Prop :=
  i.op.selects (encode i).1 = true ∧ ∀ o : Op, o.selects (encode i).1 = true → o = i.op

/-- The encoded fields decide it: OP is the row's, and the fields the row does not use are zero. -/
theorem of_fields {i : Instr} (h : (encodeFields i).op = i.op.code) (hz : unusedZero i.op (encodeFields i) = true) :
    Statement i := by
  refine ⟨?_, fun o ho => ?_⟩
  · rw [selects_iff, encode, fieldsOf_pack]; exact ⟨h, hz⟩
  · rw [selects_iff, encode, fieldsOf_pack] at ho
    have := opOf_code o
    rw [← ho.1, h, opOf_code] at this
    cases this; rfl

theorem bsBind (dir : Direction) : Statement (.bsBind dir) := by cases dir <;> exact of_fields rfl rfl

theorem bsGetbits (n : Nat) : Statement (.bsGetbits n) := of_fields rfl rfl

theorem bsPutbits (n : Nat) (value : Word) : Statement (.bsPutbits n value) := of_fields rfl rfl

theorem bsAlign : Statement .bsAlign := of_fields rfl rfl

theorem bsFlush : Statement .bsFlush := of_fields rfl rfl

theorem bsClose : Statement .bsClose := of_fields rfl rfl

theorem bsSetLimit (limit : Word) : Statement (.bsSetLimit limit) := of_fields rfl rfl

theorem bsClearLimit : Statement .bsClearLimit := of_fields rfl rfl

theorem bsClearError : Statement .bsClearError := of_fields rfl rfl

theorem bsStatus : Statement .bsStatus := of_fields rfl rfl

theorem bsGetLimit : Statement .bsGetLimit := of_fields rfl rfl

theorem ctxInit (c : Nat) (one total maxf : BitVec 16) (adaptive : Bool) :
    Statement (.ctxInit c one total maxf adaptive) := of_fields rfl rfl

theorem ctxRead (c : Nat) : Statement (.ctxRead c) := of_fields rfl rfl

theorem ctxReadCfg (c : Nat) : Statement (.ctxReadCfg c) := of_fields rfl rfl

theorem acInit : Statement .acInit := of_fields rfl rfl

theorem encStart : Statement .encStart := of_fields rfl rfl

theorem encRegular (c : Nat) (bit : Bool) : Statement (.encRegular c bit) := of_fields rfl rfl

theorem encBypass (bit : Bool) : Statement (.encBypass bit) := of_fields rfl rfl

theorem encTerminate : Statement .encTerminate := of_fields rfl rfl

theorem decStart : Statement .decStart := of_fields rfl rfl

theorem decRegular (c : Nat) : Statement (.decRegular c) := of_fields rfl rfl

theorem decBypass : Statement .decBypass := of_fields rfl rfl

theorem decTerminate : Statement .decTerminate := of_fields rfl rfl

theorem acStatus : Statement .acStatus := of_fields rfl rfl

end Sys2Proof.Laws.RowSelects
end

