-- ==== Sys2Proof/Tests/Slice0.lean ====
section
/-! SUPPORT. Tests of the model and witnesses of the statements' hypotheses. Expected values are those of
95_test_vectors.md (named in each docstring), of the tables of 30_encoding.md, or worked by hand from the rule named. -/

set_option synthInstance.maxSize 1000

namespace Sys2Proof.Tests

open Sys2Proof Sys2Proof.Machine

/-! ## Small machines -/

/-- A channel that does not fail for 64 transfers. -/
def chan (input : List Byte) : Channel := ⟨input, 0, [], List.replicate 64 false, 0⟩

/-- A machine of four contexts as after reset (95_test_vectors.md, conventions), on that input. -/
def fresh (input : List Byte) : State := State.resetFor 4 (chan input)

/-- After BS_BIND writer (R130). -/
def writer : State := { fresh [] with bs := ⟨.writer, 0, 8, none, false, 0⟩ }

/-- After BS_BIND reader (R130), on that input. -/
def reader (input : List Byte) : State := { fresh input with bs := ⟨.reader, 0, 0, none, false, 0⟩ }

/-- A writer with that BUF and COUNT. -/
def writerAt (buf : BitVec 8) (count : BitVec 4) : State := { writer with bs := { writer.bs with buf := buf, count := count } }

/-- A reader with that BUF and COUNT. -/
def readerAt (buf : BitVec 8) (count : BitVec 4) (input : List Byte) : State :=
  { reader input with bs := { writer.bs with mode := .reader, buf := buf, count := count } }

/-- That machine with LIMIT armed. -/
def limited (limit : BitVec 32) (s : State) : State := { s with bs := { s.bs with limitEn := true, limit := limit } }

/-- That machine with a stored stream error. -/
def faulted (x : StreamErr) (s : State) : State := { s with bs := { s.bs with err := some x } }

/-- That machine on a channel whose next transfer fails. -/
def failing (s : State) : State := { s with chan := { s.chan with draws := true :: s.chan.draws } }

/-- That machine on a channel whose transfer `j` is the first to fail. -/
def failingAt (j : Nat) (s : State) : State :=
  { s with chan := { s.chan with draws := List.replicate j false ++ true :: s.chan.draws } }

/-- A running encoder block with that interval, on a byte-aligned writer, with nothing held. -/
def encoder (low high : BitVec 33) : State :=
  { writer with ac := { Coder.reset with state := .started, role := .enc, low := low, high := high } }

/-- A running encoder block that holds CACHE and PENDING bytes. -/
def holding (cache : BitVec 8) (pending : BitVec 32) (s : State) : State :=
  { s with ac := { s.ac with cache := cache, cacheValid := true, pending := pending } }

/-- A running decoder block with that interval and window, on a byte-aligned reader. -/
def decoder (low high : BitVec 33) (code : BitVec 32) (input : List Byte) : State :=
  { reader input with ac := { Coder.reset with state := .started, role := .dec, low := low, high := high, code := code } }

/-- That machine with the coder in that STATE and ROLE. -/
def inBlock (st : BlockState) (role : Role) (s : State) : State := { s with ac := { s.ac with state := st, role := role } }

/-- That machine with context 0 replaced. -/
def withCtx0 (x : Context) (s : State) : State := { s with ctx := s.ctx.set 0 x }

/-- The machine after a command; itself where the command stops. -/
def after (i : Instr) (s : State) : State :=
  match exec i s with
  | .next t => t
  | .fault _ => s
  | .refused _ => s

/-- STATUS and RESULT of a command. -/
def answer (i : Instr) (s : State) : Option Response := (after i { s with resp := none }).resp

/-! ## Well-formedness: each check refuses an ill-formed term -/

theorem test_wf_refuses_getbits_count : (Instr.bsGetbits 65536).wf = false := by decide

theorem test_wf_refuses_putbits_count : (Instr.bsPutbits 65536 0).wf = false := by decide

theorem test_wf_refuses_ctx_init_id : (Instr.ctxInit 256 1 2 4 true).wf = false := by decide

theorem test_wf_refuses_ctx_read_id : (Instr.ctxRead 256).wf = false := by decide

theorem test_wf_refuses_ctx_read_cfg_id : (Instr.ctxReadCfg 256).wf = false := by decide

theorem test_wf_refuses_enc_regular_id : (Instr.encRegular 256 true).wf = false := by decide

theorem test_wf_refuses_dec_regular_id : (Instr.decRegular 256).wf = false := by decide

/-! ## Decoding: a word of each command, its fields written out from R81 and R85 (OP, CTX, B, RSV, IMM16) -/

theorem test_decode_bsBind : decode 0b00001_00000000_1_00_0000000000000000 0 = .ok (.bsBind .writer) := by decide

theorem test_decode_bsBind_reader : decode 0b00001_00000000_0_00_0000000000000000 0 = .ok (.bsBind .reader) := by decide

theorem test_decode_bsGetbits : decode 0b00010_00000000_0_00_0000000000010001 0 = .ok (.bsGetbits 17) := by decide

theorem test_decode_bsPutbits :
    decode 0b00011_00000000_0_00_0000000000001100 0xABC = .ok (.bsPutbits 12 0xABC) := by decide

theorem test_decode_bsAlign : decode 0b00100_00000000_0_00_0000000000000000 0 = .ok .bsAlign := by decide

theorem test_decode_bsFlush : decode 0b00101_00000000_0_00_0000000000000000 0 = .ok .bsFlush := by decide

theorem test_decode_bsClose : decode 0b00110_00000000_0_00_0000000000000000 0 = .ok .bsClose := by decide

theorem test_decode_bsSetLimit :
    decode 0b00111_00000000_0_00_0000000000000000 0x80000018 = .ok (.bsSetLimit 0x80000018) := by decide

theorem test_decode_bsClearLimit : decode 0b01000_00000000_0_00_0000000000000000 0 = .ok .bsClearLimit := by decide

theorem test_decode_bsClearError : decode 0b01001_00000000_0_00_0000000000000000 0 = .ok .bsClearError := by decide

theorem test_decode_bsStatus : decode 0b01010_00000000_0_00_0000000000000000 0 = .ok .bsStatus := by decide

theorem test_decode_bsGetLimit : decode 0b01011_00000000_0_00_0000000000000000 0 = .ok .bsGetLimit := by decide

theorem test_decode_ctxInit :
    decode 0b10000_10000001_1_00_1000000000000101 0x80010003 = .ok (.ctxInit 0x81 0x8001 3 0x8005 true) := by decide

theorem test_decode_ctxRead : decode 0b10001_00000011_0_00_0000000000000000 0 = .ok (.ctxRead 3) := by decide

theorem test_decode_ctxReadCfg : decode 0b10010_11111111_0_00_0000000000000000 0 = .ok (.ctxReadCfg 255) := by decide

theorem test_decode_acInit : decode 0b10100_00000000_0_00_0000000000000000 0 = .ok .acInit := by decide

theorem test_decode_encStart : decode 0b10101_00000000_0_00_0000000000000000 0 = .ok .encStart := by decide

theorem test_decode_encRegular : decode 0b10110_00000011_1_00_0000000000000000 0 = .ok (.encRegular 3 true) := by decide

theorem test_decode_encBypass : decode 0b10111_00000000_1_00_0000000000000000 0 = .ok (.encBypass true) := by decide

theorem test_decode_encTerminate : decode 0b11000_00000000_0_00_0000000000000000 0 = .ok .encTerminate := by decide

theorem test_decode_decStart : decode 0b11001_00000000_0_00_0000000000000000 0 = .ok .decStart := by decide

theorem test_decode_decRegular : decode 0b11010_00000001_0_00_0000000000000000 0 = .ok (.decRegular 1) := by decide

theorem test_decode_decBypass : decode 0b11011_00000000_0_00_0000000000000000 0 = .ok .decBypass := by decide

theorem test_decode_decTerminate : decode 0b11100_00000000_0_00_0000000000000000 0 = .ok .decTerminate := by decide

theorem test_decode_acStatus : decode 0b11101_00000000_0_00_0000000000000000 0 = .ok .acStatus := by decide

/-- 95_test_vectors.md section 9: the words that are no command. -/
theorem test_decode_rejects :
    decode 0x00000000 0 = .error (.reservedOp 0) ∧ decode 0x0804FFFF 0 = .error (.nonzeroUnused .bsBind) ∧
      decode 0x60000000 0 = .error (.reservedOp 0x0C) ∧ decode 0x98000000 0 = .error (.reservedOp 0x13) ∧
      decode 0xF8000000 0 = .error (.reservedOp 0x1F) ∧ decode 0xA0000001 0 = .error (.nonzeroUnused .acInit) ∧
      decode 0xB0010000 0 = .error (.nonzeroUnused .encRegular) ∧
      decode 0xD0040000 0 = .error (.nonzeroUnused .decRegular) := by decide

/-- 95_test_vectors.md section 3.2: CTX_INIT 0, 1, 65535, 65535, 0 is 0x8000FFFF with DATA 0x0001FFFF. -/
theorem test_encode_ctxInit : encode (.ctxInit 0 1 65535 65535 false) = (0x8000FFFF, 0x0001FFFF) := by decide

/-- R97's example: ENC_REGULAR 3, 1 is 0xB01C0000. -/
theorem test_encode_encRegular : encode (.encRegular 3 true) = (0xB01C0000, 0) := by decide

/-- The two words of a request as one number: CMD below, DATA above (log entry 15). -/
theorem test_decodeTableWord :
    decodeTableWord 64 0x00010002_800C0004 = some (.ctxInit 1 1 2 4 true) ∧
      decodeTableWord 32 0x88180000 = some (.ctxRead 3) ∧ decodeTableWord 32 0x98000000 = none := by decide

/-- R98: PUT_HEADER is two 16-bit puts; R97's assembler line. -/
theorem test_pseudo_and_asm :
    (Pseudo.putHeader 1 8).expand = [.bsPutbits 16 1, .bsPutbits 16 8] ∧
      (Instr.encRegular 3 true).asm = "ENC_REGULAR 3, 1" := by decide

/-! ## The step -/

/-- From reset, a request for AC_STATUS placed by withFetchWord is the next step: OK with 0 (R93, R30). -/
theorem test_step_runs_fetched_word :
    step (State.reset.withFetchWord 32 0xE8000000) = .next { State.reset with resp := some ⟨.ok, 0⟩ } := rfl

/-- 95_test_vectors.md section 9: a reserved OP from reset is BadCommand. -/
theorem test_step_bad_command :
    step (State.reset.withFetchWord 32 0x60000000) = .next { State.reset with resp := some ⟨.badCommand, 0⟩ } := rfl

/-! ## Bit Stream commands -/

/-- UB1: the second BS_BIND is BadState; a reader starts with COUNT 0, a writer with 8 (R130). -/
theorem test_bsBind :
    answer (.bsBind .reader) writer = some ⟨.badState, 0⟩ ∧ (after (.bsBind .writer) (fresh [])).bs = writer.bs := by decide

/-- RD1: the 16 bits after the first of D5 E6 80 are ABCD. -/
theorem test_bsGetbits_crosses_bytes :
    answer (.bsGetbits 16) { readerAt 0xD5 7 [0xD5, 0xE6, 0x80] with chan := { chan [0xD5, 0xE6, 0x80] with inpos := 1 } } =
      some ⟨.ok, 0xABCD⟩ := by decide

/-- RD5: 8 bits with 4 left: IoExhausted, the 4 bits lost, BS_STATUS 0x110. -/
theorem test_bsGetbits_partial :
    let t := after (.bsGetbits 8) (readerAt 0xAB 4 [])
    t.resp = some ⟨.ioExhausted, 0⟩ ∧ bsStatusWord t.bs = 0x110 := by decide

/-- WR2: 1 then ABCD in 16 bits: D5 E6 out, BUF 0x80, COUNT 7. -/
theorem test_bsPutbits_crosses_bytes :
    let t := after (.bsPutbits 16 0xABCD) (writerAt 0x80 7)
    t.chan.output = [0xD5, 0xE6] ∧ t.bs.buf = 0x80 ∧ t.bs.count = 7 := by decide

/-- WR6: a write that fails in the middle loses the byte and puts no further bit. -/
theorem test_bsPutbits_write_fails :
    let t := after (.bsPutbits 8 0xDE) (failing (writerAt 0xC0 4))
    t.chan.output = [] ∧ bsStatusWord t.bs = 0x228 ∧ t.bs.buf = 0 := by decide

/-- RD2: BS_ALIGN discards the 5 unread bits. -/
theorem test_bsAlign_reader : (after .bsAlign (readerAt 0xA5 5 [0x3C])).bs.count = 0 := by decide

/-- WR3: BS_ALIGN on a writer with COUNT 1 and BUF FE writes FE. -/
theorem test_bsAlign_writer : (after .bsAlign (writerAt 0xFE 1)).chan.output = [0xFE] := by decide

/-- WR2: BS_FLUSH writes the partial byte; at a byte boundary it writes nothing. -/
theorem test_bsFlush :
    (after .bsFlush (writerAt 0x80 7)).chan.output = [0x80] ∧ (after .bsFlush writer).chan.output = [] := by decide

/-- WR4: BS_CLOSE writes 01 111 000 and unbinds. -/
theorem test_bsClose : (after .bsClose (writerAt 0x78 3)).chan.output = [0x78] ∧
    (after .bsClose (writerAt 0x78 3)).bs.mode = .none := by decide

/-- R135: a stored error is returned, nothing is flushed, and the stream is unbound. -/
theorem test_bsClose_faulted : answer .bsClose (faulted .limitExceeded (writerAt 0x78 3)) = some ⟨.limitExceeded, 0⟩ ∧
    (after .bsClose (faulted .limitExceeded (writerAt 0x78 3))).bs = .reset := by decide

/-- WR5: BS_SET_LIMIT 10 arms; a put of 3 with 2 left is LimitExceeded and LIMIT stays 2. -/
theorem test_bsSetLimit : (after (.bsSetLimit 10) writer).bs = (limited 10 writer).bs ∧
    (after (.bsPutbits 3 0) (limited 2 writer)).bs = { (limited 2 writer).bs with err := some .limitExceeded } := by decide

theorem test_bsClearLimit : (after .bsClearLimit (limited 2 writer)).bs = writer.bs := by decide

theorem test_bsClearError : (after .bsClearError (faulted .ioFailure writer)).bs = writer.bs := by decide

/-- WR5: writer, LIMIT_EN, ERR 3, COUNT 8. -/
theorem test_bsStatus : answer .bsStatus (limited 2 (faulted .limitExceeded writer)) = some ⟨.ok, 0x2B8⟩ := by decide

theorem test_bsGetLimit : answer .bsGetLimit (limited 2 writer) = some ⟨.ok, 2⟩ := by decide

/-! ## Contexts -/

/-- Section 3.2: the smallest legal counts are taken; ONE = TOTAL, MAXF < 2 and c >= NUM_CTX are BadArgument. -/
theorem test_ctxInit : (after (.ctxInit 3 1 2 2 true) writer).ctx[3]? = some ⟨1, 2, 2, true⟩ := by decide

theorem test_ctxInit_rejects :
    answer (.ctxInit 0 2 2 4 true) writer = some ⟨.badArgument, 0⟩ ∧
      answer (.ctxInit 0 1 2 1 true) writer = some ⟨.badArgument, 0⟩ ∧
      answer (.ctxInit 0 0 2 4 true) writer = some ⟨.badArgument, 0⟩ ∧
      answer (.ctxInit 0 1 5 4 true) writer = some ⟨.badArgument, 0⟩ ∧
      answer (.ctxInit 4 1 2 4 true) writer = some ⟨.badArgument, 0⟩ := by decide

/-- Section 3.2: from reset, CTX_READ 3 gives 0x00010002 and CTX_READ 4 is BadArgument. -/
theorem test_ctxRead : answer (.ctxRead 3) (fresh []) = some ⟨.ok, 0x00010002⟩ ∧
    answer (.ctxRead 4) (fresh []) = some ⟨.badArgument, 0⟩ := by decide

theorem test_ctxReadCfg : answer (.ctxReadCfg 3) (fresh []) = some ⟨.ok, 0x0001FFFF⟩ := by decide

/-- Section 3.1, rows 7, 8, 10 and 9: rescaling from below and at the ceiling, the 17-bit transient, and ADAPT = 0. -/
theorem test_update :
    Context.update ⟨3, 10, 11, true⟩ true = ⟨2, 6, 11, true⟩ ∧ Context.update ⟨3, 10, 10, true⟩ false = ⟨2, 6, 10, true⟩ ∧
      Context.update ⟨65533, 65534, 65535, true⟩ true = ⟨32767, 32768, 65535, true⟩ ∧
      Context.update ⟨1, 2, 65535, false⟩ true = ⟨1, 2, 65535, false⟩ := by decide

/-! ## The coder -/

/-- Section 4. -/
theorem test_split :
    split 0x100000000 2 3 = 0xAAAAAAAA ∧ split 0x01000000 65534 65535 = 0x00FFFEFF ∧ split 0x01000001 1 32768 = 0x200 := by
  decide

/-- What EmitTop and Shift make of CACHE 0x12, PENDING and LOW: the bytes out, CACHE, PENDING and LOW. -/
def emitted (pending : BitVec 32) (low : BitVec 33) : Option (List Byte × BitVec 8 × BitVec 32 × BitVec 33) :=
  match emitTop (holding 0x12 pending (encoder low low)).engine with
  | .done _ e => some (e.stream.chan.output, e.ac.cache, e.ac.pending, e.ac.shift.low)
  | .raised _ _ => none
  | .overflow => none
  | .diverges => none

/-- Section 5, rows 2, 5 and 6: hold, a carry through held bytes, a carry with t = FF. -/
theorem test_emitTop :
    emitted 0 0x0FF123456 = some ([], 0x12, 1, 0x12345600) ∧
      emitted 3 0x100ABCDEF = some ([0x13, 0, 0, 0], 0x00, 0, 0xABCDEF00) ∧
      emitted 1 0x1FF000000 = some ([0x13, 0], 0xFF, 0, 0) := by decide

/-- X3: a held byte past 2^32 - 1 is refused. -/
theorem test_pending_overflow_refused :
    exec (.encBypass false) (holding 0x12 0xFFFFFFFF (encoder 0x0FF000000 0x0FFFFFFFF)) = .refused .pendingOverflow := rfl

theorem test_acInit : (after .acInit (encoder 5 9)).ac = .reset := by decide

/-- R211. -/
theorem test_encStart : (after .encStart writer).ac = (encoder 0 0xFFFFFFFF).ac := by decide

/-- Section 7.2, row 15: the carry reaches the byte held since row 8. -/
theorem test_encRegular_carry :
    let t := after (.encRegular 0 false) (withCtx0 ⟨5, 9, 65535, true⟩ (holding 0x66 0 (encoder 0x168D68BE4 0x16AAAA926)))
    t.ac.low = 0x0D68BE400 ∧ t.ac.high = 0x1A698E4FF ∧ t.ac.cache = 0x68 ∧ t.chan.output = [0x67] ∧
      t.ctx[0]? = some ⟨5, 10, 65535, true⟩ := by decide

/-- Section 7.1, row 4. -/
theorem test_encRegular_select :
    let t := after (.encRegular 0 true) (withCtx0 ⟨4, 5, 65535, true⟩ (encoder 0xBFFFFFFF 0xFFFFFFFF))
    t.ac.low = 0xCCCCCCCC ∧ t.ac.range = 0x33333334 ∧ t.ctx[0]? = some ⟨5, 6, 65535, true⟩ := by decide

/-- Section 7.2, row 8: the first Shift only loads CACHE. -/
theorem test_encBypass :
    let t := after (.encBypass true) (encoder 0x066666665 0x067777775)
    t.ac.low = 0x0EEEEED00 ∧ t.ac.high = 0x1777775FF ∧ t.ac.cache = 0x66 ∧ t.ac.cacheValid = true ∧ t.chan.output = [] := by
  decide

/-- Section 7.2, the last note: the flush of block BK9. -/
theorem test_encTerminate :
    let t := after .encTerminate (holding 0x68 0 (encoder 0x0D68BE400 0x1A698E4FF))
    t.chan.output = [0x68, 0xD6, 0x8B, 0xE4, 0x00] ∧ acStatusWord t.ac = 0x6 := by decide

/-- P4, step 7: the fourth byte passes the limit, the block fails, three bytes stay on the channel. -/
theorem test_encTerminate_limit :
    let t := after .encTerminate (limited 24 (encoder 0x80000000 0xFFFFFFFF))
    t.resp = some ⟨.limitExceeded, 0⟩ ∧ t.chan.output = [0x80, 0, 0] ∧ acStatusWord t.ac = 0x7 := by decide

/-- DV1: the window is the four bytes in order. -/
theorem test_decStart : (after .decStart (reader [0xE3, 0x8E, 0x38, 0xE1])).ac = (decoder 0 0xFFFFFFFF 0xE38E38E1 []).ac := by
  decide

/-- DV3: three bytes are not enough: IoExhausted, all three read, FAILED and DEC. -/
theorem test_decStart_truncated :
    let t := after .decStart (reader [0xE3, 0x8E, 0x38])
    t.resp = some ⟨.ioExhausted, 0⟩ ∧ t.chan.inpos = 3 ∧ acStatusWord t.ac = 0xB := by decide

/-- DV1, the first symbol. -/
theorem test_decRegular :
    let t := after (.decRegular 0) (decoder 0 0xFFFFFFFF 0xE38E38E1 [])
    t.resp = some ⟨.ok, 1⟩ ∧ t.ac.low = 0x80000000 ∧ t.ctx[0]? = some ⟨2, 3, 65535, true⟩ := by decide

/-- DV2, the eighth symbol is 0: CODE is one below the split. -/
theorem test_decRegular_below_split :
    answer (.decRegular 0) (withCtx0 ⟨8, 9, 65535, true⟩ (decoder 0xDFFFFFFE 0xFFFFFFFF 0xE38E38E0 [])) = some ⟨.ok, 0⟩ := by
  decide

/-- Block BK5, the ninth symbol: off = r0, so 1, and one byte enters the window (R209, worked by hand). -/
theorem test_decBypass :
    let t := after .decBypass (decoder 0xB2000000 0xB2FFFFFF 0xB2800000 [0x00])
    t.resp = some ⟨.ok, 1⟩ ∧ t.chan.inpos = 1 ∧ t.ac.low = 0x80000000 ∧ t.ac.high = 0xFFFFFFFF ∧ t.ac.code = 0x80000000 := by
  decide

/-- DV7: the ninth symbol of a truncated BK5 needs a byte that is not there. -/
theorem test_decBypass_truncated : answer .decBypass (decoder 0xB2000000 0xB2FFFFFF 0xB2800000 []) = some ⟨.ioExhausted, 0⟩ := by
  decide

/-- DV1. -/
theorem test_decTerminate :
    acStatusWord (after .decTerminate (decoder 0xE38E38E1 0xFFFFFFFF 0xE38E38E1 [])).ac = 0xA := by decide

/-- P5, step 4: DecodeFailure, and ERR stays 0. -/
theorem test_decTerminate_fails :
    let t := after .decTerminate (decoder 0x80000000 0xFFFFFFFF 0xB2000000 [])
    t.resp = some ⟨.decodeFailure, 0⟩ ∧ acStatusWord t.ac = 0xB ∧ t.bs.err = none := by decide

/-- P5, step 5. -/
theorem test_acStatus : answer .acStatus (inBlock .failed .dec (fresh [])) = some ⟨.ok, 0xB⟩ := by decide

/-! ## Witnesses: a state and operands that meet all hypotheses of each statement that has some -/

theorem witness_DecodeOfEncodeIsTheCommand :
    (Instr.ctxInit 255 65535 0 65535 true).wf = true ∧ (Instr.bsPutbits 65535 0xFFFFFFFF).wf = true := by decide

theorem witness_DecodedWordsAreTheirEncoding :
    decode 0x18000010 1 = .ok (.bsPutbits 16 1) ∧
      (Instr.bsPutbits 16 1).op ∈ [Op.bsPutbits, .bsSetLimit, .ctxInit] := by decide

theorem witness_MaskAndMatchSelectTheDecodedCommand :
    Op.encRegular.selects 0xB01C0000 = true ∧ (∀ o ∈ Op.all, o.selects 0xB0010000 = false) := by decide

theorem witness_DataIsNoPartOfTheOpcodeMatch :
    (decode 0xB01C0000 7 = .ok (.encRegular 3 true) ∧
      (Instr.encRegular 3 true).op ∉ [Op.bsPutbits, .bsSetLimit, .ctxInit]) ∧
    decode 0x38000000 7 = .ok (.bsSetLimit 7) ∧ decode 0x18000003 7 = .ok (.bsPutbits 3 7) ∧
      decode 0x800C0004 0x00010002 = .ok (.ctxInit 1 1 2 4 true) ∧ decode 0x60000000 7 = .error (.reservedOp 0x0C) := by
  decide

theorem witness_StepRunsTheDecodedRequest :
    ({ writer with host := [.request 0x18000003 5, .reset] } : State).host = .request 0x18000003 5 :: [.reset] ∧
      decode 0x18000003 5 = .ok (.bsPutbits 3 5) := by decide

/-- A reserved OP, a nonzero RSV, and each field nonzero in a command that does not use it. -/
theorem witness_BadCommandChangesNothing :
    ({ writer with host := [.request 0xF8000000 0] } : State).host = [.request 0xF8000000 0] ∧
      (fieldsOf 0xF8000000).op ∈ ([0x00, 0x0C, 0x0D, 0x0E, 0x0F, 0x13, 0x1E, 0x1F] : List (BitVec 5)) ∧
      ((fieldsOf 0xB0010000).op = Op.encRegular.code ∧ (fieldsOf 0xB0010000).rsv ≠ 0) ∧
      ((fieldsOf 0xA0080000).op = Op.acInit.code ∧ Op.acInit.uses.ctx = false ∧ (fieldsOf 0xA0080000).ctx ≠ 0) ∧
      ((fieldsOf 0xD0040000).op = Op.decRegular.code ∧ Op.decRegular.uses.b = false ∧ (fieldsOf 0xD0040000).b ≠ 0) ∧
      ((fieldsOf 0x0804FFFF).op = Op.bsBind.code ∧ Op.bsBind.uses.imm = false ∧ (fieldsOf 0x0804FFFF).imm ≠ 0) := by decide

theorem witness_StepOfTheHostsOtherActions :
    writer.host = [] ∧ ({ writer with host := [.supply [1, 2] [true]] } : State).host = .supply [1, 2] [true] :: [] ∧
      ({ writer with host := [.reset] } : State).host = .reset :: [] := by decide

/-- There is a context, whatever NUM_CTX is. -/
theorem witness_ResetLeavesTheTabledValues : 0 < Config.numCtx := Nat.succ_pos _

theorem witness_OnlyTheListedCommandsAreLegalAfterReset :
    (fresh []).bs = .reset ∧ (fresh []).ac = .reset ∧
      (Instr.ctxRead 3).op ∈ [Op.bsBind, .ctxInit, .ctxRead, .ctxReadCfg, .acInit, .bsStatus, .bsGetLimit, .acStatus] ∧
      Instr.encStart.op ∉ [Op.bsBind, .ctxInit, .ctxRead, .ctxReadCfg, .acInit, .bsStatus, .bsGetLimit, .acStatus] := by
  decide

theorem witness_CommandsReinitializeAsResetDoes :
    (∃ t, exec .acInit (encoder 0 0xFFFFFFFF) = .next t) ∧ (∃ t, exec (.ctxInit 3 1 2 65535 true) writer = .next t) ∧
      3 < writer.ctx.length ∧ ¬ BadStateWhen .bsClose writer ∧ (∃ t, exec .bsClose writer = .next t) :=
  ⟨⟨_, rfl⟩, ⟨_, rfl⟩, by decide, by unfold BadStateWhen; decide, ⟨_, rfl⟩⟩

/-- Both clauses, for one command of each precondition. -/
theorem witness_BadStateExactlyWhenThePreconditionFails :
    BadStateWhen (.bsGetbits 1) writer ∧ ¬ BadStateWhen (.bsGetbits 1) (reader []) ∧
      BadStateWhen (.bsPutbits 1 0) (encoder 0 0xFFFFFFFF) ∧ ¬ BadStateWhen (.bsPutbits 1 0) writer ∧
      BadStateWhen (.encBypass true) (decoder 0 0xFFFFFFFF 0 []) ∧ ¬ BadStateWhen (.encBypass true) (encoder 0 0xFFFFFFFF) ∧
      BadStateWhen .encStart (inBlock .failed .enc writer) ∧ ¬ BadStateWhen .encStart writer := by
  unfold BadStateWhen; decide

/-- Each clause at the boundaries of the ranges: n, the value, the context id and the counts. -/
theorem witness_BadArgumentExactlyWhenAnOperandIsOutOfRange :
    (¬ BadStateWhen (.bsGetbits 0) (reader []) ∧ BadArgumentWhen (.bsGetbits 0) (reader []) ∧
      ¬ BadArgumentWhen (.bsGetbits 1) (reader []) ∧ ¬ BadArgumentWhen (.bsGetbits 31) (reader []) ∧
      BadArgumentWhen (.bsGetbits 32) (reader [])) ∧
    (¬ BadStateWhen (.bsPutbits 3 8) writer ∧ BadArgumentWhen (.bsPutbits 3 8) writer ∧
      ¬ BadArgumentWhen (.bsPutbits 3 7) writer) ∧
    (BadArgumentWhen (.ctxRead 4) writer ∧ ¬ BadArgumentWhen (.ctxRead 3) writer) ∧
    (BadArgumentWhen (.ctxInit 0 1 2 1 true) writer ∧ ¬ BadArgumentWhen (.ctxInit 0 1 2 2 true) writer ∧
      BadArgumentWhen (.ctxInit 0 2 2 2 true) writer ∧ BadArgumentWhen (.ctxInit 0 0 2 2 true) writer ∧
      BadArgumentWhen (.ctxInit 0 1 3 2 true) writer) := by
  unfold BadStateWhen BadArgumentWhen; decide

/-- Both clauses. -/
theorem witness_StoredErrorIsReturnedWithNoTransfer :
    (¬ BadStateWhen (.bsPutbits 3 7) (faulted .ioFailure writer) ∧
      ¬ BadArgumentWhen (.bsPutbits 3 7) (faulted .ioFailure writer) ∧
      (faulted .ioFailure writer).bs.err = some .ioFailure ∧ returnsErr (.bsPutbits 3 7) = true) ∧
    (¬ BadStateWhen (.encRegular 3 true) (faulted .ioFailure (encoder 0 0xFFFFFFFF)) ∧
      ¬ BadArgumentWhen (.encRegular 3 true) (faulted .ioFailure (encoder 0 0xFFFFFFFF)) ∧
      (faulted .ioFailure (encoder 0 0xFFFFFFFF)).bs.err = some .ioFailure ∧ failsBlock (.encRegular 3 true) = true) ∧
    Instr.op .bsClearLimit ∉ [Op.bsClearError, .bsClose, .bsBind] := by
  unfold BadStateWhen BadArgumentWhen; decide

/-- Both clauses: a status that is not OK, and a command with no value. -/
theorem witness_ResultIsZeroWithoutOkOrValue :
    (∃ t, exec (.bsGetbits 8) (readerAt 0xAB 4 []) = .next t) ∧
      answer (.bsGetbits 8) (readerAt 0xAB 4 []) = some ⟨.ioExhausted, 0⟩ ∧ returnsValue .bsAlign = false :=
  ⟨⟨_, rfl⟩, by decide, by decide⟩

theorem witness_BindSetsTheStreamRegisters :
    (fresh []).bs.mode = .none ∧ (fresh []).ac.state ≠ .started := by decide

/-- With the least and the most bits, and with LIMIT just enough. -/
theorem witness_GetbitsReturnsTheNextBits :
    (let s := limited 31 (readerAt 0x01 1 [1, 2, 3, 4])
     1 ≤ 31 ∧ 31 ≤ 31 ∧ s.bs.mode = .reader ∧ s.ac.state ≠ .started ∧ s.bs.Wf ∧ s.bs.err = none ∧
      (s.bs.limitEn = true → 31 ≤ s.bs.limit.toNat) ∧ 31 ≤ s.stream.unread.length ∧
      s.chan.Reliable ((31 + 7 - s.bs.count.toNat) / 8)) ∧
    (let s := readerAt 0x01 1 []
     s.bs.mode = .reader ∧ s.ac.state ≠ .started ∧ s.bs.Wf ∧ s.bs.err = none ∧ s.bs.limitEn = false ∧
      1 ≤ s.stream.unread.length ∧ s.chan.Reliable ((1 + 7 - s.bs.count.toNat) / 8)) := by decide

theorem witness_GetbitsPastTheEndLosesTheBitsTaken :
    let s := limited 16 (readerAt 0x05 4 [7])
    1 ≤ 13 ∧ 13 ≤ 31 ∧ s.bs.mode = .reader ∧ s.ac.state ≠ .started ∧ s.bs.Wf ∧ s.chan.Wf ∧ s.bs.err = none ∧
      (s.bs.limitEn = true → 13 ≤ s.bs.limit.toNat) ∧ s.stream.unread.length < 13 ∧
      s.chan.Reliable (s.chan.input.length - s.chan.inpos + 1) := by decide

/-- The first transfer, with BUF partly read, and the fourth, after every byte there is. -/
theorem witness_FailedReadConsumesNoByte :
    (let s := failingAt 0 (readerAt 0x05 4 [7])
     1 ≤ 5 ∧ 5 ≤ 31 ∧ s.bs.mode = .reader ∧ s.ac.state ≠ .started ∧ s.bs.Wf ∧ s.bs.err = none ∧
      (s.bs.limitEn = true → 5 ≤ s.bs.limit.toNat) ∧ 0 < (5 + 7 - s.bs.count.toNat) / 8 ∧
      0 ≤ s.chan.input.length - s.chan.inpos ∧ s.chan.Reliable 0 ∧ s.chan.drawAt 0 = true) ∧
    (let s := limited 31 (failingAt 3 (readerAt 0x01 1 [1, 2, 3]))
     1 ≤ 31 ∧ 31 ≤ 31 ∧ s.bs.mode = .reader ∧ s.ac.state ≠ .started ∧ s.bs.Wf ∧ s.bs.err = none ∧
      (s.bs.limitEn = true → 31 ≤ s.bs.limit.toNat) ∧ 3 < (31 + 7 - s.bs.count.toNat) / 8 ∧
      3 ≤ s.chan.input.length - s.chan.inpos ∧ s.chan.Reliable 3 ∧ s.chan.drawAt 3 = true) := by decide

/-- With the least and the most bits. -/
theorem witness_PutbitsAppendsTheBits :
    (let s := limited 31 (writerAt 0x80 7)
     1 ≤ 31 ∧ 31 ≤ 31 ∧ (0x7FFFFFFF : Word).toNat < 2 ^ 31 ∧ s.bs.mode = .writer ∧ s.ac.state ≠ .started ∧ s.bs.Wf ∧
      s.bs.err = none ∧ (s.bs.limitEn = true → 31 ≤ s.bs.limit.toNat) ∧
      s.chan.Reliable ((31 + 8 - s.bs.count.toNat) / 8)) ∧
    (let s := writerAt 0xFE 1
     (1 : Word).toNat < 2 ^ 1 ∧ s.bs.mode = .writer ∧ s.ac.state ≠ .started ∧ s.bs.Wf ∧ s.bs.err = none ∧
      s.bs.limitEn = false ∧ s.chan.Reliable ((1 + 8 - s.bs.count.toNat) / 8)) := by decide

/-- The first transfer and the fourth. -/
theorem witness_FailedWriteLosesTheByte :
    (let s := failingAt 0 (writerAt 0xC0 4)
     1 ≤ 4 ∧ 4 ≤ 31 ∧ (0xD : Word).toNat < 2 ^ 4 ∧ s.bs.mode = .writer ∧ s.ac.state ≠ .started ∧ s.bs.Wf ∧
      s.bs.err = none ∧ (s.bs.limitEn = true → 4 ≤ s.bs.limit.toNat) ∧ 0 < (4 + 8 - s.bs.count.toNat) / 8 ∧
      s.chan.Reliable 0 ∧ s.chan.drawAt 0 = true) ∧
    (let s := limited 31 (failingAt 3 (writerAt 0xFE 1))
     1 ≤ 31 ∧ 31 ≤ 31 ∧ (0x7FFFFFFF : Word).toNat < 2 ^ 31 ∧ s.bs.mode = .writer ∧ s.ac.state ≠ .started ∧ s.bs.Wf ∧
      s.bs.err = none ∧ (s.bs.limitEn = true → 31 ≤ s.bs.limit.toNat) ∧ 3 < (31 + 8 - s.bs.count.toNat) / 8 ∧
      s.chan.Reliable 3 ∧ s.chan.drawAt 3 = true) := by decide

/-- R122's partial failure, worked by hand: the second byte of ABCD is lost, the first stays in OUT, LIMIT is not charged. -/
theorem test_put_fails_at_second_byte :
    let t := after (.bsPutbits 16 0xABCD) (limited 16 (failingAt 1 writer))
    t.chan.output = [0xAB] ∧ t.bs = ⟨.writer, 0, 8, some .ioFailure, true, 16⟩ ∧ t.chan.drawn = 2 := by decide

/-- R121's partial failure, worked by hand: the third read fails, two bytes stay consumed. -/
theorem test_get_fails_at_third_byte :
    let t := after (.bsGetbits 24) (limited 24 (failingAt 2 (reader [1, 2, 3])))
    t.chan.inpos = 2 ∧ t.bs = ⟨.reader, 2, 0, some .ioFailure, true, 24⟩ ∧ t.chan.drawn = 3 := by decide

/-- A put and a get of one bit more than LIMIT. -/
theorem witness_LimitRejectsTheWholeTransfer :
    (¬ BadStateWhen (.bsPutbits 3 7) (limited 2 writer) ∧ ¬ BadArgumentWhen (.bsPutbits 3 7) (limited 2 writer) ∧
      (limited 2 writer).bs.err = none ∧ (limited 2 writer).bs.limitEn = true ∧ (limited 2 writer).bs.limit.toNat < 3) ∧
    (¬ BadStateWhen (.bsGetbits 3) (limited 2 (reader [])) ∧ ¬ BadArgumentWhen (.bsGetbits 3) (limited 2 (reader [])) ∧
      (limited 2 (reader [])).bs.err = none ∧ (limited 2 (reader [])).bs.limitEn = true ∧
      (limited 2 (reader [])).bs.limit.toNat < 3) := by
  unfold BadStateWhen BadArgumentWhen; decide

/-- Each of the four clauses: a reader, a byte boundary, a partial byte that is taken, and one whose write fails. -/
theorem witness_AlignAndFlushReachTheByteBoundary :
    ((readerAt 0x05 4 []).ac.state ≠ .started ∧ (readerAt 0x05 4 []).bs.err = none ∧ (readerAt 0x05 4 []).bs.mode = .reader) ∧
    (writer.ac.state ≠ .started ∧ writer.bs.err = none ∧ writer.bs.mode = .writer ∧ writer.bs.Wf ∧ writer.bs.count = 8) ∧
    ((writerAt 0x80 7).bs.mode = .writer ∧ (writerAt 0x80 7).bs.err = none ∧ (writerAt 0x80 7).bs.Wf ∧
      (writerAt 0x80 7).bs.count ≠ 8 ∧ (writerAt 0x80 7).chan.drawAt 0 = false) ∧
    ((failing (writerAt 0xFE 1)).bs.mode = .writer ∧ (failing (writerAt 0xFE 1)).bs.err = none ∧
      (failing (writerAt 0xFE 1)).bs.Wf ∧ (failing (writerAt 0xFE 1)).bs.count ≠ 8 ∧
      (failing (writerAt 0xFE 1)).chan.drawAt 0 = true) := by decide

/-- Each of the three clauses, the third with both outcomes of the write. -/
theorem witness_CloseAlwaysUnbinds :
    ((faulted .ioFailure (writerAt 0x80 7)).bs.mode ≠ .none ∧ (faulted .ioFailure (writerAt 0x80 7)).ac.state ≠ .started ∧
      (faulted .ioFailure (writerAt 0x80 7)).bs.Wf ∧ (faulted .ioFailure (writerAt 0x80 7)).bs.err = some .ioFailure) ∧
    ((reader []).bs.mode = .reader ∧ (reader []).bs.Wf ∧ (reader []).bs.err = none) ∧
    (writer.bs.count = 8 ∧ writer.bs.Wf ∧ writer.bs.err = none) ∧
    ((writerAt 0x80 7).bs.count ≠ 8 ∧ (writerAt 0x80 7).bs.Wf ∧ (writerAt 0x80 7).bs.err = none ∧
      (writerAt 0x80 7).bs.mode = .writer ∧ (writerAt 0x80 7).chan.drawAt 0 = false ∧
      (failing (writerAt 0x80 7)).chan.drawAt 0 = true) := by decide

theorem witness_LimitAndErrorCommandsWriteTheirRegisters : (faulted .ioFailure (encoder 0 0xFFFFFFFF)).bs.mode ≠ .none := by
  decide

theorem witness_ReadCommandsReturnTheTabledFields : writer.ctx[3]? = some ⟨1, 2, 65535, true⟩ := by decide

theorem witness_GetsReturnWhatWasPut :
    (∀ p ∈ [((3 : Nat), (5 : Word)), (31, 0x7FFFFFFF)], 1 ≤ p.1 ∧ p.1 ≤ 31 ∧ p.2.toNat < 2 ^ p.1) ∧
      writer.ac.state ≠ .started ∧ (reader [0xBF, 0xFF, 0xFF, 0xFF, 0xC0]).ac.state ≠ .started ∧
      writer.bs = ⟨.writer, 0, 8, none, false, 0⟩ ∧
      (reader [0xBF, 0xFF, 0xFF, 0xFF, 0xC0]).bs = ⟨.reader, 0, 0, none, false, 0⟩ ∧
      (reader [0xBF, 0xFF, 0xFF, 0xFF, 0xC0]).chan.inpos = 0 ∧ writer.chan.output = [] ∧ writer.chan.Reliable ((34 + 7) / 8) ∧
      (reader [0xBF, 0xFF, 0xFF, 0xFF, 0xC0]).chan.Reliable ((34 + 7) / 8) := by decide

theorem witness_HeaderFieldsAreBigEndian :
    writer.ac.state ≠ .started ∧ writer.bs = ⟨.writer, 0, 8, none, false, 0⟩ ∧ writer.chan.Reliable 4 := by decide

/-- The last context, with the smallest and with the largest counts. -/
theorem witness_CtxInitWritesOneContext :
    3 < writer.ctx.length ∧ 2 ≤ (2 : BitVec 16).toNat ∧ 1 ≤ (1 : BitVec 16).toNat ∧
      (1 : BitVec 16).toNat < (2 : BitVec 16).toNat ∧ (65534 : BitVec 16).toNat < (65535 : BitVec 16).toNat := by decide

/-- Each case: no adaptation, TOTAL + 1 just below MAXF, TOTAL + 1 at MAXF, TOTAL at MAXF. -/
theorem witness_UpdateCountsAndRescales :
    Context.Wf ⟨1, 2, 4, false⟩ ∧ Context.Wf ⟨1, 2, 4, true⟩ ∧ 2 + 1 < 4 ∧ Context.Wf ⟨1, 3, 4, true⟩ ∧ 4 ≤ 3 + 1 ∧
      Context.Wf ⟨65534, 65535, 65535, true⟩ ∧ 65535 ≤ 65535 + 1 := by decide

/-- Resting at MAXF = 2, and at TOTAL = MAXF = 65535. -/
theorem witness_UpdateKeepsTheContextInvariant :
    Context.Wf ⟨1, 2, 2, true⟩ ∧ (2 : BitVec 16).toNat ≤ (2 : BitVec 16).toNat + 1 ∧ Context.Wf ⟨7, 65535, 65535, true⟩ ∧
      (Context.update ⟨1, 2, 2, true⟩ true).total = 2 ∧ (65535 : BitVec 16).toNat + 1 = 65536 := by decide

/-- The longest history without a rescale, and with it both clauses. -/
theorem witness_CountTrajectoryUpToTheFirstRescale : (List.replicate 65532 true).length = 65532 := List.length_replicate

/-- The three commands that write a context. -/
theorem witness_ContextsChangeOnlyThroughTheirWriters :
    (∃ t, exec (.ctxInit 3 1 2 4 false) writer = .next t ∧ t.ctx[3]? = some ⟨1, 2, 4, false⟩) ∧
      writer.ctx[3]? = some ⟨1, 2, 65535, true⟩ ∧
      (∃ t, exec (.encRegular 0 true) (encoder 0 0xFFFFFFFF) = .next t ∧ t.ctx[0]? = some ⟨2, 3, 65535, true⟩) :=
  ⟨⟨_, rfl, rfl⟩, rfl, ⟨_, rfl, rfl⟩⟩

theorem witness_InitAndEncStartSetTheCoder :
    writer.ac.state = .unstarted ∧ writer.bs.mode = .writer ∧ writer.bs.err = none := by decide

/-- 32 bits left exactly, at a bit offset, under a LIMIT of exactly 32. -/
theorem witness_DecStartLoadsTheCodeWindow :
    let s := limited 32 (readerAt 0x05 4 [1, 2, 3, 4])
    s.ac.state = .unstarted ∧ s.bs.mode = .reader ∧ s.bs.Wf ∧ s.bs.err = none ∧
      (s.bs.limitEn = true → 32 ≤ s.bs.limit.toNat) ∧ 32 ≤ s.stream.unread.length ∧ s.chan.Reliable 4 := by decide

theorem witness_DecStartOnTruncatedInputFails :
    let s := readerAt 0x05 4 [1, 2, 3]
    s.ac.state = .unstarted ∧ s.bs.mode = .reader ∧ s.bs.Wf ∧ s.chan.Wf ∧ s.bs.err = none ∧ s.bs.limitEn = false ∧
      s.stream.unread.length < 32 ∧ s.chan.Reliable 4 := by decide

/-- The smallest R with the most uneven counts. -/
theorem witness_SplitLeavesNoNarrowSubInterval :
    2 ^ 24 ≤ 2 ^ 24 ∧ Context.Wf ⟨65534, 65535, 65535, true⟩ ∧ Context.Wf ⟨1, 65535, 65535, true⟩ := by decide

/-- A symbol without a step; one with a step that releases CACHE and three held bytes under a LIMIT of exactly their 32 bits;
and one whose step only holds a byte back, under a LIMIT of 0 and with PENDING at its last value. -/
theorem witness_EncRegularNarrowsTheInterval :
    (let s := encoder 0 0xFFFFFFFF
     s.Inv ∧ s.ac.state = .started ∧ s.ac.role = .enc ∧ s.ctx[3]? = some ⟨1, 2, 65535, true⟩ ∧
      EncoderHasRoom s (s.ac.range * (2 - 1) / 2) true) ∧
    (let s := limited 32 (holding 0x12 3 (encoder 0x0FFABCDEF 0x100ABCDEE))
     s.Inv ∧ s.ac.state = .started ∧ s.ac.role = .enc ∧ s.ctx[0]? = some ⟨1, 2, 65535, true⟩ ∧
      EncoderHasRoom s (s.ac.range * (2 - 1) / 2) true) ∧
    (let s := limited 0 (holding 0x12 0xFFFFFFFE (encoder 0x0FF000000 0x0FFFFFFFF))
     s.Inv ∧ s.ac.state = .started ∧ s.ac.role = .enc ∧ s.ctx[0]? = some ⟨1, 2, 65535, true⟩ ∧
      EncoderHasRoom s (s.ac.range * (2 - 1) / 2) false) := by decide

/-- Where the number of steps changes: 2^24, one less, 2^16, one less, and the narrowest width of R222. -/
theorem test_renormCount :
    renormCount (2 ^ 24) = 0 ∧ renormCount (2 ^ 24 - 1) = 1 ∧ renormCount (2 ^ 16) = 1 ∧ renormCount (2 ^ 16 - 1) = 2 ∧
      renormCount 256 = 2 := by decide

theorem witness_EncBypassHalvesTheInterval :
    (let s := encoder 0x066666665 0x067777775
     s.Inv ∧ s.ac.state = .started ∧ s.ac.role = .enc ∧ EncoderHasRoom s (s.ac.range / 2) true) ∧
    (let s := limited 0 (holding 0x12 0xFFFFFFFE (encoder 0x0FF000000 0x0FFFFFFFF))
     s.Inv ∧ s.ac.state = .started ∧ s.ac.role = .enc ∧ EncoderHasRoom s (s.ac.range / 2) false) := by decide

/-- Section 5, rows 2, 5 and 6, in the words of the statements: the bytes released, CACHE and PENDING. -/
theorem test_released :
    let a (pending : BitVec 32) (low : BitVec 33) : Coder := (holding 0x12 pending (encoder low low)).ac
    ((a 0 0x0FF123456).released = [] ∧ (a 0 0x0FF123456).emitted.pending = 1) ∧
      ((a 3 0x100ABCDEF).released = [0x13, 0, 0, 0] ∧ (a 3 0x100ABCDEF).emitted.cache = 0) ∧
      ((a 1 0x1FF000000).released = [0x13, 0] ∧ (a 1 0x1FF000000).emitted.cache = 0xFF) ∧
      (a 2 0x034ABCDEF).released = [0x12, 0xFF, 0xFF] := by decide

theorem witness_EncTerminateWritesTheCodeValue :
    let s := limited 48 (holding 0x12 1 (encoder 0x0FF000000 0x1FE000000))
    s.Inv ∧ s.ac.state = .started ∧ s.ac.role = .enc ∧
      (s.bs.limitEn = true → 8 * (s.ac.cacheValid.toNat + s.ac.pending.toNat + 4) ≤ s.bs.limit.toNat) ∧
      s.chan.Reliable (s.ac.cacheValid.toNat + s.ac.pending.toNat + 4) ∧ s.ac.KeepsCount 4 := by decide

theorem witness_EmptyBlockIsFourZeroBytes :
    let s := limited 32 (writerAt 0xA0 5)
    s.ac.state = .unstarted ∧ s.bs.mode = .writer ∧ s.bs.Wf ∧ s.bs.err = none ∧
      (s.bs.limitEn = true → 32 ≤ s.bs.limit.toNat) ∧ s.chan.Reliable 4 := by decide

/-- Both decisions: off one below r0 and off at r0. -/
theorem witness_DecRegularRecoversABit :
    (let s := decoder 0 0xFFFFFFFF 0x7FFFFFFF []
     s.Inv ∧ s.ac.state = .started ∧ s.ac.role = .dec ∧ s.ctx[3]? = some ⟨1, 2, 65535, true⟩ ∧
      decide (s.ac.range * (2 - 1) / 2 ≤ s.ac.offset) = false ∧
      DecoderHasInput s (renormCount (symbolWidth s.ac.range (s.ac.range * (2 - 1) / 2) false))) ∧
    (let s := limited 8 (decoder 0xB2000000 0xB2FFFFFF 0xB2800000 [0])
     s.Inv ∧ s.ac.state = .started ∧ s.ac.role = .dec ∧ s.ctx[0]? = some ⟨1, 2, 65535, true⟩ ∧
      decide (s.ac.range * (2 - 1) / 2 ≤ s.ac.offset) = true ∧
      DecoderHasInput s (renormCount (symbolWidth s.ac.range (s.ac.range * (2 - 1) / 2) true))) := by decide

theorem witness_DecBypassRecoversABit :
    let s := decoder 0xB2000000 0xB2FFFFFF 0xB2800000 [0]
    s.Inv ∧ s.ac.state = .started ∧ s.ac.role = .dec ∧
      DecoderHasInput s (renormCount (symbolWidth s.ac.range (s.ac.range / 2) (decide (s.ac.range / 2 ≤ s.ac.offset)))) := by
  decide

/-- Both clauses, and LOW with bit 32 set, which the check ignores. -/
theorem witness_DecTerminateChecksTheWindow :
    (let s := decoder 0x1E38E38E1 0x1FFFFFFFF 0xE38E38E1 []
     s.ac.state = .started ∧ s.ac.role = .dec ∧ s.bs.err = none ∧ s.ac.code.toNat = s.ac.low.toNat % 2 ^ 32) ∧
    (let s := decoder 0xDFFFFFFE 0xFFFFFFFF 0xE38E38E0 []
     s.ac.state = .started ∧ s.ac.role = .dec ∧ s.bs.err = none ∧ s.ac.code.toNat ≠ s.ac.low.toNat % 2 ^ 32) := by decide

theorem witness_FixedEvenContextCodesAsBypass :
    (withCtx0 ⟨1, 2, 65535, false⟩ (encoder 0 0xFFFFFFFF)).ctx[0]? = some ⟨1, 2, 65535, false⟩ ∧
      (∃ t, exec (.encRegular 0 true) (withCtx0 ⟨1, 2, 65535, false⟩ (encoder 0 0xFFFFFFFF)) = .next t) ∧
      Instr.op (.encRegular 0 true) ≠ .ctxInit := ⟨by decide, ⟨_, rfl⟩, by decide⟩

/-- A stream error and a DecodeFailure. -/
theorem witness_CoderErrorAbandonsTheBlock :
    (failsBlock .encTerminate = true ∧ (∃ t, exec .encTerminate (limited 24 (encoder 0x80000000 0xFFFFFFFF)) = .next t ∧
      t.resp = some ⟨.limitExceeded, 0⟩)) ∧
    (failsBlock .decTerminate = true ∧ (∃ t, exec .decTerminate (decoder 0 0xFFFFFFFF 1 []) = .next t ∧
      t.resp = some ⟨.decodeFailure, 0⟩)) :=
  ⟨⟨rfl, _, rfl, rfl⟩, rfl, _, rfl, rfl⟩

/-- The START rows: an unfaulted and a faulted ENC_START; a DEC_START with its bytes, one with too few, and a faulted one. -/
theorem witness_BlockStateFollowsTheTable :
    (∃ t, exec .encStart writer = .next t ∧ t.bs.err = none ∧ t.ac.state = .started ∧ t.ac.role = .enc) ∧
      (∃ t, exec .encStart (faulted .ioFailure writer) = .next t ∧ t.ac.state = .failed ∧ t.ac.role = .none) ∧
      (∃ t, exec .decStart (reader [1, 2, 3, 4]) = .next t ∧ t.bs.err = none ∧ t.ac.state = .started ∧ t.ac.role = .dec) ∧
      (∃ t, exec .decStart (reader [1, 2, 3]) = .next t ∧ t.bs.err ≠ none ∧ t.ac.state = .failed ∧ t.ac.role = .dec) ∧
      (∃ t, exec .decStart (faulted .ioFailure (reader [])) = .next t ∧ t.ac.state = .failed ∧ t.ac.role = .none) :=
  ⟨⟨_, rfl, rfl, rfl, rfl⟩, ⟨_, rfl, rfl, rfl⟩, ⟨_, rfl, rfl, rfl, rfl⟩, ⟨_, rfl, by decide, rfl, rfl⟩, _, rfl, rfl, rfl⟩

/-- The rows of a STARTED block: a symbol of each role, TERMINATE of each role, the two failures of a decoder, and a stream
error at entry and during an encoder's command. -/
theorem witness_BlockStateFollowsTheTable_started :
    (∃ t, exec (.encBypass true) (encoder 0 0xFFFFFFFF) = .next t ∧ t.bs.err = none ∧ t.ac.state = .started) ∧
      (∃ t, exec .decBypass (decoder 0 0xFFFFFFFF 1 []) = .next t ∧ t.bs.err = none ∧ t.ac.state = .started) ∧
      (∃ t, exec .encTerminate (encoder 0 0xFFFFFFFF) = .next t ∧ t.bs.err = none ∧ t.ac.state = .terminated) ∧
      (∃ t, exec .decTerminate (decoder 1 0xFFFFFFFF 1 []) = .next t ∧ t.bs.err = none ∧ t.ac.state = .terminated) ∧
      (∃ t, exec .decTerminate (decoder 0 0xFFFFFFFF 1 []) = .next t ∧ t.bs.err = none ∧ t.ac.state = .failed) ∧
      (∃ t, exec .decBypass (decoder 0xB2000000 0xB2FFFFFF 0xB2800000 []) = .next t ∧ t.bs.err ≠ none ∧
        t.ac.state = .failed) ∧
      (∃ t, exec (.encBypass true) (faulted .ioFailure (encoder 0 0xFFFFFFFF)) = .next t ∧ t.ac.state = .failed) ∧
      (∃ t, exec .encTerminate (limited 24 (encoder 0x80000000 0xFFFFFFFF)) = .next t ∧ t.bs.err ≠ none ∧
        t.ac.state = .failed) :=
  ⟨⟨_, rfl, rfl, rfl⟩, ⟨_, rfl, rfl, rfl⟩, ⟨_, rfl, rfl, rfl⟩, ⟨_, rfl, rfl, rfl⟩, ⟨_, rfl, rfl, rfl⟩,
    ⟨_, rfl, by decide, rfl⟩, ⟨_, rfl, rfl⟩, _, rfl, by decide, rfl⟩

/-- The refusals: the other role, and an operand out of range. -/
theorem witness_BlockStateFollowsTheTable_refused :
    exec .decTerminate (encoder 0 0xFFFFFFFF) = .next { encoder 0 0xFFFFFFFF with resp := some ⟨.badState, 0⟩ } ∧
      exec (.encRegular 4 true) (encoder 0 0xFFFFFFFF) =
        .next { encoder 0 0xFFFFFFFF with resp := some ⟨.badArgument, 0⟩ } ∧
      failsBlock (.bsSetLimit 0) = false ∧ (∃ t, exec (.bsSetLimit 0) (encoder 0 0xFFFFFFFF) = .next t) :=
  ⟨rfl, rfl, rfl, _, rfl⟩

/-- Both block states, a command that is refused and one that runs. -/
theorem witness_ClosedBlockStaysClosedUntilInit :
    (inBlock .terminated .enc writer).ac.state = .terminated ∧ (inBlock .failed .dec (reader [])).ac.state = .failed ∧
      failsBlock .encStart = true ∧ Instr.bsFlush ≠ .acInit ∧
      (∃ t, exec .bsFlush (inBlock .terminated .enc writer) = .next t) :=
  ⟨rfl, rfl, rfl, by decide, _, rfl⟩

/-- One command of each group of the frame. -/
theorem witness_GroupsKeepToTheirState :
    (ofStream (.bsPutbits 16 0xABCD) = true ∧ ∃ t, exec (.bsPutbits 16 0xABCD) writer = .next t) ∧
      (ofContexts (.ctxInit 0 1 2 4 true) = true ∧ ∃ t, exec (.ctxInit 0 1 2 4 true) writer = .next t) ∧
      (ofCoder .encTerminate = true ∧ ofEncoder .encTerminate = true ∧
        ∃ t, exec .encTerminate (encoder 0 0xFFFFFFFF) = .next t) ∧
      (ofDecoder .decStart = true ∧ ∃ t, exec .decStart (reader [1, 2, 3, 4]) = .next t) :=
  ⟨⟨rfl, _, rfl⟩, ⟨rfl, _, rfl⟩, ⟨rfl, rfl, _, rfl⟩, rfl, _, rfl⟩

theorem witness_ChannelOnlyMovesForward :
    (∃ t, exec (.bsGetbits 8) (reader [1]) = .next t) ∧ (∀ dir, Instr.bsGetbits 8 ≠ .bsBind dir) :=
  ⟨⟨_, rfl⟩, fun _ h => Instr.noConfusion h⟩

theorem witness_TransfersPerCommandAreBounded :
    (encoder 0 0xFFFFFFFF).Inv ∧ (∃ t, exec .encTerminate (encoder 0 0xFFFFFFFF) = .next t) := ⟨by decide, _, rfl⟩

/-- The three ends of a command: a next state, a fault (in a state that no run reaches) and the refusal of X3. -/
theorem witness_ThePastOutputDoesNotMatter :
    (∃ t, exec (.encBypass true) (encoder 0 0xFFFFFFFF) = .next t) ∧
      exec (.decBypass) (decoder 1 0 0 [0, 0, 0, 0]) = .fault .renormDiverges ∧
      exec (.encBypass false) (holding 0x12 0xFFFFFFFF (encoder 0x0FF000000 0x0FFFFFFFF)) = .refused .pendingOverflow :=
  ⟨⟨_, rfl⟩, rfl, rfl⟩

theorem witness_EveryStepKeepsTheInvariant :
    ({ encoder 0x066666665 0x067777775 with host := [.request 0xB8040000 0] } : State).Inv ∧
      (∃ t, step { encoder 0x066666665 0x067777775 with host := [.request 0xB8040000 0] } = .next t) := ⟨by decide, _, rfl⟩

/-- PENDING at the largest value the statement admits. -/
theorem witness_EveryCommandCompletes :
    (holding 0x12 0xFFFFFFFB (encoder 0x0FF000000 0x0FFFFFFFF)).Inv ∧
      (holding 0x12 0xFFFFFFFB (encoder 0x0FF000000 0x0FFFFFFFF)).ac.pending.toNat + 4 < 2 ^ 32 := by decide

theorem witness_EncoderBlockFitsTheStatedBudget :
    let l := [Symbol.regular 3 true, .bypass false]
    let s := limited 56 (writerAt 0xA0 5)
    s.Inv ∧ s.ac.state = .unstarted ∧ s.bs.mode = .writer ∧ s.bs.err = none ∧
      (∀ x ∈ l, ∀ c bit, x = Symbol.regular c bit → c < s.ctx.length) ∧ 4 + (l.map Symbol.maxSteps).sum < 2 ^ 32 ∧
      (s.bs.limitEn = true → 8 * (4 + (l.map Symbol.maxSteps).sum) ≤ s.bs.limit.toNat) ∧
      s.chan.Reliable (4 + (l.map Symbol.maxSteps).sum) := by
  refine ⟨by decide, by decide, by decide, by decide, fun x hx c bit h => ?_, by decide, by decide, by decide⟩
  subst h
  simp at hx
  rw [hx.1]; decide

/-- P3, its first block cut to one symbol: the bits 101 are written before it, and its block is 80 00 00 00. -/
theorem witness_DecodingReturnsTheEncodedSymbols :
    let e := writerAt 0xA0 5
    let d := readerAt 0x05 0 [0x80, 0, 0, 0, 0x40]
    let block := byteBits 0x80 ++ List.replicate 24 false
    e.Inv ∧ d.Inv ∧ e.ctx = d.ctx ∧
      (∃ e', issue (encodeBlock [.bypass true]) e = some (e', List.replicate 3 ⟨.ok, 0⟩) ∧
        e'.stream.written = e.stream.written ++ block) ∧
      d.stream.unread = block ++ byteBits 0x40 ∧ d.ac.state = .unstarted ∧ d.bs.mode = .reader ∧ d.bs.err = none ∧
      d.bs.limitEn = false ∧ d.chan.Reliable (block.length / 8) :=
  ⟨by decide, by decide, by decide, ⟨_, rfl, by decide⟩, by decide, by decide, by decide, by decide, by decide, by decide⟩

/-- Each branch: an empty CACHE; a byte held back, and PENDING at its limit; a release with no carry, and one with a carry at
PENDING = 3 under a LIMIT of exactly 32. -/
theorem witness_EmitTopResolvesTheCarry :
    (let e := (encoder 0x0FF000000 0x0FFFFFFFF).engine
     e.stream.bs.mode = .writer ∧ e.stream.bs.Wf ∧ e.stream.bs.err = none ∧ e.ac.cacheValid = false) ∧
    (let e := (holding 0x12 0xFFFFFFFE (encoder 0x0FF000000 0x0FFFFFFFF)).engine
     e.stream.bs.mode = .writer ∧ e.stream.bs.Wf ∧ e.stream.bs.err = none ∧ e.ac.cacheValid = true ∧
      e.ac.low.getLsbD 32 = false ∧ e.ac.low.extractLsb' 24 8 = 0xFF ∧ e.ac.pending.toNat + 1 < 2 ^ 32) ∧
    (let e := (holding 0x12 0xFFFFFFFF (encoder 0x0FF000000 0x0FFFFFFFF)).engine
     e.ac.cacheValid = true ∧ e.ac.low.getLsbD 32 = false ∧ e.ac.low.extractLsb' 24 8 = 0xFF ∧
      2 ^ 32 ≤ e.ac.pending.toNat + 1) ∧
    (let e := (holding 0x12 0 (encoder 0x0FE000000 0x0FFFFFFFF)).engine
     e.ac.cacheValid = true ∧ e.ac.low.extractLsb' 24 8 ≠ 0xFF ∧ e.stream.bs.limitEn = false ∧
      e.stream.chan.Reliable (1 + e.ac.pending.toNat)) ∧
    (let e := (limited 32 (holding 0x12 3 (encoder 0x1FF000000 0x1FFFFFFFF))).engine
     e.stream.bs.mode = .writer ∧ e.stream.bs.Wf ∧ e.stream.bs.err = none ∧ e.ac.cacheValid = true ∧
      e.ac.low.getLsbD 32 = true ∧ (e.stream.bs.limitEn = true → 8 * (1 + e.ac.pending.toNat) ≤ e.stream.bs.limit.toNat) ∧
      e.stream.chan.Reliable (1 + e.ac.pending.toNat)) := by decide

end Sys2Proof.Tests
end

section
/-! The stream's part of the invariant (10_state.md R17, R18; 20_memory.md R63; 40_bitstream.md R146): every procedure
on a bound stream keeps it, however it ends. -/

namespace Sys2Proof.Machine

/-- The stream's part of the invariant: consistent registers, and a position inside the input. -/
abbrev Stream.Wf (t : Stream) : Prop := t.bs.Wf ∧ t.chan.Wf

theorem BitStream.wf_reset : BitStream.reset.Wf := by decide

/-- For a bound reader the invariant is about COUNT and LIMIT (R17, R140). -/
theorem BitStream.wf_reader {b : BitStream} (hm : b.mode = .reader) :
    b.Wf ↔ b.count.toNat ≤ 7 ∧ (b.limitEn = false → b.limit = 0) := by
  simp [BitStream.Wf, hm]

/-- For a bound writer it is about the cursor and LIMIT (R17, R18, R140). -/
theorem BitStream.wf_writer {b : BitStream} (hm : b.mode = .writer) :
    b.Wf ↔ (1 ≤ b.count.toNat ∧ b.count.toNat ≤ 8 ∧ b.buf.toNat % 2 ^ b.count.toNat = 0) ∧
      (b.limitEn = false → b.limit = 0) := by
  simp [BitStream.Wf, hm]

/-- LIMIT is 0 while unarmed (R140). -/
theorem BitStream.Wf.limit_zero {b : BitStream} (h : b.Wf) (hl : b.limitEn = false) : b.limit = 0 := by
  obtain ⟨-, -, -, hz⟩ := h
  exact hz hl

/-- ERR is free in a bound stream. -/
theorem BitStream.Wf.withErr {b : BitStream} (h : b.Wf) (hm : b.mode ≠ .none) (x : Option StreamErr) :
    BitStream.Wf { b with err := x } := by
  obtain ⟨-, hr, hw, hl⟩ := h
  exact ⟨fun hn => absurd hn hm, hr, hw, hl⟩

/-- LIMIT is free in a bound stream, so long as it is 0 while unarmed (R140). -/
theorem BitStream.Wf.withLimit {b : BitStream} (h : b.Wf) (hm : b.mode ≠ .none) {en : Bool} {n : BitVec 32}
    (hl : en = false → n = 0) : BitStream.Wf { b with limitEn := en, limit := n } := by
  obtain ⟨-, hr, hw, -⟩ := h
  exact ⟨fun hn => absurd hn hm, hr, hw, hl⟩

/-- A writer at a byte boundary with an empty BUF (R122, R123). -/
theorem BitStream.Wf.withEmptyByte {b : BitStream} (h : b.Wf) (hm : b.mode = .writer) (x : Option StreamErr) :
    BitStream.Wf { b with buf := 0, count := 8, err := x } :=
  (wf_writer (b := { b with buf := 0, count := 8, err := x }) hm).mpr ⟨by simp, h.limit_zero⟩

/-- A writer whose cursor is between two bits. -/
theorem Stream.Wf.canPut {t : Stream} (h : t.Wf) (hm : t.bs.mode = .writer) : t.CanPut :=
  ((BitStream.wf_writer hm).mp h.1).1

/-- A reader has less than a byte unread in BUF. -/
theorem Stream.Wf.count_le {t : Stream} (h : t.Wf) (hm : t.bs.mode = .reader) : t.bs.count.toNat ≤ 7 :=
  ((BitStream.wf_reader hm).mp h.1).1

theorem chargeLimit_wf {t : Stream} (h : t.Wf) (hm : t.bs.mode ≠ .none) (n : Nat) : (chargeLimit n t).Wf := by
  unfold chargeLimit
  split
  · next hl => exact ⟨h.1.withLimit hm (fun hn => absurd hl (by simp [hn])), h.2⟩
  · exact h

/-! ## Reading -/

/-- After a get the rest of the last byte is unread: at most seven bits (R121). -/
theorem Got.wf {n : Nat} {t u : Stream} (g : Got n t u) (h : t.Wf) (hm : t.bs.mode = .reader) : u.Wf := by
  have hc := h.count_le hm
  have hmode : u.bs.mode = .reader := by rw [g.bs]; exact hm
  refine ⟨(BitStream.wf_reader hmode).mpr ⟨?_, by rw [g.bs]; exact h.1.limit_zero⟩, ?_⟩
  · rw [g.count]; simp only [getBytes]; omega
  · have hi := g.enough
    have hw : t.chan.inpos ≤ t.chan.input.length := h.2
    rw [unread_length] at hi
    rw [Channel.Wf, g.inpos, g.chan]; simp only [getBytes]; omega

theorem GotErr.wf {n : Nat} {t u : Stream} {x : StreamErr} (g : GotErr n t x u) (h : t.Wf) (hm : t.bs.mode = .reader) :
    u.Wf := by
  have hmode : u.bs.mode = .reader := by rw [g.bs]; exact hm
  refine ⟨(BitStream.wf_reader hmode).mpr ⟨by rw [g.bs]; simp, by rw [g.bs]; exact h.1.limit_zero⟩, ?_⟩
  have hi := g.inside h.2
  rw [Channel.Wf, g.chan]; exact hi

/-- GetBits keeps a reader's invariant (R120, R121). -/
theorem getBits_wf (n : Nat) {t : Stream} (h : t.Wf) (hm : t.bs.mode = .reader) : (getBits n t).Ends t Stream.Wf := by
  have hb : t.bs.mode ≠ .none := by simp [hm]
  have hc := h.count_le hm
  rcases getBits_ends n t (by omega) with ⟨x, hx, e⟩ | ⟨-, -, -, e⟩ | ⟨-, -, ⟨u, e, g⟩ | ⟨x, u, e, g⟩⟩ <;> rw [e]
  · exact ⟨h, hx⟩
  · exact ⟨⟨h.1.withErr hb _, h.2⟩, rfl⟩
  · have hu : u.bs.mode ≠ .none := by rw [g.bs]; exact hb
    exact ⟨chargeLimit_wf (g.wf h hm) hu n, by rw [chargeLimit_eq, g.bs]⟩
  · exact ⟨g.wf h hm, by rw [g.bs]⟩

theorem Received.wf {k : Nat} {t u : Stream} (g : Received k t u) (h : t.Wf) (hm : t.bs.mode = .reader) : u.Wf := by
  refine ⟨(BitStream.wf_reader (g.mode.trans hm)).mpr ⟨by rw [g.count]; exact h.count_le hm, fun hl => ?_⟩,
    g.inside (h.count_le hm) h.2⟩
  rw [g.limitEn] at hl
  have he := g.limit
  rw [hl, h.1.limit_zero hl] at he
  exact BitVec.eq_of_toNat_eq he

theorem ReceiveErr.wf {k : Nat} {t u : Stream} {x : StreamErr} (g : ReceiveErr k t x u) (h : t.Wf)
    (hm : t.bs.mode = .reader) : u.Wf := by
  have hmode : u.bs.mode = .reader := by rw [g.bs]; exact hm
  have hl : u.bs.limitEn = t.bs.limitEn := by rw [g.bs]
  refine ⟨(BitStream.wf_reader hmode).mpr ⟨g.count.trans (h.count_le hm), fun hu => ?_⟩, ?_⟩
  · rw [hl] at hu; rw [g.limit hu, h.1.limit_zero hu]
  · have hi := g.inside h.2
    rw [Channel.Wf, g.chan]; exact hi

/-! ## Writing -/

theorem Put.wf {l : List Bool} {t u : Stream} (g : Put l t u) (h : t.Wf) (hm : t.bs.mode = .writer) : u.Wf := by
  have hmode : u.bs.mode = .writer := by rw [g.bs]; exact hm
  exact ⟨(BitStream.wf_writer hmode).mpr ⟨g.canPut, by rw [g.bs]; exact h.1.limit_zero⟩, by rw [g.chan]; exact h.2⟩

theorem PutErr.wf {k : Nat} {l : List Bool} {t u : Stream} {x : StreamErr} (g : PutErr k l t x u) (h : t.Wf)
    (hm : t.bs.mode = .writer) : u.Wf :=
  ⟨by rw [g.bs]; exact h.1.withEmptyByte hm _, by rw [g.chan]; exact h.2⟩

/-- PutBits keeps a writer's invariant (R120, R122). -/
theorem putBits_wf (v n : Nat) {t : Stream} (h : t.Wf) (hm : t.bs.mode = .writer) : (putBits v n t).Ends t Stream.Wf := by
  have hb : t.bs.mode ≠ .none := by simp [hm]
  rcases putBits_ends v n (h.canPut hm) with ⟨x, hx, e⟩ | ⟨-, -, -, e⟩ | ⟨-, -, ⟨u, e, g⟩ | ⟨k, x, u, e, g⟩⟩ <;> rw [e]
  · exact ⟨h, hx⟩
  · exact ⟨⟨h.1.withErr hb _, h.2⟩, rfl⟩
  · have hu : u.bs.mode ≠ .none := by rw [g.bs]; exact hb
    exact ⟨chargeLimit_wf (g.wf h hm) hu n, by rw [chargeLimit_eq, g.bs]⟩
  · exact ⟨g.wf h hm, by rw [g.bs, g.kind]⟩

/-- FlushPartial keeps a writer's invariant (R123). -/
theorem flushPartial_wf {t : Stream} (h : t.Wf) (hm : t.bs.mode = .writer) : (flushPartial t).Ends t Stream.Wf := by
  rcases flushPartial_cases t with ⟨-, e⟩ | ⟨-, -, e⟩ | ⟨-, -, e⟩ <;> rw [e]
  · exact ⟨h, rfl⟩
  · exact ⟨⟨h.1.withEmptyByte hm _, h.2⟩, rfl⟩
  · exact ⟨⟨h.1.withEmptyByte hm _, h.2⟩, rfl⟩

theorem Sent.wf {k : Nat} {l : List Bool} {t u : Stream} (g : Sent k l t u) (h : t.Wf) (hm : t.bs.mode = .writer) :
    u.Wf := by
  refine ⟨(BitStream.wf_writer (g.mode.trans hm)).mpr ⟨g.canPut, fun hl => ?_⟩, by rw [g.chan]; exact h.2⟩
  rw [g.limitEn] at hl
  have he := g.limit
  rw [hl, h.1.limit_zero hl] at he
  exact BitVec.eq_of_toNat_eq he

theorem SendErr.wf {k : Nat} {t u : Stream} {x : StreamErr} (g : SendErr k t x u) (h : t.Wf) (hm : t.bs.mode = .writer) :
    u.Wf := by
  have hmode : u.bs.mode = .writer := by rw [g.bs]; exact hm
  have hl : u.bs.limitEn = t.bs.limitEn := by rw [g.bs]
  refine ⟨(BitStream.wf_writer hmode).mpr ⟨g.canPut, fun hu => ?_⟩, by rw [g.chan]; exact h.2⟩
  rw [hl] at hu; rw [g.limit hu, h.1.limit_zero hu]

end Sys2Proof.Machine
end

section
/-! The invariant of the machine, part by part: which writes keep it, and that every way a command can end keeps it. -/

namespace Sys2Proof.Machine

/-! ## The parts -/

theorem Inv.ctx {s : State} (h : s.Inv) : s.CtxInv := h.1

theorem Inv.stream {s : State} (h : s.Inv) : s.stream.Wf := by
  obtain ⟨-, hb, hw, -⟩ := h
  exact ⟨hb, hw⟩

/-- R221: a running block's interval is wide. -/
theorem Inv.wide {s : State} (h : s.Inv) (hs : s.ac.state = .started) : 2 ^ 24 ≤ s.ac.range := by
  obtain ⟨-, -, -, -, hrun, -⟩ := h
  obtain ⟨-, ⟨-, hr, -⟩, -⟩ := hrun hs
  exact hr

/-- A machine with its registers as after reset (R30). -/
theorem Inv.of_reset {s : State} (hc : s.CtxInv) (hw : s.chan.Wf) (hb : s.bs = .reset) (ha : s.ac = .reset) : s.Inv := by
  refine ⟨hc, by rw [hb]; exact BitStream.wf_reset, hw, ?_⟩
  rw [State.CoderInv, ha]
  exact ⟨fun _ => rfl, nofun, nofun, nofun⟩

/-- A FAILED block leaves the coder's registers free (R201, X1). -/
theorem Inv.failed {s : State} (hc : s.CtxInv) (hw : s.stream.Wf) : s.failed.Inv :=
  ⟨hc, hw.1, hw.2, nofun, nofun, nofun, nofun⟩

/-- Outside a running block nothing ties the coder to the stream. -/
theorem Inv.setStream {s : State} {t : Stream} (h : s.Inv) (hs : s.ac.state ≠ .started) (ht : t.Wf) :
    (s.setStream t).Inv := by
  obtain ⟨hc, -, -, hu, -, hterm⟩ := h
  exact ⟨hc, ht.1, ht.2, hu, fun he => absurd he hs, hterm⟩

/-- A running block needs MODE and an ERR of 0; the other Bit Stream registers are free to change. -/
theorem Inv.withBits {s : State} {b : BitStream} (h : s.Inv) (hb : b.Wf) (hm : b.mode = s.bs.mode)
    (he : s.bs.err = none → b.err = none) : State.Inv { s with bs := b } := by
  obtain ⟨hc, -, hw, hu, hrun, hterm⟩ := h
  refine ⟨hc, hb, hw, hu, fun hs => ?_, hterm⟩
  obtain ⟨hx, hi, hd⟩ := hrun hs
  exact ⟨he hx, hi, by simpa only [hm] using hd⟩

/-- New coder registers need only suit their own STATE. -/
theorem Inv.withCoder {s : State} {a : Coder} (h : s.Inv) (ha : State.CoderInv { s with ac := a }) :
    State.Inv { s with ac := a } := by
  obtain ⟨hc, hb, hw, -⟩ := h
  exact ⟨hc, hb, hw, ha⟩

theorem Inv.putCtx {s : State} {x : Context} (h : s.Inv) (c : Nat) (hx : x.Wf) : (s.putCtx c x).Inv :=
  ⟨CtxInv.putCtx (Inv.ctx h) hx, h.2⟩

/-- R163: Update keeps 1 <= ONE < TOTAL <= MAXF. -/
theorem Context.Wf.update {x : Context} (h : x.Wf) (bit : Bool) : (x.update bit).Wf := by
  have hb : bit.toNat ≤ 1 := by cases bit <;> simp
  rcases update_cases h bit with ⟨-, e⟩ | ⟨-, h1, h2⟩
  · rw [e]; exact h
  · rw [Context.Wf, h1, h2, Context.update_maxf]
    obtain ⟨hm, ho, hlt, hle⟩ := h
    rcases Nat.lt_or_ge (x.total.toNat + 1) x.maxf.toNat with hlow | hcap
    · rw [nextCounts_below hlow]; omega
    · rw [nextCounts_ceiling hcap]; simp only [rescale]; omega

/-- A running encoder after a procedure of its own (R221, R222). -/
theorem Inv.setEncoder {s : State} {e : Engine} (h : s.Inv) (hs : s.ac.state = .started) (hr : s.ac.role = .enc)
    (hm : s.bs.mode = .writer) (hf : EncFrame s.engine e) (hw : e.stream.Wf) (hc : CanEncode e)
    (h1 : 2 ^ 24 ≤ e.ac.range) (h2 : e.ac.range ≤ 2 ^ 32) : (s.setEngine e).Inv := by
  have hst : e.ac.state = .started := hf.state.trans hs
  have hrun : (s.setEngine e).BlockInv :=
    ⟨hc.err, ⟨hc.ordered, h1, h2⟩, .inl ⟨hf.role.trans hr, hf.stream.mode.trans hm, hc.carry⟩⟩
  exact ⟨Inv.ctx (s := s) h, hw.1, hw.2, by simp [hst], fun _ => hrun, by simp [hst], by simp [hst]⟩

/-- A running decoder after a procedure of its own (R221, R225). -/
theorem Inv.setDecoder {s : State} {e : Engine} (h : s.Inv) (hs : s.ac.state = .started) (hr : s.ac.role = .dec)
    (hm : s.bs.mode = .reader) (hf : DecFrame s.engine e) (hw : e.stream.Wf) (hc : CanDecode e)
    (h1 : 2 ^ 24 ≤ e.ac.range) (h2 : e.ac.range ≤ 2 ^ 32) : (s.setEngine e).Inv := by
  have hst : e.ac.state = .started := hf.state.trans hs
  have hrun : (s.setEngine e).BlockInv :=
    ⟨hc.err, ⟨hc.ordered, h1, h2⟩, .inr ⟨hf.role.trans hr, hf.stream.mode.trans hm, hc.inside⟩⟩
  exact ⟨Inv.ctx (s := s) h, hw.1, hw.2, by simp [hst], fun _ => hrun, by simp [hst], by simp [hst]⟩

/-! ## The ends of a command -/

/-- Whatever next state a command gives meets the invariant. -/
def KeepsInv (r : Result) : Prop := ∀ t, r = .next t → t.Inv

theorem keeps_next {s : State} (h : s.Inv) : KeepsInv (.next s) := by rintro t ⟨⟩; exact h

theorem keeps_ended {s : State} (h : s.Inv) (st : Status) (v : BitVec 32) : KeepsInv (ended st v s) := keeps_next h

theorem keeps_require {b : Bool} {s : State} {k : Result} {st : Status} (h : s.Inv) (hk : b = true → KeepsInv k) :
    KeepsInv (require b st s k) := by
  intro t ht
  rcases require_next.mp ht with ⟨-, rfl⟩ | ⟨hb, ht⟩
  · exact h
  · exact hk hb t ht

theorem keeps_unlessErr {s : State} {k : Result} (h : s.Inv) (hk : s.bs.err = none → KeepsInv k) :
    KeepsInv (unlessErr s k) := by
  intro t ht
  rcases unlessErr_next.mp ht with ⟨x, -, rfl⟩ | ⟨he, ht⟩
  · exact h
  · exact hk he t ht

theorem keeps_unlessFaulted {s : State} {k : Result} (h : s.Inv) (hk : s.bs.err = none → KeepsInv k) :
    KeepsInv (unlessFaulted s k) := by
  intro t ht
  rcases unlessFaulted_next.mp ht with ⟨x, -, rfl⟩ | ⟨he, ht⟩
  · exact Inv.failed (s := s) (Inv.ctx (s := s) h) (Inv.stream h)
  · exact hk he t ht

/-- A Bit Stream command's procedure outside a running block. -/
theorem keeps_runStream {α : Type} {p : Stream → Run Stream α} {s : State} {k : α → State → Result} (h : s.Inv)
    (hs : s.ac.state ≠ .started) (hp : (p s.stream).Ends s.stream Stream.Wf) (hk : ∀ a t, t.Inv → KeepsInv (k a t)) :
    KeepsInv (runStream p s k) := by
  intro t ht
  rcases runStream_ends hp ht with ⟨a, u, -, hu, -, ht⟩ | ⟨x, u, hu, -, rfl⟩
  · exact hk a _ (Inv.setStream h hs hu) t ht
  · exact Inv.setStream (s := s) h hs hu

/-- A coder procedure's end in the machine `s`: after a value `Q` holds, and a block that fails meets the invariant. -/
def Coded.Leaves {α : Type} (s : State) (Q : State → Prop) : Coded α → Prop
  | .done _ e => Q (s.setEngine e)
  | .raised _ e => (s.setEngine e).failed.Inv
  | .overflow => True
  | .diverges => True

theorem keeps_runCoder {α : Type} {p : Engine → Coded α} {s : State} {k : α → State → Result} {Q : State → Prop}
    (hp : (p s.engine).Leaves s Q) (hk : ∀ a t, Q t → KeepsInv (k a t)) : KeepsInv (runCoder p s k) := by
  intro t ht
  rcases runCoder_next.mp ht with ⟨a, e, he, ht⟩ | ⟨x, e, he, rfl⟩ <;> rw [he] at hp
  · exact hk a _ hp t ht
  · exact hp

end Sys2Proof.Machine
end

section
/-! The coder's procedures keep the invariant of a running block (42_arith_coder.md R221, R222, R225). -/

namespace Sys2Proof.Machine

/-- R221: renormalization brings the width back between 2^24 and 2^32. -/
theorem Steps.width_bounds {k w : Nat} (h : Steps k w) (hw : w ≤ 2 ^ 32) :
    2 ^ 24 ≤ w * 2 ^ (8 * k) ∧ w * 2 ^ (8 * k) ≤ 2 ^ 32 := by
  refine ⟨h.1, ?_⟩
  cases k with
  | zero => simpa using hw
  | succ k =>
    have hlast := h.2 k (by omega)
    rw [show 8 * (k + 1) = 8 * k + 8 by ring, pow_add, ← Nat.mul_assoc]
    omega

/-- R222(a): the halves of a wide interval are no narrower than 2^8 (R213, R217). -/
theorem split_half {r : Nat} (hr : 2 ^ 24 ≤ r) : 2 ^ 8 ≤ split r 1 2 ∧ split r 1 2 + 2 ^ 8 ≤ r := by
  unfold split; omega

/-- One symbol of the encoder whose parts are both at least 2^8 wide (R212, R213, R222). -/
theorem encodeSymbol_leaves {s : State} {f0 t : Nat} (bit : Bool) (h : s.Inv) (hs : s.encoding = true)
    (h1 : 2 ^ 8 ≤ split s.ac.range f0 t) (h2 : split s.ac.range f0 t + 2 ^ 8 ≤ s.ac.range) :
    (encodeSymbol f0 t bit s.engine).Leaves s State.Inv := by
  obtain ⟨hst, hrole⟩ := (encoding_iff s).mp hs
  obtain ⟨hc, hm, -, hr2⟩ := Inv.canEncode h hst hrole
  obtain ⟨hw1, hw2⟩ := symbolWidth_bounds h1 h2 bit
  obtain ⟨hsteps, hk⟩ := renormCount_steps hw1
  have hf := encodeSymbol_frame f0 t bit s.engine
  rcases encodeSymbol_ends (e := s.engine) hc (Nat.le_trans (by decide) h1) (by simp only [State.engine_ac]; omega)
    (Nat.le_succ_of_le hk) hsteps with ⟨e, eq, g⟩ | ⟨x, e, eq, g, -⟩ | ⟨eq, -⟩ <;> rw [eq] at hf ⊢
  · have hb : 2 ^ 24 ≤ e.ac.range ∧ e.ac.range ≤ 2 ^ 32 := by
      rw [g.range]; exact hsteps.width_bounds (by omega)
    exact Inv.setEncoder h hst hrole hm hf.1 (g.rounds.sent.wf (Inv.stream h) hm) g.can hb.1 hb.2
  · exact Inv.failed (Inv.ctx (s := s) h) (g.wf (Inv.stream h) hm)
  · trivial

/-- The flush of a running encoder leaves nothing held (R210, R214). -/
theorem encFlush_leaves {s : State} (h : s.Inv) (hs : s.encoding = true) :
    (encFlush s.engine).Leaves s fun t => t.terminate.Inv := by
  obtain ⟨hst, hrole⟩ := (encoding_iff s).mp hs
  obtain ⟨hc, hm, -, -⟩ := Inv.canEncode h hst hrole
  rcases encFlush_ends hc.canPut hc.err hc.resolvable with ⟨e, eq, g⟩ | ⟨x, e, eq, g, -⟩ | ⟨eq, -⟩ <;> rw [eq]
  · obtain ⟨l, hsent⟩ := g.sent
    have hw := hsent.wf (Inv.stream h) hm
    have hac := g.ac
    have hcoder : (s.setEngine e).terminate.CoderInv := by
      rw [State.CoderInv, State.terminate_ac, State.setEngine_ac, hac]
      exact ⟨nofun, nofun, fun _ => by simp [hrole], fun _ _ => ⟨rfl, rfl, rfl⟩⟩
    exact ⟨Inv.ctx (s := s) h, hw.1, hw.2, hcoder⟩
  · exact Inv.failed (Inv.ctx (s := s) h) (g.wf (Inv.stream h) hm)
  · trivial

/-- One symbol of the decoder whose parts are both at least 2^8 wide (R216, R217, R222, R225). -/
theorem decodeSymbol_leaves {s : State} {f0 t : Nat} (h : s.Inv) (hs : s.decoding = true)
    (h1 : 2 ^ 8 ≤ split s.ac.range f0 t) (h2 : split s.ac.range f0 t + 2 ^ 8 ≤ s.ac.range) :
    (decodeSymbol f0 t s.engine).Leaves s State.Inv := by
  obtain ⟨hst, hrole⟩ := (decoding_iff s).mp hs
  obtain ⟨hc, hm, -, hr2⟩ := Inv.canDecode h hst hrole
  obtain ⟨hw1, hw2⟩ := symbolWidth_bounds h1 h2 (s.ac.decision (split s.ac.range f0 t))
  obtain ⟨hsteps, hk⟩ := renormCount_steps hw1
  have hf := decodeSymbol_frame f0 t s.engine
  rcases decodeSymbol_ends (e := s.engine) hc (Nat.le_trans (by decide) h1) (by simp only [State.engine_ac]; omega)
    (Nat.le_succ_of_le hk) hsteps with ⟨e, eq, g⟩ | ⟨x, e, eq, g, -⟩ <;> rw [eq] at hf ⊢
  · have hb : 2 ^ 24 ≤ e.ac.range ∧ e.ac.range ≤ 2 ^ 32 := by
      rw [g.range]; exact hsteps.width_bounds (by omega)
    exact Inv.setDecoder h hst hrole hm hf.1 (g.received.wf (Inv.stream h) hm) g.can hb.1 hb.2
  · exact Inv.failed (Inv.ctx (s := s) h) (g.wf (Inv.stream h) hm)

theorem openDecoder_range (s : State) : s.openDecoder.ac.range = 2 ^ 32 := by simp [Coder.range]

/-- A decoder with the whole interval meets the invariant whatever its window holds (R215, R225). -/
theorem Inv.openDecoder {s : State} (h : s.Inv) (hm : s.bs.mode = .reader) (he : s.bs.err = none) : s.openDecoder.Inv := by
  have hr := openDecoder_range s
  have hi : s.openDecoder.ac.IntervalInv := ⟨by simp, by rw [hr]; decide, hr.le⟩
  have hrun : s.openDecoder.BlockInv := ⟨he, hi, .inr ⟨rfl, hm, by rw [hr]; exact offset_lt _⟩⟩
  exact Inv.withCoder h ⟨nofun, fun _ => hrun, nofun, nofun⟩

/-- Loading CODE does not move the interval, and any window is inside the whole one (R215, R225). -/
theorem loadCode_leaves {s : State} (n : Nat) (h : s.Inv) (hm : s.bs.mode = .reader) (he : s.bs.err = none) :
    (loadCode n s.openDecoder.engine).Leaves s.openDecoder State.Inv := by
  have hw : s.openDecoder.stream.Wf := Inv.stream (s := s) h
  have hcount := hw.count_le hm
  have hf := loadCode_frame n s.openDecoder.engine
  rcases loadCode_ends n (e := s.openDecoder.engine) hcount he with ⟨e, eq, g⟩ | ⟨x, e, eq, g, -⟩ <;> rw [eq] at hf ⊢
  · have hr : e.ac.range = 2 ^ 32 := by rw [g.ac]; exact openDecoder_range s
    have hc : CanDecode e := ⟨by rw [g.received.count]; exact hcount, g.received.err.trans he,
      by rw [g.ac]; simp, by rw [hr]; exact offset_lt _⟩
    exact Inv.setDecoder (Inv.openDecoder h hm he) rfl rfl hm hf.1 (g.received.wf hw hm) hc (by rw [hr]; decide) hr.le
  · exact Inv.failed (s := s.openDecoder.setEngine e) (Inv.ctx (s := s) h) (g.wf hw hm)

end Sys2Proof.Machine
end

section
/-! Every step keeps the invariant: the three groups of commands, then the host's actions. -/

namespace Sys2Proof.Machine

/-! ## Bit Stream commands -/

/-- A stream just bound: a writer at a byte boundary, or a reader with nothing unread (R130). -/
theorem wf_bound (dir : Direction) : BitStream.Wf ⟨modeOf dir, 0, boundCount dir, none, false, 0⟩ := by
  cases dir <;> decide

theorem keeps_execBsBind {s : State} (h : s.Inv) (dir : Direction) : KeepsInv (execBsBind dir s) := by
  refine keeps_require h fun hb => keeps_ended (Inv.setStream (t := ⟨_, _⟩) h ((mayBind_iff s).mp hb).2 ⟨wf_bound dir, ?_⟩) _ _
  cases dir with
  | reader => exact Nat.zero_le _
  | writer => exact (Inv.stream h).2

theorem keeps_execBsGetbits {s : State} (h : s.Inv) (n : Nat) : KeepsInv (execBsGetbits n s) := by
  refine keeps_require h fun hb => keeps_require h fun _ => ?_
  obtain ⟨hm, hs⟩ := (mayGet_iff s).mp hb
  exact keeps_runStream h hs (getBits_wf n (Inv.stream h) hm) fun _ t ht => keeps_ended ht _ _

theorem keeps_execBsPutbits {s : State} (h : s.Inv) (n : Nat) (v : BitVec 32) : KeepsInv (execBsPutbits n v s) := by
  refine keeps_require h fun hb => keeps_require h fun _ => ?_
  obtain ⟨hm, hs⟩ := (mayPut_iff s).mp hb
  exact keeps_runStream h hs (putBits_wf _ n (Inv.stream h) hm) fun _ t ht => keeps_ended ht _ _

/-- A bound stream that is no reader is a writer. -/
theorem mode_eq_writer {s : State} (hn : s.bs.mode ≠ .none) (hr : s.bs.mode ≠ .reader) : s.bs.mode = .writer := by
  cases hm : s.bs.mode with
  | none => exact absurd hm hn
  | reader => exact absurd hm hr
  | writer => rfl

theorem keeps_flush {s : State} (h : s.Inv) (hm : s.bs.mode = .writer) (hs : s.ac.state ≠ .started) :
    KeepsInv (runStream flushPartial s fun _ s => ended .ok 0 s) :=
  keeps_runStream h hs (flushPartial_wf (Inv.stream h) hm) fun _ _ ht => keeps_ended ht _ _

theorem keeps_execBsAlign {s : State} (h : s.Inv) : KeepsInv (execBsAlign s) := by
  refine keeps_require h fun hb => keeps_unlessErr h fun _ => ?_
  obtain ⟨hm, hs⟩ := (mayMove_iff s).mp hb
  split
  · next hr =>
    have hw : s.dropBits.bs.Wf :=
      (BitStream.wf_reader (b := s.dropBits.bs) hr).mpr ⟨by simp, (Inv.stream h).1.limit_zero⟩
    exact keeps_ended (Inv.setStream (t := ⟨_, _⟩) h hs ⟨hw, (Inv.stream h).2⟩) _ _
  · next hr => exact keeps_flush h (mode_eq_writer hm hr) hs

theorem keeps_execBsFlush {s : State} (h : s.Inv) : KeepsInv (execBsFlush s) := by
  refine keeps_require h fun hb => keeps_unlessErr h fun _ => ?_
  obtain ⟨hm, hs⟩ := (mayPut_iff s).mp hb
  exact keeps_flush h hm hs

/-- BS_CLOSE leaves every Bit Stream register 0, whatever the flush did (R135). -/
theorem keeps_execBsClose {s : State} (h : s.Inv) : KeepsInv (execBsClose s) := by
  refine keeps_require h fun hb => ?_
  obtain ⟨hm, hs⟩ := (mayMove_iff s).mp hb
  have hu {t : State} (ht : t.Inv) (hst : t.ac.state ≠ .started) : t.unbind.Inv :=
    Inv.setStream (t := ⟨_, _⟩) ht hst ⟨BitStream.wf_reset, (Inv.stream ht).2⟩
  split
  · exact keeps_ended (hu h hs) _ _
  · split
    · next hw =>
      have hf := flushPartial_wf (Inv.stream h) hw
      split <;> next heq => rw [heq] at hf; exact keeps_ended (hu (Inv.setStream h hs hf.1) hs) _ _
    · exact keeps_ended (hu h hs) _ _

/-- A write to ERR or LIMIT of a bound stream, in a running block too (R136 to R138). -/
theorem keeps_bound {s : State} {b : BitStream} (h : s.Inv) (hb : s.bs.mode ≠ .none → b.Wf)
    (hm : b.mode = s.bs.mode) (he : s.bs.err = none → b.err = none) :
    KeepsInv (require s.bound .badState s (ended .ok 0 { s with bs := b })) :=
  keeps_require h fun hbound => keeps_ended (Inv.withBits h (hb ((bound_iff s).mp hbound)) hm he) _ _

/-! ## Context commands -/

theorem keeps_execCtxInit {s : State} (h : s.Inv) (c : Nat) (one total maxf : BitVec 16) (adaptive : Bool) :
    KeepsInv (execCtxInit c one total maxf adaptive s) := by
  unfold execCtxInit
  split
  · exact keeps_ended h _ _
  · exact keeps_require h fun hok => keeps_ended (Inv.putCtx h c ((countsOk_iff one total maxf).mp hok)) _ _

theorem keeps_execCtxRead {s : State} (h : s.Inv) (c : Nat) : KeepsInv (execCtxRead c s) := by
  unfold execCtxRead
  split <;> exact keeps_ended h _ _

theorem keeps_execCtxReadCfg {s : State} (h : s.Inv) (c : Nat) : KeepsInv (execCtxReadCfg c s) := by
  unfold execCtxReadCfg
  split <;> exact keeps_ended h _ _

/-! ## Coder commands -/

/-- ENC_START opens the whole interval with nothing held (R211, R222). -/
theorem keeps_execEncStart {s : State} (h : s.Inv) : KeepsInv (execEncStart s) := by
  refine keeps_require h fun hb => keeps_unlessFaulted h fun he => keeps_ended ?_ _ _
  have hm := ((mayStartEnc_iff s).mp hb).2
  refine Inv.withCoder h ⟨nofun, fun _ => ⟨he, ?_, .inl ⟨rfl, hm, ?_⟩⟩, nofun, nofun⟩
  · simp [Coder.IntervalInv, Coder.range, Config.top, Config.codeSpan]
  · simp [Coder.CarryInv, Config.codeSpan]

theorem keeps_execEncRegular {s : State} (h : s.Inv) (c : Nat) (bit : Bool) : KeepsInv (execEncRegular c bit s) := by
  refine keeps_require h fun hb => ?_
  split
  · exact keeps_ended h _ _
  · next x hx =>
    have hwf : x.Wf := CtxInv.wf (Inv.ctx h) hx
    obtain ⟨h1, h2⟩ := split_wf (Inv.wide h ((encoding_iff s).mp hb).1) hwf
    exact keeps_unlessFaulted h fun _ => keeps_runCoder (encodeSymbol_leaves bit h hb h1 h2) fun _ t ht =>
      keeps_ended (Inv.putCtx ht c (hwf.update bit)) _ _

theorem keeps_execEncBypass {s : State} (h : s.Inv) (bit : Bool) : KeepsInv (execEncBypass bit s) := by
  refine keeps_require h fun hb => ?_
  obtain ⟨h1, h2⟩ := split_half (Inv.wide h ((encoding_iff s).mp hb).1)
  exact keeps_unlessFaulted h fun _ => keeps_runCoder (encodeSymbol_leaves bit h hb h1 h2) fun _ t ht =>
    keeps_ended ht _ _

theorem keeps_execEncTerminate {s : State} (h : s.Inv) : KeepsInv (execEncTerminate s) :=
  keeps_require h fun hb => keeps_unlessFaulted h fun _ => keeps_runCoder (encFlush_leaves h hb) fun _ _ ht =>
    keeps_ended ht _ _

theorem keeps_execDecStart {s : State} (h : s.Inv) : KeepsInv (execDecStart s) :=
  keeps_require h fun hb => keeps_unlessFaulted h fun he =>
    keeps_runCoder (loadCode_leaves _ h ((mayStartDec_iff s).mp hb).2 he) fun _ _ ht => keeps_ended ht _ _

theorem keeps_execDecRegular {s : State} (h : s.Inv) (c : Nat) : KeepsInv (execDecRegular c s) := by
  refine keeps_require h fun hb => ?_
  split
  · exact keeps_ended h _ _
  · next x hx =>
    have hwf : x.Wf := CtxInv.wf (Inv.ctx h) hx
    obtain ⟨h1, h2⟩ := split_wf (Inv.wide h ((decoding_iff s).mp hb).1) hwf
    exact keeps_unlessFaulted h fun _ => keeps_runCoder (decodeSymbol_leaves h hb h1 h2) fun bit t ht =>
      keeps_ended (Inv.putCtx ht c (hwf.update bit)) _ _

theorem keeps_execDecBypass {s : State} (h : s.Inv) : KeepsInv (execDecBypass s) := by
  refine keeps_require h fun hb => ?_
  obtain ⟨h1, h2⟩ := split_half (Inv.wide h ((decoding_iff s).mp hb).1)
  exact keeps_unlessFaulted h fun _ => keeps_runCoder (decodeSymbol_leaves h hb h1 h2) fun _ t ht => keeps_ended ht _ _

/-- A decoder's block ends TERMINATED with its role kept, or FAILED where the check does not hold (R218). -/
theorem keeps_execDecTerminate {s : State} (h : s.Inv) : KeepsInv (execDecTerminate s) := by
  refine keeps_require h fun hb => keeps_unlessFaulted h fun _ => ?_
  have hrole := ((decoding_iff s).mp hb).2
  split
  · exact keeps_ended (Inv.withCoder (a := s.terminate.ac) h ⟨nofun, nofun, by simp [hrole], by simp [hrole]⟩) _ _
  · exact keeps_ended (Inv.failed (Inv.ctx (s := s) h) (Inv.stream h)) _ _

/-- AC_INIT's coder is the one after reset (R219). -/
theorem keeps_execAcInit {s : State} (h : s.Inv) : KeepsInv (execAcInit s) :=
  keeps_ended (Inv.withCoder h ⟨fun _ => rfl, nofun, nofun, nofun⟩) _ _

/-! ## The step -/

/-- Every command keeps the invariant. -/
theorem exec_keeps {s : State} (h : s.Inv) (i : Instr) : KeepsInv (exec i s) := by
  have hw := (Inv.stream h).1
  cases i with
  | bsBind dir => exact keeps_execBsBind h dir
  | bsGetbits n => exact keeps_execBsGetbits h n
  | bsPutbits n v => exact keeps_execBsPutbits h n v
  | bsAlign => exact keeps_execBsAlign h
  | bsFlush => exact keeps_execBsFlush h
  | bsClose => exact keeps_execBsClose h
  | bsSetLimit n => exact keeps_bound h (fun hm => hw.withLimit hm nofun) rfl id
  | bsClearLimit => exact keeps_bound h (fun hm => hw.withLimit hm fun _ => rfl) rfl id
  | bsClearError => exact keeps_bound h (fun hm => hw.withErr hm none) rfl fun _ => rfl
  | bsStatus => exact keeps_ended h _ _
  | bsGetLimit => exact keeps_ended h _ _
  | ctxInit c one total maxf adaptive => exact keeps_execCtxInit h c one total maxf adaptive
  | ctxRead c => exact keeps_execCtxRead h c
  | ctxReadCfg c => exact keeps_execCtxReadCfg h c
  | acInit => exact keeps_execAcInit h
  | encStart => exact keeps_execEncStart h
  | encRegular c bit => exact keeps_execEncRegular h c bit
  | encBypass bit => exact keeps_execEncBypass h bit
  | encTerminate => exact keeps_execEncTerminate h
  | decStart => exact keeps_execDecStart h
  | decRegular c => exact keeps_execDecRegular h c
  | decBypass => exact keeps_execDecBypass h
  | decTerminate => exact keeps_execDecTerminate h
  | acStatus => exact keeps_ended h _ _

theorem Context.wf_reset : Context.reset.Wf := by decide

/-- The external reset leaves the number of contexts and every one of them as after reset (R270). -/
theorem Inv.externalReset {s : State} (h : s.Inv) : s.externalReset.Inv := by
  obtain ⟨⟨h1, h2, -⟩, -, hw, -⟩ := h
  refine Inv.of_reset ⟨by simpa using h1, by simpa using h2, fun x hx => ?_⟩ hw rfl rfl
  obtain ⟨y, -, rfl⟩ := List.mem_map.mp hx
  exact Context.wf_reset

/-- The position of a channel just supplied is its start (R62); no running block is tied to its contents. -/
theorem Inv.supplyChannel {s : State} (h : s.Inv) (input : List Byte) (draws : List Bool) :
    (s.supplyChannel input draws).Inv := by
  obtain ⟨hc, hb, -, ha⟩ := h
  exact ⟨hc, hb, Nat.zero_le _, ha⟩

/-- Every action of the host keeps the invariant. -/
theorem runEvent_keeps {s : State} (h : s.Inv) (ev : HostEvent) : KeepsInv (runEvent ev s) := by
  cases ev with
  | request cmd data =>
    show KeepsInv (runRequest cmd data s)
    unfold runRequest
    split
    · exact exec_keeps h _
    · exact keeps_ended h _ _
  | supply input draws => exact keeps_next (Inv.supplyChannel h input draws)
  | reset => exact keeps_next (Inv.externalReset h)

/-- Settles O54: every action of the host, taken from its queue, keeps the invariant. -/
theorem everyStepKeepsTheInvariant : Obligations.EveryStepKeepsTheInvariant := by
  intro s t h ht
  unfold step at ht
  split at ht
  · exact keeps_next h t ht
  · next ev rest _ => exact runEvent_keeps (s := { s with host := rest }) h ev t ht

end Sys2Proof.Machine
end

section
/-! Reset (10_state.md R30; 70_reset_and_hazards.md R270, R271): the tabled values, and the invariant. -/

namespace Sys2Proof.Machine

/-- NUM_CTX is 1 to 256, whatever the OPEN parameter is (R7). -/
theorem numCtx_bounds : 1 ≤ Config.numCtx ∧ Config.numCtx ≤ 256 := by
  unfold Config.numCtx; omega

/-- Settles O9: the registers by computation, the contexts because all of them are one repeated entry. -/
theorem resetLeavesTheTabledValues : Obligations.ResetLeavesTheTabledValues :=
  ⟨rfl, rfl, fun _ hc => List.getElem?_replicate_of_lt hc, List.length_replicate⟩

/-- Settles O10: every register is as after reset, and there are 1 to 256 reset contexts. -/
theorem resetMeetsTheInvariant : Obligations.ResetMeetsTheInvariant := by
  have hlen : State.reset.ctx.length = Config.numCtx := List.length_replicate
  obtain ⟨h1, h2⟩ := numCtx_bounds
  refine Inv.of_reset ⟨by rw [hlen]; exact h1, by rw [hlen]; exact h2, fun x hx => ?_⟩ (Nat.zero_le _) rfl rfl
  rw [List.eq_of_mem_replicate hx]
  exact Context.wf_reset

end Sys2Proof.Machine
end

section
/-! What each command leaves unchanged (R21, R23, R27, R28, R135, R165, R219), from all the ends a command has. -/

namespace Sys2Proof.Machine

/-! ## The context file -/

/-- All a command can do to the context file (R23): nothing, or one write to the context it names, which is Update's for the
two coder commands that write one. -/
theorem exec_ctx {i : Instr} {s t : State} (ht : exec i s = .next t) :
    t.ctx = s.ctx ∨
      (∃ c one total maxf adaptive, i = .ctxInit c one total maxf adaptive ∧
        t.ctx = s.ctx.set c ⟨one, total, maxf, adaptive⟩) ∨
      (∃ c x bit, s.ctx[c]? = some x ∧ t.ctx = s.ctx.set c (x.update bit) ∧
        ((∃ b, i = .encRegular c b) ∨ i = .decRegular c)) := by
  cases exec_ends ht with
  | bs hi ctx ac host input output inpos => exact .inl ctx
  | ctxWritten hi => exact .inr (.inl ⟨_, _, _, _, _, hi, rfl⟩)
  | encSymbol hi hs he hc h hx => exact .inr (.inr ⟨_, _, _, hc, rfl, .inl ⟨_, hi⟩⟩)
  | decSymbol hi hs he hc h hx => exact .inr (.inr ⟨_, _, _, hc, rfl, .inr hi⟩)
  | rejected | sticky | faulted | ctxRead | coderRead | init | encStarted | encBypassed | encTerminated | encFailed
  | decStarted | decStartFailed | decBypassed | decFailed | decTerminated | decMismatched => exact .inl rfl

/-- After a write to entry `c`, an entry that differs is entry `c`, with the value written. -/
theorem getElem?_set_changed {α : Type} {l : List α} {c d : Nat} {x y z : α} (hx : l[d]? = some x)
    (hy : (l.set c z)[d]? = some y) (hne : x ≠ y) : c = d ∧ y = z := by
  by_cases hcd : c = d
  · subst hcd
    have hlt : c < l.length := (List.getElem?_eq_some_iff.mp hx).1
    rw [List.getElem?_set_self hlt] at hy
    exact ⟨rfl, (Option.some.inj hy).symm⟩
  · rw [List.getElem?_set_ne hcd, hx] at hy
    exact absurd (Option.some.inj hy) hne

/-- Settles O34: an entry that changed is the one written, and Update writes neither MAXF nor ADAPT. -/
theorem contextsChangeOnlyThroughTheirWriters : Obligations.ContextsChangeOnlyThroughTheirWriters := by
  intro i s t ht
  rcases exec_ctx ht with he | ⟨c, one, total, maxf, adaptive, rfl, he⟩ | ⟨c, w, bit, hw, he, hi⟩ <;> rw [he]
  · refine ⟨rfl, fun d x y hx hy => ?_⟩
    obtain rfl : x = y := Option.some.inj (hx.symm.trans hy)
    exact ⟨by simp, fun hne => absurd rfl hne⟩
  · refine ⟨List.length_set, fun d x y hx hy => ?_⟩
    have hinit (hne : x ≠ y) : ∃ o tt m a, Instr.ctxInit c one total maxf adaptive = .ctxInit d o tt m a := by
      obtain ⟨rfl, -⟩ := getElem?_set_changed hx hy hne
      exact ⟨_, _, _, _, rfl⟩
    refine ⟨fun hcfg => hinit ?_, fun hne => .inl (hinit hne)⟩
    rintro rfl
    simp at hcfg
  · refine ⟨List.length_set, fun d x y hx hy => ⟨fun hcfg => ?_, fun hne => ?_⟩⟩
    · have hne : x ≠ y := by rintro rfl; simp at hcfg
      obtain ⟨rfl, rfl⟩ := getElem?_set_changed hx hy hne
      obtain rfl : x = w := Option.some.inj (hx.symm.trans hw)
      simp at hcfg
    · obtain ⟨rfl, -⟩ := getElem?_set_changed hx hy hne
      exact .inr hi

/-! ## The groups -/

/-- What each group of commands leaves unchanged. -/
structure GroupsKept (i : Instr) (s t : State) : Prop where
  host : t.host = s.host
  input : t.chan.input = s.chan.input
  stream : ofStream i = true → t.ctx = s.ctx ∧ t.ac = s.ac
  contexts : ofContexts i = true → t.bs = s.bs ∧ t.chan = s.chan ∧ t.ac = s.ac
  coder : ofCoder i = true → t.bs.mode = s.bs.mode ∧ t.bs.limitEn = s.bs.limitEn
  encoder : ofEncoder i = true → t.chan.inpos = s.chan.inpos ∧ t.ac.code = s.ac.code
  decoder : ofDecoder i = true → t.chan.output = s.chan.output ∧ t.ac.cache = s.ac.cache ∧
    t.ac.cacheValid = s.ac.cacheValid ∧ t.ac.pending = s.ac.pending

/-- No command is of two groups (R84). -/
theorem not_ofContexts_of_ofCoder {i : Instr} (h : ofCoder i = true) : ofContexts i = false := by
  revert h
  cases i <;> simp [ofContexts, ofCoder, failsBlock, ofEncoder, ofDecoder, Instr.op]

theorem not_ofStream_of_ofCoder {i : Instr} (h : ofCoder i = true) : ofStream i = false := by simp [ofStream, h]

/-- No command is the encoder's and the decoder's. -/
theorem not_ofDecoder_of_ofEncoder {i : Instr} (h : ofEncoder i = true) : ofDecoder i = false := by
  revert h
  cases i <;> simp [ofEncoder, ofDecoder, Instr.op]

theorem ofCoder_of_failsBlock {i : Instr} (h : failsBlock i = true) : ofCoder i = true := by simp [ofCoder, h]

theorem ofCoder_of_ofEncoder {i : Instr} (h : ofEncoder i = true) : ofCoder i = true :=
  ofCoder_of_failsBlock (by simp [failsBlock, h])

theorem ofCoder_of_ofDecoder {i : Instr} (h : ofDecoder i = true) : ofCoder i = true :=
  ofCoder_of_failsBlock (by simp [failsBlock, h])

/-- Where only the response is new, every group keeps to its state. -/
theorem GroupsKept.answer (i : Instr) (s : State) (st : Status) (v : BitVec 32) : GroupsKept i s (s.answer st v) :=
  ⟨rfl, rfl, fun _ => ⟨rfl, rfl⟩, fun _ => ⟨rfl, rfl, rfl⟩, fun _ => ⟨rfl, rfl⟩, fun _ => ⟨rfl, rfl⟩,
    fun _ => ⟨rfl, rfl, rfl, rfl⟩⟩

/-- A Bit Stream command moves the stream and the channel only. -/
theorem GroupsKept.of_stream {i : Instr} {s t : State} (hi : ofStream i = true) (host : t.host = s.host)
    (input : t.chan.input = s.chan.input) (ctx : t.ctx = s.ctx) (ac : t.ac = s.ac) : GroupsKept i s t := by
  obtain ⟨hc, ha⟩ : ofContexts i = false ∧ ofCoder i = false := by simpa [ofStream] using hi
  refine ⟨host, input, fun _ => ⟨ctx, ac⟩, fun h => ?_, fun h => ?_, fun h => ?_, fun h => ?_⟩
  · rw [hc] at h; cases h
  · rw [ha] at h; cases h
  · rw [ofCoder_of_ofEncoder h] at ha; cases ha
  · rw [ofCoder_of_ofDecoder h] at ha; cases ha

/-- A coder command that changes no register but STATE (R202, R218). -/
theorem GroupsKept.of_state {i : Instr} (hi : failsBlock i = true) (s : State) (st : BlockState) (r : Option Response) :
    GroupsKept i s { s with ac := { s.ac with state := st }, resp := r } := by
  have hc := ofCoder_of_failsBlock hi
  refine ⟨rfl, rfl, fun h => ?_, fun h => ?_, fun _ => ⟨rfl, rfl⟩, fun _ => ⟨rfl, rfl⟩, fun _ => ⟨rfl, rfl, rfl, rfl⟩⟩
  · rw [not_ofStream_of_ofCoder hc] at h; cases h
  · rw [not_ofContexts_of_ofCoder hc] at h; cases h

/-- An encoder's command writes to its stream and leaves CODE (R27). -/
theorem GroupsKept.of_encoder {i : Instr} {s t : State} (hi : ofEncoder i = true) (host : t.host = s.host)
    (hw : WriteFrame s.stream t.stream) (code : t.ac.code = s.ac.code) : GroupsKept i s t := by
  have hc := ofCoder_of_ofEncoder hi
  refine ⟨host, hw.input, fun h => ?_, fun h => ?_, fun _ => ⟨hw.mode, hw.limitEn⟩, fun _ => ⟨hw.inpos, code⟩, fun h => ?_⟩
  · rw [not_ofStream_of_ofCoder hc] at h; cases h
  · rw [not_ofContexts_of_ofCoder hc] at h; cases h
  · rw [not_ofDecoder_of_ofEncoder hi] at h; cases h

/-- A decoder's command reads from its stream and leaves the carry state (R28). -/
theorem GroupsKept.of_decoder {i : Instr} {s t : State} (hi : ofDecoder i = true) (host : t.host = s.host)
    (hr : ReadFrame s.stream t.stream) (cache : t.ac.cache = s.ac.cache) (valid : t.ac.cacheValid = s.ac.cacheValid)
    (pending : t.ac.pending = s.ac.pending) : GroupsKept i s t := by
  have hc := ofCoder_of_ofDecoder hi
  refine ⟨host, hr.input, fun h => ?_, fun h => ?_, fun _ => ⟨hr.mode, hr.limitEn⟩, fun h => ?_,
    fun _ => ⟨hr.output, cache, valid, pending⟩⟩
  · rw [not_ofStream_of_ofCoder hc] at h; cases h
  · rw [not_ofContexts_of_ofCoder hc] at h; cases h
  · rw [not_ofDecoder_of_ofEncoder h] at hi; cases hi

/-- Every command keeps to the state of its group, in every state and however it ends. -/
theorem exec_groups {i : Instr} {s t : State} (ht : exec i s = .next t) : GroupsKept i s t := by
  cases exec_ends ht with
  | rejected | sticky | ctxRead | coderRead => exact .answer _ _ _ _
  | faulted h hi => exact .of_state hi s .failed _
  | bs hi ctx ac host input => exact .of_stream hi host input ctx ac
  | ctxWritten hi =>
    subst hi
    exact ⟨rfl, rfl, nofun, fun _ => ⟨rfl, rfl, rfl⟩, nofun, nofun, nofun⟩
  | init hi =>
    subst hi
    exact ⟨rfl, rfl, nofun, nofun, fun _ => ⟨rfl, rfl⟩, nofun, nofun⟩
  | encStarted hi => exact .of_encoder (by rw [hi]; rfl) rfl (.refl _) rfl
  | encSymbol hi hs he hc h | encBypassed hi hs he h | encTerminated hi hs he h =>
    exact .of_encoder (by rw [hi]; rfl) rfl h.stream h.code
  | encFailed hi hs he h => exact .of_encoder (by simp [ofEncoder] at hi ⊢; tauto) rfl h.stream h.code
  | decStarted hi hs he h | decStartFailed hi hs he h | decSymbol hi hs he hc h | decBypassed hi hs he h =>
    exact .of_decoder (by rw [hi]; rfl) rfl h.stream h.cache h.cacheValid h.pending
  | decFailed hi hs he h =>
    exact .of_decoder (by simp [ofDecoder] at hi ⊢; tauto) rfl h.stream h.cache h.cacheValid h.pending
  | decTerminated hi => exact .of_state (by rw [hi]; rfl) s .terminated _
  | decMismatched hi => exact .of_state (by rw [hi]; rfl) s .failed _

/-- Settles O50, by the frames of the ends a command has. -/
theorem groupsKeepToTheirState : Obligations.GroupsKeepToTheirState := by
  intro i s t ht
  obtain ⟨host, input, stream, contexts, coder, encoder, decoder⟩ := exec_groups ht
  exact ⟨host, input, stream, contexts, coder, encoder, decoder⟩

end Sys2Proof.Machine
end

section
/-! The host's actions that are no command (20_memory.md R62; 60_exceptions.md R262; 70_reset_and_hazards.md R270). -/

namespace Sys2Proof.Machine

/-- The external reset puts each register and each context at its reset value, and nothing else (R30, R270). -/
theorem State.externalReset_eq (s : State) :
    s.externalReset = { s with bs := .reset, ctx := List.replicate s.ctx.length .reset, ac := .reset } := by
  rw [State.externalReset, List.map_const']

/-- With the action `ev` at the head of the queue, a step takes it and does it. -/
theorem step_of_host {s : State} {ev : HostEvent} {rest : List HostEvent} (h : s.host = ev :: rest) :
    step s = runEvent ev { s with host := rest } := by
  rw [step, h]

/-- With nothing queued a step changes nothing (R262). -/
theorem step_of_no_host {s : State} (h : s.host = []) : step s = .next s := by
  rw [step, h]

/-- Settles O8: a step does the action at the head of the queue, and the reset's contexts are one repeated entry. -/
theorem stepOfTheHostsOtherActions : Obligations.StepOfTheHostsOtherActions := by
  intro s rest
  refine ⟨step_of_no_host, fun input draws h => step_of_host h, fun h => (step_of_host h).trans ?_⟩
  exact congrArg Host.Outcome.next (State.externalReset_eq { s with host := rest })

end Sys2Proof.Machine
end

section
/-! The one get or put whose transfer fails (20_memory.md R63, R64; 40_bitstream.md R121, R122), and the header that two puts
write (R66, R98). -/

namespace Sys2Proof.Machine

/-! ## A get or put that passes its checks -/

/-- BS_GETBITS past its two checks is GetBits (R131). -/
theorem exec_bsGetbits {n : Nat} {s : State} (h1 : 1 ≤ n) (h31 : n ≤ 31) (hm : s.bs.mode = .reader)
    (hs : s.ac.state ≠ .started) :
    exec (.bsGetbits n) s = runStream (getBits n) s fun v s => ended .ok (BitVec.ofNat 32 v) s := by
  show execBsGetbits n s = _
  rw [execBsGetbits, (mayGet_iff s).mpr ⟨hm, hs⟩, (countOk_iff n).mpr ⟨h1, h31⟩, require_true, require_true]

/-- BS_PUTBITS past its two checks is PutBits (R132). -/
theorem exec_bsPutbits {n : Nat} {value : Word} {s : State} (h1 : 1 ≤ n) (h31 : n ≤ 31) (hv : value.toNat < 2 ^ n)
    (hm : s.bs.mode = .writer) (hs : s.ac.state ≠ .started) :
    exec (.bsPutbits n value) s = runStream (putBits value.toNat n) s fun _ s => ended .ok 0 s := by
  show execBsPutbits n value s = _
  rw [execBsPutbits, (mayPut_iff s).mpr ⟨hm, hs⟩, (putArgsOk_iff n value).mpr ⟨⟨h1, h31⟩, hv⟩, require_true, require_true]

theorem runStream_done {α : Type} {p : Stream → Run Stream α} {s : State} {a : α} {u : Stream} (h : p s.stream = .done a u)
    (k : α → State → Result) : runStream p s k = k a (s.setStream u) := by
  rw [runStream, h]

theorem runStream_raised {α : Type} {p : Stream → Run Stream α} {s : State} {x : StreamErr} {u : Stream}
    (h : p s.stream = .raised x u) (k : α → State → Result) :
    runStream p s k = .next ((s.setStream u).answer x.status 0) := by
  rw [runStream, h]; rfl

/-! ## A transfer that fails -/

/-- Settles O20: the loop of GetBits stops at the first draw that fails, and LIMIT is charged only after the loop. -/
theorem failedReadConsumesNoByte : Obligations.FailedReadConsumesNoByte := by
  intro n j s h1 h31 hm hs hwf he hl hj hi hr hd
  have hc : s.stream.bs.count.toNat ≤ 7 := ((BitStream.wf_reader hm).mp hwf).1
  rw [exec_bsGetbits h1 h31 hm hs, runStream_raised (getBits_failed (t := s.stream) (by omega) he hl hj hi hr hd)]
  rfl

/-- Settles O22: the loop of PutBits stops at the first draw that fails, and LIMIT is charged only after the loop. -/
theorem failedWriteLosesTheByte : Obligations.FailedWriteLosesTheByte := by
  intro n j value s h1 h31 hv hm hs hwf he hl hj hr hd
  have hp : s.stream.CanPut := ((BitStream.wf_writer hm).mp hwf).1
  obtain ⟨u, hu, g⟩ := putBits_failed (v := value.toNat) hp he hl hj hr hd
  rw [exec_bsPutbits h1 h31 hv hm hs, runStream_raised hu]
  refine ⟨_, rfl, rfl, g.grown, g.length, g.written, ?_⟩
  rw [State.setStream, g.bs, g.chan]
  rfl

/-! ## Whole bytes -/

/-- The bytes of a bit sequence are determined by it (R65). -/
theorem flatMap_byteBits_injective : Function.Injective (List.flatMap byteBits) := by
  intro l m h
  induction l generalizing m with
  | nil =>
    cases m with
    | nil => rfl
    | cons b m => exact absurd (congrArg List.length h) (by simp; omega)
  | cons a l ih =>
    cases m with
    | nil => exact absurd (congrArg List.length h) (by simp)
    | cons b m =>
      rw [List.flatMap_cons, List.flatMap_cons] at h
      obtain ⟨hab, hlm⟩ := List.append_inj h (by simp)
      have hnat := congrArg bitsNat hab
      rw [bitsNat_byteBits, bitsNat_byteBits] at hnat
      rw [BitVec.eq_of_toNat_eq hnat, ih hlm]

/-- A 16-bit value in stream order is its high byte, then its low byte (R66). -/
theorem lowBits_sixteen (v : BitVec 16) :
    lowBits 16 v.toNat = [v.extractLsb' 8 8, v.extractLsb' 0 8].flatMap byteBits := by
  have hhi : lowBits 8 (v.toNat / 2 ^ 8) = byteBits (v.extractLsb' 8 8) := by
    rw [byteBits, BitVec.extractLsb'_toNat, lowBits_mod _ _ _ (Nat.le_refl _), Nat.shiftRight_eq_div_pow]
  have hlo : lowBits 8 v.toNat = byteBits (v.extractLsb' 0 8) := by
    rw [byteBits, BitVec.extractLsb'_toNat, lowBits_mod _ _ _ (Nat.le_refl _), Nat.shiftRight_zero]
  rw [lowBits_add 8 8, hhi, hlo]
  simp

/-- At a byte boundary only whole bytes are written (R17). -/
theorem written_boundary {t : Stream} (h : t.bs.count.toNat = 8) : t.written = t.chan.output.flatMap byteBits := by
  simp [Stream.written, h]

/-- Whole bytes put at a byte boundary are the bytes given to the channel, and leave an empty BUF (R122). -/
theorem Put.whole {l : List Byte} {t u : Stream} (g : Put (l.flatMap byteBits) t u) (h : t.bs.count.toNat = 8) :
    u.chan.output = t.chan.output ++ l ∧ u.bs.buf = 0 ∧ u.bs.count.toNat = 8 := by
  have hc : u.bs.count.toNat = 8 := by
    rw [g.count, putBytes, flatMap_byteBits_length, h]; omega
  obtain ⟨-, -, hz⟩ := g.canPut
  refine ⟨flatMap_byteBits_injective ?_, BitVec.eq_of_toNat_eq ?_, hc⟩
  · rw [← written_boundary hc, g.written, written_boundary h, List.flatMap_append]
  · rw [hc, Nat.mod_eq_of_lt u.bs.buf.isLt] at hz; exact hz

/-- One field of the header: a 16-bit put at a byte boundary, on an unlimited writer. -/
theorem exec_put_sixteen (v : BitVec 16) {k : Nat} {s : State} (hs : s.ac.state ≠ .started)
    (hb : s.bs = ⟨.writer, 0, 8, none, false, 0⟩) (hr : s.chan.Reliable (2 + k)) :
    ∃ t, exec (.bsPutbits 16 (v.setWidth 32)) s = .next t ∧ t.resp = some ⟨.ok, 0⟩ ∧ t.ac = s.ac ∧ t.bs = s.bs ∧
      t.chan.output = s.chan.output ++ [v.extractLsb' 8 8, v.extractLsb' 0 8] ∧ t.chan.Reliable k := by
  have hv : (v.setWidth 32).toNat = v.toNat := BitVec.toNat_setWidth_of_le (by decide)
  have hcount : s.stream.bs.count.toNat = 8 := by rw [State.stream_bs, hb]; rfl
  have hbytes : putBytes 16 s.stream = 2 := by rw [putBytes, hcount]
  have hp : s.stream.CanPut := by rw [Stream.CanPut, State.stream_bs, hb]; decide
  obtain ⟨u, hu, g⟩ := putBits_done (v := (v.setWidth 32).toNat) (n := 16) hp (by rw [State.stream_bs, hb])
    (by rw [State.stream_bs, hb]; nofun) (by rw [hbytes]; exact s.chan.Reliable_mono (by omega) hr)
  rw [hv, lowBits_sixteen] at g
  obtain ⟨ho, hbuf, hc⟩ := g.whole hcount
  have hbs : u.bs = s.bs := by
    rw [g.bs, hbuf, BitVec.eq_of_toNat_eq (x := u.bs.count) (y := 8) hc, State.stream_bs, hb]
  rw [exec_bsPutbits (by decide) (by decide) (by rw [hv]; exact v.isLt) (by rw [hb]) hs, runStream_done hu]
  have hcharge : chargeLimit 16 u = u := by rw [chargeLimit, hbs, hb]; rfl
  refine ⟨_, rfl, rfl, rfl, ?_, ?_, ?_⟩
  · exact (congrArg Stream.bs hcharge).trans hbs
  · exact (congrArg (fun t => t.chan.output) hcharge).trans ho
  · intro j hj
    have hd := g.draws j
    rw [← lowBits_sixteen, lowBits_length, hbytes] at hd
    exact (congrArg (fun t => t.chan.drawAt j) hcharge).trans (hd.trans (hr (2 + j) (by omega)))

/-- Settles O29: PUT_HEADER is two puts of 16 bits, each at a byte boundary. -/
theorem headerFieldsAreBigEndian : Obligations.HeaderFieldsAreBigEndian := by
  intro nb bs s hs hb hr
  obtain ⟨t, ht, htr, hta, htb, hto, hrt⟩ := exec_put_sixteen nb (k := 2) hs hb hr
  obtain ⟨w, hw, hwr, -, hwb, hwo, -⟩ := exec_put_sixteen bs (k := 0) (s := t) (by rw [hta]; exact hs) (htb.trans hb) hrt
  refine ⟨w, ?_, hwb.trans htb, by rw [hwo, hto, List.append_assoc]; rfl⟩
  simp [Pseudo.expand, issue, ht, hw, htr, hwr]

end Sys2Proof.Machine
end

section
/-! The channel only moves forward (20_memory.md R63, R64, R70, R71): from the frames of the ends a command has. -/

namespace Sys2Proof.Machine

/-- From `a` to `b` the bytes given stay given and the read position does not move back (R71). -/
abbrev Channel.Forward (a b : Channel) : Prop := a.output <+: b.output ∧ a.inpos ≤ b.inpos

theorem Channel.Forward.refl (ch : Channel) : ch.Forward ch := ⟨List.prefix_refl _, Nat.le_refl _⟩

/-- A read gives no byte and moves the position forward (R63). -/
theorem ReadFrame.forward {t u : Stream} (h : ReadFrame t u) : t.chan.Forward u.chan :=
  ⟨by rw [h.output], h.inpos⟩

/-- A write gives bytes and leaves the position (R64). -/
theorem WriteFrame.forward {t u : Stream} (h : WriteFrame t u) : t.chan.Forward u.chan := ⟨h.output, h.inpos.ge⟩

/-- Settles O51: only a Bit Stream command can be BS_BIND; every other end of a command is framed or leaves the channel. -/
theorem channelOnlyMovesForward : Obligations.ChannelOnlyMovesForward := by
  intro i s t ht
  have of_forward {b : Channel} (h : s.chan.Forward b) :
      s.chan.output <+: b.output ∧ ((∀ dir, i ≠ .bsBind dir) → s.chan.inpos ≤ b.inpos) := ⟨h.1, fun _ => h.2⟩
  cases exec_ends ht with
  | bs hi ctx ac host input output inpos => exact ⟨output, inpos⟩
  | encSymbol hi hs he hc h | encBypassed hi hs he h | encTerminated hi hs he h | encFailed hi hs he h =>
    exact of_forward h.stream.forward
  | decStarted hi hs he h | decStartFailed hi hs he h | decSymbol hi hs he hc h | decBypassed hi hs he h
  | decFailed hi hs he h => exact of_forward h.stream.forward
  | rejected | sticky | faulted | ctxWritten | ctxRead | coderRead | init | encStarted | decTerminated | decMismatched =>
    exact of_forward (.refl s.chan)

end Sys2Proof.Machine
end

section
/-! The channel transfers of a command (20_memory.md R69; 70_reset_and_hazards.md R283): a bound for each procedure, however
it ends, then for each command. -/

namespace Sys2Proof.Machine

/-- From `a` to `b` at most `k` transfers were made: each makes one draw (R63, R64; log entry 2). -/
abbrev Channel.Within (k : Nat) (a b : Channel) : Prop := a.drawn ≤ b.drawn ∧ b.drawn ≤ a.drawn + k

theorem Channel.Within.refl (k : Nat) (ch : Channel) : ch.Within k ch := ⟨Nat.le_refl _, Nat.le_add_right _ _⟩

theorem Channel.Within.mono {k m : Nat} {a b : Channel} (h : a.Within k b) (hk : k ≤ m) : a.Within m b :=
  ⟨h.1, Nat.le_trans h.2 (Nat.add_le_add_left hk _)⟩

/-- Exactly `k` transfers are at most `k`. -/
theorem Channel.Within.of_eq {k : Nat} {a b : Channel} (h : b.drawn = a.drawn + k) : a.Within k b :=
  ⟨by rw [h]; exact Nat.le_add_right _ _, h.le⟩

/-! ## Stream procedures -/

/-- However a stream procedure started in `t` ends, it made at most `k` transfers. -/
def Run.Within {α : Type} (k : Nat) (t : Stream) : Run Stream α → Prop
  | .done _ u => t.chan.Within k u.chan
  | .raised _ u => t.chan.Within k u.chan

theorem Run.Within.mono {α : Type} {k m : Nat} {t : Stream} {r : Run Stream α} (h : r.Within k t) (hk : k ≤ m) :
    r.Within m t := by
  cases r with
  | done a u => exact Channel.Within.mono h hk
  | raised x u => exact Channel.Within.mono h hk

/-- A get makes the transfers R147 says, or fewer where it fails. -/
theorem getBits_within (n : Nat) {t : Stream} (hc : t.bs.count.toNat ≤ 8) : (getBits n t).Within (getBytes n t) t := by
  rcases getBits_ends n t hc with ⟨x, -, e⟩ | ⟨-, -, -, e⟩ | ⟨-, -, ⟨u, e, g⟩ | ⟨x, u, e, g⟩⟩ <;> rw [e]
  · exact .refl _ _
  · exact .refl _ _
  · exact .of_eq (by rw [chargeLimit_chan]; exact g.drawn)
  · exact g.drawn

/-- A put makes the transfers R147 says, or fewer where it fails. -/
theorem putBits_within (v n : Nat) {t : Stream} (h : t.CanPut) : (putBits v n t).Within (putBytes n t) t := by
  rcases putBits_ends v n h with ⟨x, -, e⟩ | ⟨-, -, -, e⟩ | ⟨-, -, ⟨u, e, g⟩ | ⟨k, x, u, e, g⟩⟩ <;> rw [e]
  · exact .refl _ _
  · exact .refl _ _
  · exact .of_eq (by rw [chargeLimit_chan, g.drawn, lowBits_length])
  · have hk := g.inside
    rw [lowBits_length] at hk
    exact (Channel.Within.of_eq (by rw [g.chan])).mono (show k + 1 ≤ _ from hk)

/-- A flush makes one transfer, or none at a byte boundary (R123). -/
theorem flushPartial_within (t : Stream) : (flushPartial t).Within 1 t := by
  rcases flushPartial_cases t with ⟨-, e⟩ | ⟨-, -, e⟩ | ⟨-, -, e⟩ <;> rw [e]
  · exact .refl _ _
  · exact .of_eq rfl
  · exact .of_eq rfl

/-! ## Coder procedures -/

/-- However a coder procedure started in `e` ends, it made at most `k` transfers. -/
def Coded.Within {α : Type} (k : Nat) (e : Engine) : Coded α → Prop
  | .done _ u => e.stream.chan.Within k u.stream.chan
  | .raised _ u => e.stream.chan.Within k u.stream.chan
  | .overflow => True
  | .diverges => True

/-- A width of 2^16 or more takes at most one renormalization step (R223). -/
theorem renormCount_le_one {w : Nat} (h : 2 ^ 16 ≤ w) : renormCount w ≤ 1 := by
  rw [renormCount, if_pos h]
  split <;> decide

/-- A symbol of the encoder: what was held back, and one byte for each renormalization step but the last (R223, R228). -/
theorem encodeSymbol_within {s : State} {f0 t : Nat} (bit : Bool) (h : s.Inv) (hs : s.encoding = true)
    (h1 : 2 ^ 8 ≤ split s.ac.range f0 t) (h2 : split s.ac.range f0 t + 2 ^ 8 ≤ s.ac.range) :
    (encodeSymbol f0 t bit s.engine).Within (2 + s.ac.pending.toNat) s.engine := by
  obtain ⟨hst, hrole⟩ := (encoding_iff s).mp hs
  obtain ⟨hc, -, -, -⟩ := Inv.canEncode h hst hrole
  obtain ⟨hw, -⟩ := symbolWidth_bounds h1 h2 bit
  obtain ⟨hsteps, hk⟩ := renormCount_steps hw
  have hlen : ((s.ac.atSymbol (split s.ac.range f0 t) bit).roundBytes
      (renormCount (symbolWidth s.ac.range (split s.ac.range f0 t) bit))).length ≤ 2 + s.ac.pending.toNat := by
    refine Nat.le_trans (Coder.roundBytes_length _ _) ?_
    have hv := s.ac.cacheValid.toNat_le
    simp only
    omega
  rcases encodeSymbol_ends (e := s.engine) hc (Nat.le_trans (by decide) h1) (by simp only [State.engine_ac]; omega)
    (Nat.le_succ_of_le hk) hsteps with ⟨e, eq, g⟩ | ⟨x, e, eq, g, -⟩ | ⟨eq, -⟩ <;> rw [eq]
  · exact (Channel.Within.of_eq g.rounds.sent.drawn).mono hlen
  · exact Channel.Within.mono g.drawn hlen
  · trivial

/-- The flush: what was held back, and four bytes (R210). -/
theorem encFlush_within {s : State} (h : s.Inv) (hs : s.encoding = true) :
    (encFlush s.engine).Within (5 + s.ac.pending.toNat) s.engine := by
  obtain ⟨hst, hrole⟩ := (encoding_iff s).mp hs
  obtain ⟨hc, -, -, -⟩ := Inv.canEncode h hst hrole
  have hlen : s.engine.ac.cacheValid.toNat + s.engine.ac.pending.toNat + 4 ≤ 5 + s.ac.pending.toNat := by
    have hv := s.ac.cacheValid.toNat_le
    simp only [State.engine_ac]
    omega
  rcases encFlush_ends hc.canPut hc.err hc.resolvable with ⟨e, eq, g⟩ | ⟨x, e, eq, g, -⟩ | ⟨eq, -⟩ <;> rw [eq]
  · obtain ⟨l, hsent⟩ := g.sent
    exact (Channel.Within.of_eq hsent.drawn).mono hlen
  · exact Channel.Within.mono g.drawn hlen
  · trivial

/-- A symbol of the decoder: one byte for each renormalization step its part needs (R223, R228). -/
theorem decodeSymbol_within {s : State} {f0 t m : Nat} (h : s.Inv) (hs : s.decoding = true)
    (h1 : 2 ^ 8 ≤ split s.ac.range f0 t) (h2 : split s.ac.range f0 t + 2 ^ 8 ≤ s.ac.range)
    (hm : ∀ bit, renormCount (symbolWidth s.ac.range (split s.ac.range f0 t) bit) ≤ m) :
    (decodeSymbol f0 t s.engine).Within m s.engine := by
  obtain ⟨hst, hrole⟩ := (decoding_iff s).mp hs
  obtain ⟨hc, -, -, -⟩ := Inv.canDecode h hst hrole
  obtain ⟨hw, -⟩ := symbolWidth_bounds h1 h2 (s.ac.decision (split s.ac.range f0 t))
  obtain ⟨hsteps, hk⟩ := renormCount_steps hw
  rcases decodeSymbol_ends (e := s.engine) hc (Nat.le_trans (by decide) h1) (by simp only [State.engine_ac]; omega)
    (Nat.le_succ_of_le hk) hsteps with ⟨e, eq, g⟩ | ⟨x, e, eq, g, -⟩ <;> rw [eq]
  · exact (Channel.Within.of_eq g.received.drawn).mono (hm _)
  · exact Channel.Within.mono g.drawn (hm _)

/-- Loading CODE takes its bytes, or fewer where it fails (R215). -/
theorem loadCode_within (n : Nat) {e : Engine} (hc : e.stream.bs.count.toNat ≤ 7) (he : e.stream.bs.err = none) :
    (loadCode n e).Within n e := by
  rcases loadCode_ends n hc he with ⟨e', eq, g⟩ | ⟨x, e', eq, g, -⟩ <;> rw [eq]
  · exact .of_eq g.received.drawn
  · exact g.drawn

/-! ## The ends of a command -/

/-- Whatever next state a command gives, at most `k` transfers were made since the channel was `ch`. -/
def Transfers (k : Nat) (ch : Channel) (r : Result) : Prop := ∀ t, r = .next t → ch.Within k t.chan

theorem transfers_ended {k : Nat} {ch : Channel} {s : State} {st : Status} {v : BitVec 32} (h : ch.Within k s.chan) :
    Transfers k ch (ended st v s) := by rintro t ⟨⟩; exact h

theorem transfers_require {k : Nat} {b : Bool} {s : State} {st : Status} {r : Result}
    (hr : b = true → Transfers k s.chan r) : Transfers k s.chan (require b st s r) := by
  intro t ht
  rcases require_next.mp ht with ⟨-, rfl⟩ | ⟨hb, ht⟩
  · exact .refl _ _
  · exact hr hb t ht

theorem transfers_unlessErr {k : Nat} {s : State} {r : Result} (hr : Transfers k s.chan r) :
    Transfers k s.chan (unlessErr s r) := by
  intro t ht
  rcases unlessErr_next.mp ht with ⟨x, -, rfl⟩ | ⟨-, ht⟩
  · exact .refl _ _
  · exact hr t ht

theorem transfers_unlessFaulted {k : Nat} {s : State} {r : Result} (hr : s.bs.err = none → Transfers k s.chan r) :
    Transfers k s.chan (unlessFaulted s r) := by
  intro t ht
  rcases unlessFaulted_next.mp ht with ⟨x, -, rfl⟩ | ⟨he, ht⟩
  · exact .refl _ _
  · exact hr he t ht

/-- A Bit Stream command makes its procedure's transfers. -/
theorem transfers_runStream {α : Type} {m : Nat} {p : Stream → Run Stream α} {s : State} {k : α → State → Result}
    (hp : (p s.stream).Within m s.stream) (hk : ∀ a t, s.chan.Within m t.chan → Transfers m s.chan (k a t)) :
    Transfers m s.chan (runStream p s k) := by
  intro t ht
  rcases runStream_next.mp ht with ⟨a, u, e, ht⟩ | ⟨x, u, e, rfl⟩ <;> rw [e] at hp
  · exact hk a (s.setStream u) hp t ht
  · exact hp

/-- A coder command makes its procedure's transfers; one that fails the block makes no more. -/
theorem transfers_runCoder {α : Type} {m : Nat} {p : Engine → Coded α} {s : State} {k : α → State → Result}
    (hp : (p s.engine).Within m s.engine) (hk : ∀ a t, s.chan.Within m t.chan → Transfers m s.chan (k a t)) :
    Transfers m s.chan (runCoder p s k) := by
  intro t ht
  rcases runCoder_next.mp ht with ⟨a, e, he, ht⟩ | ⟨x, e, he, rfl⟩ <;> rw [he] at hp
  · exact hk a (s.setEngine e) hp t ht
  · exact hp

/-! ## Bit Stream commands -/

theorem transfers_execBsGetbits {s : State} (h : s.Inv) (n : Nat) : Transfers 4 s.chan (execBsGetbits n s) := by
  refine transfers_require fun hb => transfers_require fun hn => ?_
  have hc := (Inv.stream h).count_le ((mayGet_iff s).mp hb).1
  have hle : getBytes n s.stream ≤ 4 := by
    have := ((countOk_iff n).mp hn).2
    rw [getBytes]; omega
  exact transfers_runStream ((getBits_within n (by omega)).mono hle) fun _ _ ht => transfers_ended ht

theorem transfers_execBsPutbits {s : State} (h : s.Inv) (n : Nat) (v : BitVec 32) :
    Transfers 4 s.chan (execBsPutbits n v s) := by
  refine transfers_require fun hb => transfers_require fun hn => ?_
  have hp := (Inv.stream h).canPut ((mayPut_iff s).mp hb).1
  have hle : putBytes n s.stream ≤ 4 := by
    obtain ⟨⟨-, hn31⟩, -⟩ := (putArgsOk_iff n v).mp hn
    have := hp.1
    rw [putBytes]; omega
  exact transfers_runStream ((putBits_within _ n hp).mono hle) fun _ _ ht => transfers_ended ht

/-- The flush of ALIGN and FLUSH. -/
theorem transfers_flush (s : State) :
    Transfers 1 s.chan (runStream flushPartial s fun _ s => ended .ok 0 s) :=
  transfers_runStream (flushPartial_within _) fun _ _ ht => transfers_ended ht

theorem transfers_execBsAlign (s : State) : Transfers 1 s.chan (execBsAlign s) := by
  refine transfers_require fun _ => transfers_unlessErr ?_
  split
  · exact transfers_ended (.refl _ _)
  · exact transfers_flush s

theorem transfers_execBsClose (s : State) : Transfers 1 s.chan (execBsClose s) := by
  refine transfers_require fun _ => ?_
  split
  · exact transfers_ended (.refl _ _)
  · split
    · have hf := flushPartial_within s.stream
      split <;> next heq => rw [heq] at hf; exact transfers_ended hf
    · exact transfers_ended (.refl _ _)

/-! ## Coder commands -/

theorem transfers_execEncRegular {s : State} (h : s.Inv) (c : Nat) (bit : Bool) :
    Transfers (2 + s.ac.pending.toNat) s.chan (execEncRegular c bit s) := by
  refine transfers_require fun hb => ?_
  split
  · exact transfers_ended (.refl _ _)
  · next x hx =>
    obtain ⟨h1, h2⟩ := split_wf (Inv.wide h ((encoding_iff s).mp hb).1) (CtxInv.wf (Inv.ctx h) hx)
    exact transfers_unlessFaulted fun _ => transfers_runCoder (encodeSymbol_within bit h hb h1 h2) fun _ _ ht =>
      transfers_ended ht

theorem transfers_execEncBypass {s : State} (h : s.Inv) (bit : Bool) :
    Transfers (2 + s.ac.pending.toNat) s.chan (execEncBypass bit s) := by
  refine transfers_require fun hb => ?_
  obtain ⟨h1, h2⟩ := split_half (Inv.wide h ((encoding_iff s).mp hb).1)
  exact transfers_unlessFaulted fun _ => transfers_runCoder (encodeSymbol_within bit h hb h1 h2) fun _ _ ht =>
    transfers_ended ht

theorem transfers_execEncTerminate {s : State} (h : s.Inv) :
    Transfers (5 + s.ac.pending.toNat) s.chan (execEncTerminate s) :=
  transfers_require fun hb => transfers_unlessFaulted fun _ => transfers_runCoder (encFlush_within h hb) fun _ _ ht =>
    transfers_ended ht

theorem transfers_execDecStart {s : State} (h : s.Inv) : Transfers 4 s.chan (execDecStart s) := by
  refine transfers_require fun hb => transfers_unlessFaulted fun he => ?_
  have hc := (Inv.stream h).count_le ((mayStartDec_iff s).mp hb).2
  exact transfers_runCoder (s := s.openDecoder) (loadCode_within Config.termBytes hc he) fun _ _ ht =>
    transfers_ended ht

theorem transfers_execDecRegular {s : State} (h : s.Inv) (c : Nat) : Transfers 2 s.chan (execDecRegular c s) := by
  refine transfers_require fun hb => ?_
  split
  · exact transfers_ended (.refl _ _)
  · next x hx =>
    obtain ⟨h1, h2⟩ := split_wf (Inv.wide h ((decoding_iff s).mp hb).1) (CtxInv.wf (Inv.ctx h) hx)
    have hm (bit : Bool) := (renormCount_steps (symbolWidth_bounds h1 h2 bit).1).2
    exact transfers_unlessFaulted fun _ => transfers_runCoder (decodeSymbol_within h hb h1 h2 hm) fun _ _ ht =>
      transfers_ended ht

/-- A half of a wide interval is at least 2^23 wide, so one step is enough (R217, R223). -/
theorem transfers_execDecBypass {s : State} (h : s.Inv) : Transfers 1 s.chan (execDecBypass s) := by
  refine transfers_require fun hb => ?_
  have hr := Inv.wide h ((decoding_iff s).mp hb).1
  obtain ⟨h1, h2⟩ := split_half hr
  have hm (bit : Bool) : renormCount (symbolWidth s.ac.range (split s.ac.range 1 2) bit) ≤ 1 :=
    renormCount_le_one (symbolWidth_bounds (w := 2 ^ 16) (by rw [split]; omega) (by rw [split]; omega) bit).1
  exact transfers_unlessFaulted fun _ => transfers_runCoder (decodeSymbol_within h hb h1 h2 hm) fun _ _ ht =>
    transfers_ended ht

theorem transfers_execDecTerminate {k : Nat} (s : State) : Transfers k s.chan (execDecTerminate s) := by
  refine transfers_require fun _ => transfers_unlessFaulted fun _ => ?_
  split <;> exact transfers_ended (.refl _ _)

/-! ## Every command -/

/-- A context command makes no transfer. -/
theorem transfers_contexts {k : Nat} {i : Instr} {s : State} (hi : ofContexts i = true) : Transfers k s.chan (exec i s) := by
  intro t ht
  obtain ⟨-, hchan, -⟩ := (exec_groups ht).contexts hi
  rw [hchan]
  exact .refl _ _

/-- A command that only writes registers once its check holds makes no transfer. -/
theorem transfers_registers {k : Nat} {b : Bool} {s t : State} {st : Status} {v : BitVec 32} (h : t.chan = s.chan) :
    Transfers k s.chan (require b .badState s (ended st v t)) :=
  transfers_require fun _ => transfers_ended (by rw [h]; exact .refl _ _)

/-- Every command makes at most the transfers tabled for it (R283). -/
theorem exec_transfers {s : State} (h : s.Inv) (i : Instr) : Transfers (maxTransfers i s) s.chan (exec i s) := by
  cases i with
  | bsBind dir => exact transfers_require fun _ => transfers_ended (.refl _ s.chan)
  | bsGetbits n => exact transfers_execBsGetbits h n
  | bsPutbits n v => exact transfers_execBsPutbits h n v
  | bsAlign => exact transfers_execBsAlign s
  | bsFlush => exact transfers_require fun _ => transfers_unlessErr (transfers_flush s)
  | bsClose => exact transfers_execBsClose s
  | bsSetLimit | bsClearLimit | bsClearError => exact transfers_registers rfl
  | bsStatus | bsGetLimit | acInit | acStatus => exact transfers_ended (.refl _ _)
  | ctxInit | ctxRead | ctxReadCfg => exact transfers_contexts rfl
  | encStart => exact transfers_require fun _ => transfers_unlessFaulted fun _ => transfers_ended (.refl _ _)
  | encRegular c bit => exact transfers_execEncRegular h c bit
  | encBypass bit => exact transfers_execEncBypass h bit
  | encTerminate => exact transfers_execEncTerminate h
  | decStart => exact transfers_execDecStart h
  | decRegular c => exact transfers_execDecRegular h c
  | decBypass => exact transfers_execDecBypass h
  | decTerminate => exact transfers_execDecTerminate s

/-- Settles O52: every command keeps to its row of the table. -/
theorem transfersPerCommandAreBounded : Obligations.TransfersPerCommandAreBounded :=
  fun i _ t h ht => exec_transfers h i t ht

end Sys2Proof.Machine
end

section
/-! The command encoding both ways (30_encoding.md R81 to R88, R97): a command against the word that is its encoding, a word
against the row that selects it, and what the decoder takes from DATA. -/

namespace Sys2Proof

/-! ## The decoder by its rows -/

/-- The OP column of R85 names each operation once. -/
theorem Op.code_inj {o p : Op} (h : o.code = p.code) : o = p := by
  have hop := opOf_code o
  rw [h, opOf_code] at hop
  exact (Option.some.inj hop).symm

/-- A word decodes to a command exactly when the command's row selects it and its fields carry the command's operands
(R87). -/
theorem decode_ok_iff_selects {cmd data : Word} {i : Instr} :
    decode cmd data = .ok i ↔ i.op.selects cmd = true ∧ operands i.op (fieldsOf cmd) data = i := by
  rw [decode_ok_iff, selects_iff]
  constructor
  · rintro ⟨o, hop, hz, rfl⟩
    rw [operands_op]
    exact ⟨⟨hop, hz⟩, rfl⟩
  · rintro ⟨⟨hop, hz⟩, hi⟩
    exact ⟨i.op, hop, hz, hi⟩

/-- A row selects a word exactly when the word decodes to a command of that row, whatever DATA is (R82, R87). -/
theorem selects_iff_decode {o : Op} {cmd : Word} (data : Word) :
    o.selects cmd = true ↔ ∃ i, decode cmd data = .ok i ∧ i.op = o := by
  constructor
  · intro hs
    have hop := operands_op o (fieldsOf cmd) data
    exact ⟨operands o (fieldsOf cmd) data, decode_ok_iff_selects.mpr ⟨by rw [hop]; exact hs, by rw [hop]⟩, hop⟩
  · rintro ⟨i, hi, rfl⟩
    exact (decode_ok_iff_selects.mp hi).1

/-- All the reasons a word is no command, none of which is in DATA (R82, R86). -/
theorem decode_error_iff {cmd data : Word} {e : BadCommand} :
    decode cmd data = .error e ↔
      (opOf (fieldsOf cmd).op = none ∧ e = .reservedOp (fieldsOf cmd).op) ∨
        ∃ o, opOf (fieldsOf cmd).op = some o ∧ unusedZero o (fieldsOf cmd) = false ∧ e = .nonzeroUnused o := by
  unfold decode
  cases opOf (fieldsOf cmd).op with
  | none => simpa using eq_comm
  | some o =>
    cases hz : unusedZero o (fieldsOf cmd)
    · simpa [hz] using eq_comm
    · simp [hz]

/-! ## From a command to its words and back -/

/-- Every command's CMD word is selected by its own row, and by no other (R83, R97). -/
theorem encode_row (i : Instr) : Laws.RowSelects.Statement i := by
  cases i with
  | bsBind dir => exact Laws.RowSelects.bsBind dir
  | _ => exact Laws.RowSelects.of_fields rfl rfl

theorem toNat_imm {n : Nat} (h : fitsImm n = true) : (BitVec.ofNat 16 n).toNat = n :=
  (BitVec.toNat_ofNat _ _).trans (Nat.mod_eq_of_lt (of_decide_eq_true h))

theorem toNat_ctx {c : Nat} (h : fitsCtx c = true) : (BitVec.ofNat 8 c).toNat = c :=
  (BitVec.toNat_ofNat _ _).trans (Nat.mod_eq_of_lt (of_decide_eq_true h))

theorem bit_bitField (b : Bool) : (bitField b == 1) = b := by cases b <;> rfl

/-- The fields and the DATA word of a command carry its operands (R82, R88, R97). -/
theorem operands_encode {i : Instr} (h : i.wf = true) : operands i.op (encodeFields i) (encodeData i) = i := by
  cases i with
  | bsBind dir => cases dir <;> rfl
  | bsGetbits n | bsPutbits n _ => simp only [Instr.op, operands, encodeFields, encodeData, toNat_imm h]
  | ctxInit c one total maxf adaptive =>
    obtain ⟨hone, htotal⟩ := data_halves one total
    simp only [Instr.op, operands, encodeFields, encodeData, Fields.bit, toNat_ctx h, bit_bitField, hone, htotal]
  | ctxRead c | ctxReadCfg c | decRegular c => simp only [Instr.op, operands, encodeFields, toNat_ctx h]
  | encRegular c bit => simp only [Instr.op, operands, encodeFields, Fields.bit, toNat_ctx h, bit_bitField]
  | encBypass bit => simp only [Instr.op, operands, encodeFields, Fields.bit, bit_bitField]
  | bsAlign | bsFlush | bsClose | bsSetLimit | bsClearLimit | bsClearError | bsStatus | bsGetLimit => rfl
  | acInit | encStart | encTerminate | decStart | decBypass | decTerminate | acStatus => rfl

/-- Settles O1: the command's own row selects its CMD word, and the words carry its operands. -/
theorem decodeOfEncodeIsTheCommand : Obligations.DecodeOfEncodeIsTheCommand := by
  intro i hwf
  have hfields : fieldsOf (encode i).1 = encodeFields i := fieldsOf_pack _
  exact decode_ok_iff_selects.mpr ⟨(encode_row i).1, by rw [hfields]; exact operands_encode hwf⟩

/-! ## From a word to its command and back -/

/-- `dir` = 1 is a writer, `dir` = 0 a reader (R88). -/
theorem encodeFields_bsBind (f : Fields) : encodeFields (.bsBind f.dir) = ⟨Op.bsBind.code, 0, f.b, 0, 0⟩ := by
  have key : ∀ b : BitVec 1,
      encodeFields (.bsBind (if b == 1 then .writer else .reader)) = ⟨Op.bsBind.code, 0, b, 0, 0⟩ := by decide
  exact key f.b

/-- OP of the operation, and of the fields `f` those it uses, the others zero (R83, R97). -/
def Op.usedFields (o : Op) (f : Fields) : Fields :=
  ⟨o.code, if o.uses.ctx then f.ctx else 0, if o.uses.b then f.b else 0, 0, if o.uses.imm then f.imm else 0⟩

/-- A command cut from a word is encoded in the fields its operation uses. -/
theorem encodeFields_operands (o : Op) (f : Fields) (data : Word) : encodeFields (operands o f data) = o.usedFields f := by
  cases o with
  | bsBind => exact encodeFields_bsBind f
  | bsGetbits | bsPutbits => simp only [operands, encodeFields, BitVec.ofNat_toNat, BitVec.setWidth_eq]; rfl
  | ctxInit | encRegular | encBypass =>
    simp only [operands, encodeFields, BitVec.ofNat_toNat, BitVec.setWidth_eq, bitField_bit]; rfl
  | ctxRead | ctxReadCfg | decRegular => simp only [operands, encodeFields, BitVec.ofNat_toNat, BitVec.setWidth_eq]; rfl
  | bsAlign | bsFlush | bsClose | bsSetLimit | bsClearLimit | bsClearError | bsStatus | bsGetLimit => rfl
  | acInit | encStart | encTerminate | decStart | decBypass | decTerminate | acStatus => rfl

theorem kept_of_unused {n : Nat} {used : Bool} {v : BitVec n} (h : used = true ∨ v = 0) :
    (if used = true then v else 0) = v := by
  rcases h with h | h <;> simp [h]

/-- Where the fields an operation does not use are zero, the used fields are all there is (R83). -/
theorem usedFields_eq {o : Op} {f : Fields} (hop : f.op = o.code) (hz : unusedZero o f = true) : o.usedFields f = f := by
  simp only [unusedZero, Bool.and_eq_true, Bool.or_eq_true, beq_iff_eq] at hz
  obtain ⟨⟨⟨hrsv, hctx⟩, hb⟩, himm⟩ := hz
  exact Fields.eq_of hop.symm (kept_of_unused hctx) (kept_of_unused hb) hrsv.symm (kept_of_unused himm)

/-- The three operations that use DATA carry all of it (R82). -/
theorem encodeData_operands {o : Op} (h : o ∈ [Op.bsPutbits, .bsSetLimit, .ctxInit]) (f : Fields) (data : Word) :
    encodeData (operands o f data) = data := by
  simp only [List.mem_cons, List.not_mem_nil, or_false] at h
  rcases h with rfl | rfl | rfl
  · rfl
  · rfl
  · exact data_of_halves data

/-- Settles O2: the row leaves no field of the word but those the command is encoded in. -/
theorem decodedWordsAreTheirEncoding : Obligations.DecodedWordsAreTheirEncoding := by
  intro cmd data i hi
  obtain ⟨o, hop, hz, rfl⟩ := decode_ok_iff.mp hi
  rw [operands_op]
  refine ⟨operands_wf _ _ _, ?_, fun ho => encodeData_operands ho _ data⟩
  rw [encode, encodeFields_operands, usedFields_eq hop hz, pack_fieldsOf]

/-- Settles O3: a row is its operation's word in `selects_iff_decode`, and the OP values are distinct. -/
theorem maskAndMatchSelectTheDecodedCommand : Obligations.MaskAndMatchSelectTheDecodedCommand := by
  intro cmd data
  refine ⟨fun o => selects_iff_decode data, ⟨fun hnone => ?_, ?_⟩, fun o p ho hp => ?_⟩
  · cases hd : decode cmd data with
    | error e => exact ⟨e, rfl⟩
    | ok i =>
      have hsel := (decode_ok_iff_selects.mp hd).1
      rw [hnone] at hsel
      cases hsel
  · rintro ⟨e, he⟩ o
    rw [Bool.eq_false_iff]
    intro hsel
    obtain ⟨i, hi, -⟩ := (selects_iff_decode data).mp hsel
    rw [he] at hi
    cases hi
  · exact Op.code_inj (((selects_iff o cmd).mp ho).1.symm.trans ((selects_iff p cmd).mp hp).1)

/-! ## DATA -/

/-- Every operation but three takes its operands from CMD alone (R82). -/
theorem operands_of_cmd {o : Op} (h : o ∉ [Op.bsPutbits, .bsSetLimit, .ctxInit]) (f : Fields) (data data' : Word) :
    operands o f data = operands o f data' := by
  cases o with
  | bsPutbits | bsSetLimit | ctxInit => simp at h
  | _ => rfl

/-- Settles O4: DATA is in the operands of three operations, in no row, and in no reason for BadCommand. -/
theorem dataIsNoPartOfTheOpcodeMatch : Obligations.DataIsNoPartOfTheOpcodeMatch := by
  intro cmd data data'
  refine ⟨fun n value h => ?_, fun limit h => ?_, fun c one total maxf adaptive h => ?_, fun i h hi => ?_, fun i h => ?_,
    fun e h => decode_error_iff.mpr (decode_error_iff.mp h)⟩
  · cases (decode_ok_iff_selects.mp h).2
    rfl
  · cases (decode_ok_iff_selects.mp h).2
    rfl
  · cases (decode_ok_iff_selects.mp h).2
    exact ⟨rfl, rfl⟩
  · obtain ⟨hsel, hops⟩ := decode_ok_iff_selects.mp h
    exact decode_ok_iff_selects.mpr ⟨hsel, (operands_of_cmd hi _ _ _).trans hops⟩
  · exact (selects_iff_decode data').mp (decode_ok_iff_selects.mp h).1

/-- Settles O5: each word is computed by the decoder. -/
theorem sampleWordsDecode : Obligations.SampleWordsDecode := by
  unfold Obligations.SampleWordsDecode
  decide

end Sys2Proof
end

section
/-! Requests and their responses (30_encoding.md R80, R87, R89 to R93; 60_exceptions.md R240): which command a request runs,
when its RESULT is 0, and what the read commands answer. -/

namespace Sys2Proof.Machine

/-- A request whose words decode runs its command (R80, R87). -/
theorem runRequest_of_decode {cmd data : BitVec 32} {i : Instr} (h : decode cmd data = .ok i) (s : State) :
    runRequest cmd data s = exec i s := by
  rw [runRequest, h]

/-- Settles O6: a step does the request at the head of the queue. -/
theorem stepRunsTheDecodedRequest : Obligations.StepRunsTheDecodedRequest := by
  intro s cmd data rest i hs hd
  rw [step_of_host hs]
  exact runRequest_of_decode hd _

/-! ## RESULT -/

/-- Whatever next state a command gives, a response is recorded, and its RESULT is 0 unless STATUS is OK and the command
returns a value (R89, R240). -/
def Answers (returns : Bool) (r : Result) : Prop :=
  ∀ t, r = .next t → ∃ a, t.resp = some a ∧ (a.status ≠ .ok → a.result = 0) ∧ (returns = false → a.result = 0)

theorem answers_ok {s : State} (v : BitVec 32) : Answers true (ended .ok v s) := by
  rintro t ⟨⟩
  exact ⟨⟨.ok, v⟩, rfl, fun h => absurd rfl h, nofun⟩

theorem answers_zero {b : Bool} {st : Status} {s : State} : Answers b (ended st 0 s) := by
  rintro t ⟨⟩
  exact ⟨⟨st, 0⟩, rfl, fun _ => rfl, fun _ => rfl⟩

theorem answers_require {b c : Bool} {st : Status} {s : State} {r : Result} (hr : Answers b r) :
    Answers b (require c st s r) := by
  intro t ht
  rcases require_next.mp ht with ⟨-, rfl⟩ | ⟨-, ht⟩
  · exact answers_zero _ rfl
  · exact hr t ht

theorem answers_unlessErr {b : Bool} {s : State} {r : Result} (hr : Answers b r) : Answers b (unlessErr s r) := by
  intro t ht
  rcases unlessErr_next.mp ht with ⟨x, -, rfl⟩ | ⟨-, ht⟩
  · exact answers_zero _ rfl
  · exact hr t ht

theorem answers_unlessFaulted {b : Bool} {s : State} {r : Result} (hr : Answers b r) : Answers b (unlessFaulted s r) := by
  intro t ht
  rcases unlessFaulted_next.mp ht with ⟨x, -, rfl⟩ | ⟨-, ht⟩
  · exact answers_zero _ rfl
  · exact hr t ht

theorem answers_runStream {α : Type} {b : Bool} {p : Stream → Run Stream α} {s : State} {k : α → State → Result}
    (hk : ∀ a t, Answers b (k a t)) : Answers b (runStream p s k) := by
  intro t ht
  rcases runStream_next.mp ht with ⟨a, u, -, ht⟩ | ⟨x, u, -, rfl⟩
  · exact hk a _ t ht
  · exact answers_zero _ rfl

theorem answers_runCoder {α : Type} {b : Bool} {p : Engine → Coded α} {s : State} {k : α → State → Result}
    (hk : ∀ a t, Answers b (k a t)) : Answers b (runCoder p s k) := by
  intro t ht
  rcases runCoder_next.mp ht with ⟨a, e, -, ht⟩ | ⟨x, e, -, rfl⟩
  · exact hk a _ t ht
  · exact answers_zero _ rfl

/-- A command on a context: BadArgument where there is none (R248). -/
theorem answers_ctxAt {b : Bool} {s : State} {x : Option Context} {k : Context → Result} (hk : ∀ y, Answers b (k y)) :
    Answers b (match x with | none => raise .badArgument s | some y => k y) := by
  cases x with
  | none => exact answers_zero
  | some y => exact hk y

/-- BS_CLOSE answers the stored error or the flush's status (R135). -/
theorem answers_execBsClose (s : State) : Answers false (execBsClose s) := by
  refine answers_require ?_
  split
  · exact answers_zero
  · split
    · split
      · exact answers_zero
      · exact answers_zero
    · exact answers_zero

theorem answers_execBsAlign (s : State) : Answers false (execBsAlign s) := by
  refine answers_require (answers_unlessErr ?_)
  split
  · exact answers_zero
  · exact answers_runStream fun _ _ => answers_zero

theorem answers_execDecTerminate (s : State) : Answers false (execDecTerminate s) := by
  refine answers_require (answers_unlessFaulted ?_)
  split
  · exact answers_zero
  · exact answers_zero

/-- Every command's response keeps to R89 and R240. -/
theorem exec_answers (i : Instr) (s : State) : Answers (returnsValue i) (exec i s) := by
  cases i with
  | bsBind | bsSetLimit | bsClearLimit | bsClearError => exact answers_require answers_zero
  | bsGetbits => exact answers_require (answers_require (answers_runStream fun _ _ => answers_ok _))
  | bsPutbits => exact answers_require (answers_require (answers_runStream fun _ _ => answers_zero))
  | bsAlign => exact answers_execBsAlign s
  | bsFlush => exact answers_require (answers_unlessErr (answers_runStream fun _ _ => answers_zero))
  | bsClose => exact answers_execBsClose s
  | bsStatus | bsGetLimit | acStatus => exact answers_ok _
  | ctxInit => exact answers_ctxAt fun _ => answers_require answers_zero
  | ctxRead | ctxReadCfg => exact answers_ctxAt fun _ => answers_ok _
  | acInit => exact answers_zero
  | encStart => exact answers_require (answers_unlessFaulted answers_zero)
  | encRegular =>
    exact answers_require (answers_ctxAt fun _ => answers_unlessFaulted (answers_runCoder fun _ _ => answers_zero))
  | encBypass | encTerminate | decStart =>
    exact answers_require (answers_unlessFaulted (answers_runCoder fun _ _ => answers_zero))
  | decRegular =>
    exact answers_require (answers_ctxAt fun _ => answers_unlessFaulted (answers_runCoder fun _ _ => answers_ok _))
  | decBypass => exact answers_require (answers_unlessFaulted (answers_runCoder fun _ _ => answers_ok _))
  | decTerminate => exact answers_execDecTerminate s

/-- Settles O16: a value is given only with OK, by the commands that return one. -/
theorem resultIsZeroWithoutOkOrValue : Obligations.ResultIsZeroWithoutOkOrValue :=
  fun i s => exec_answers i s

/-! ## The read layouts -/

/-- A field of a word that was put together as a number. -/
theorem toNat_extract_ofNat {n : Nat} (h : n < 2 ^ 32) (start len : Nat) :
    ((BitVec.ofNat 32 n).extractLsb' start len).toNat = n / 2 ^ start % 2 ^ len := by
  rw [BitVec.extractLsb'_toNat, BitVec.toNat_ofNat, Nat.mod_eq_of_lt h, Nat.shiftRight_eq_div_pow]

/-- A field of such a word is the value that stands there in the number. -/
theorem extract_ofNat_eq {n start len : Nat} {v : BitVec len} (h : n < 2 ^ 32) (hv : n / 2 ^ start % 2 ^ len = v.toNat) :
    (BitVec.ofNat 32 n).extractLsb' start len = v :=
  BitVec.eq_of_toNat_eq ((toNat_extract_ofNat h start len).trans hv)

/-- A field of such a word where nothing stands. -/
theorem extract_ofNat_zero {n start len : Nat} (h : n < 2 ^ 32) (hv : n / 2 ^ start % 2 ^ len = 0) :
    (BitVec.ofNat 32 n).extractLsb' start len = 0 :=
  extract_ofNat_eq h (hv.trans BitVec.toNat_zero.symm)

/-- A bit of such a word. -/
theorem getLsbD_ofNat_eq {n k : Nat} {b : Bool} (hk : k < 32) (hb : n / 2 ^ k % 2 = b.toNat) :
    (BitVec.ofNat 32 n).getLsbD k = b := by
  rw [BitVec.getLsbD_ofNat, Nat.testBit_eq_decide_div_mod_eq, hb]
  cases b <;> simp [hk]

theorem errCode_tabled (x : Option StreamErr) :
    (x, errCode x) ∈ [(none, 0), (some .ioExhausted, 1), (some .ioFailure, 2), (some .limitExceeded, 3)] := by
  rcases x with _ | _ | _ | _ <;> decide

theorem Mode.code_tabled (m : Mode) : (m, m.code) ∈ [(.none, 0), (.reader, 1), (.writer, 2)] := by cases m <;> decide

theorem BlockState.code_tabled (x : BlockState) :
    (x, x.code) ∈ [(.unstarted, 0), (.started, 1), (.terminated, 2), (.failed, 3)] := by cases x <;> decide

theorem Role.code_tabled (r : Role) : (r, r.code) ∈ [(.none, 0), (.enc, 1), (.dec, 2)] := by cases r <;> decide

theorem errCode_le (x : Option StreamErr) : errCode x ≤ 3 := by rcases x with _ | _ | _ | _ <;> decide

theorem Mode.code_le (m : Mode) : m.code ≤ 2 := by cases m <;> decide

theorem BlockState.code_le (x : BlockState) : x.code ≤ 3 := by cases x <;> decide

theorem Role.code_le (r : Role) : r.code ≤ 2 := by cases r <;> decide

/-- RESULT of BS_STATUS, field by field (R90). -/
theorem bsStatusWord_fields (b : BitStream) :
    (bsStatusWord b).extractLsb' 0 4 = b.count ∧ ((bsStatusWord b).extractLsb' 4 2).toNat = errCode b.err ∧
      (bsStatusWord b).extractLsb' 6 1 = 0 ∧ (bsStatusWord b).getLsbD 7 = b.limitEn ∧
      ((bsStatusWord b).extractLsb' 8 2).toNat = b.mode.code ∧ (bsStatusWord b).extractLsb' 10 22 = 0 := by
  have hc := b.count.isLt
  have he := errCode_le b.err
  have hl := b.limitEn.toNat_le
  have hm := b.mode.code_le
  have hn : b.count.toNat + errCode b.err * 2 ^ 4 + b.limitEn.toNat * 2 ^ 7 + b.mode.code * 2 ^ 8 < 2 ^ 32 := by omega
  refine ⟨extract_ofNat_eq hn ?_, (toNat_extract_ofNat hn 4 2).trans ?_, extract_ofNat_zero hn ?_,
    getLsbD_ofNat_eq (by decide) ?_, (toNat_extract_ofNat hn 8 2).trans ?_, extract_ofNat_zero hn ?_⟩ <;> omega

/-- RESULT of AC_STATUS, field by field (R93). -/
theorem acStatusWord_fields (a : Coder) :
    ((acStatusWord a).extractLsb' 0 2).toNat = a.state.code ∧ ((acStatusWord a).extractLsb' 2 2).toNat = a.role.code ∧
      (acStatusWord a).extractLsb' 4 28 = 0 := by
  have hs := a.state.code_le
  have hr := a.role.code_le
  have hn : a.state.code + a.role.code * 2 ^ 2 < 2 ^ 32 := by omega
  refine ⟨(toNat_extract_ofNat hn 0 2).trans ?_, (toNat_extract_ofNat hn 2 2).trans ?_, extract_ofNat_zero hn ?_⟩ <;> omega

/-- RESULT of CTX_READ, field by field (R91). -/
theorem ctxCountsWord_fields (x : Context) :
    (ctxCountsWord x).extractLsb' 16 16 = x.one ∧ (ctxCountsWord x).extractLsb' 0 16 = x.total := by
  have ho := x.one.isLt
  have ht := x.total.isLt
  have hn : x.one.toNat * 2 ^ 16 + x.total.toNat < 2 ^ 32 := by omega
  refine ⟨extract_ofNat_eq hn ?_, extract_ofNat_eq hn ?_⟩ <;> omega

/-- RESULT of CTX_READ_CFG, field by field (R92). -/
theorem ctxCfgWord_fields (x : Context) :
    (ctxCfgWord x).extractLsb' 0 16 = x.maxf ∧ (ctxCfgWord x).getLsbD 16 = x.adapt ∧
      (ctxCfgWord x).extractLsb' 17 15 = 0 := by
  have hm := x.maxf.isLt
  have ha := x.adapt.toNat_le
  have hn : x.adapt.toNat * 2 ^ 16 + x.maxf.toNat < 2 ^ 32 := by omega
  refine ⟨extract_ofNat_eq hn ?_, getLsbD_ofNat_eq (by decide) ?_, extract_ofNat_zero hn ?_⟩ <;> omega

theorem exec_ctxRead {s : State} {c : Nat} {x : Context} (h : s.ctx[c]? = some x) :
    exec (.ctxRead c) s = .next (s.answer .ok (ctxCountsWord x)) := by
  simp only [exec, execCtxRead, State.ctxAt, h, ended_eq]

theorem exec_ctxReadCfg {s : State} {c : Nat} {x : Context} (h : s.ctx[c]? = some x) :
    exec (.ctxReadCfg c) s = .next (s.answer .ok (ctxCfgWord x)) := by
  simp only [exec, execCtxReadCfg, State.ctxAt, h, ended_eq]

/-- Settles O27: each read answers its layout's word, whose fields are the registers. -/
theorem readCommandsReturnTheTabledFields : Obligations.ReadCommandsReturnTheTabledFields := by
  intro s
  refine ⟨?_, rfl, fun c x hx => ⟨?_, ?_⟩, ?_⟩
  · obtain ⟨hcount, herr, hzero, hlimit, hmode, htop⟩ := bsStatusWord_fields s.bs
    exact ⟨bsStatusWord s.bs, rfl, hcount, by rw [herr]; exact errCode_tabled _, hzero, hlimit,
      by rw [hmode]; exact Mode.code_tabled _, htop⟩
  · exact ⟨ctxCountsWord x, exec_ctxRead hx, ctxCountsWord_fields x⟩
  · exact ⟨ctxCfgWord x, exec_ctxReadCfg hx, ctxCfgWord_fields x⟩
  · obtain ⟨hstate, hrole, htop⟩ := acStatusWord_fields s.ac
    exact ⟨acStatusWord s.ac, rfl, by rw [hstate]; exact BlockState.code_tabled _,
      by rw [hrole]; exact Role.code_tabled _, htop⟩

end Sys2Proof.Machine
end

section
/-! The one get or put that passes its checks and succeeds, runs out of input or is over LIMIT (40_bitstream.md R120 to R122,
R131, R132). -/

namespace Sys2Proof.Machine

/-! ## A transfer that succeeds -/

/-- With no LIMIT armed nothing is charged (R121, R122). -/
theorem chargeLimit_unarmed (n : Nat) {t : Stream} (h : t.bs.limitEn = false) : chargeLimit n t = t := by
  simp [chargeLimit, h]

/-- Charging keeps the registers of a bound stream consistent (R140). -/
theorem chargeLimit_bs_wf {t : Stream} (h : t.bs.Wf) (hm : t.bs.mode ≠ .none) (n : Nat) : (chargeLimit n t).bs.Wf := by
  cases hl : t.bs.limitEn with
  | false => rw [chargeLimit_unarmed n hl]; exact h
  | true =>
    rw [chargeLimit, if_pos hl]
    exact h.withLimit hm fun hn => absurd hl (by simp [hn])

/-- BS_GETBITS with the bits and the budget there and no failing draw: the loop's value, then LIMIT charged (R121, R131). -/
theorem exec_bsGetbits_done {n : Nat} {s : State} (h1 : 1 ≤ n) (h31 : n ≤ 31) (hm : s.bs.mode = .reader)
    (hs : s.ac.state ≠ .started) (hc : s.bs.count.toNat ≤ 7) (he : s.bs.err = none)
    (hl : s.bs.limitEn = true → n ≤ s.bs.limit.toNat) (hn : n ≤ s.stream.unread.length)
    (hr : s.chan.Reliable (getBytes n s.stream)) :
    ∃ u, exec (.bsGetbits n) s =
        .next ((s.setStream (chargeLimit n u)).answer .ok (BitVec.ofNat 32 (bitsNat (s.stream.unread.take n)))) ∧
      Got n s.stream u := by
  obtain ⟨u, hu, g⟩ := getBits_done (t := s.stream) (Nat.le_succ_of_le hc) he hl hn hr
  exact ⟨u, by rw [exec_bsGetbits h1 h31 hm hs, runStream_done hu, ended_eq], g⟩

/-- BS_PUTBITS with the budget there and no failing draw: the bits appended, then LIMIT charged (R122, R132). -/
theorem exec_bsPutbits_done {n : Nat} {value : Word} {s : State} (h1 : 1 ≤ n) (h31 : n ≤ 31) (hv : value.toNat < 2 ^ n)
    (hm : s.bs.mode = .writer) (hs : s.ac.state ≠ .started) (hp : s.stream.CanPut) (he : s.bs.err = none)
    (hl : s.bs.limitEn = true → n ≤ s.bs.limit.toNat) (hr : s.chan.Reliable (putBytes n s.stream)) :
    ∃ u, exec (.bsPutbits n value) s = .next ((s.setStream (chargeLimit n u)).answer .ok 0) ∧
      Put (lowBits n value.toNat) s.stream u := by
  obtain ⟨u, hu, g⟩ := putBits_done (v := value.toNat) hp he hl hr
  exact ⟨u, by rw [exec_bsPutbits h1 h31 hv hm hs, runStream_done hu, ended_eq], g⟩

/-- Settles O18: the loop of GetBits takes the bits, and LIMIT is charged after it. -/
theorem getbitsReturnsTheNextBits : Obligations.GetbitsReturnsTheNextBits := by
  intro n s h1 h31 hm hs hwf he hl hn hr
  obtain ⟨hc, -⟩ := (BitStream.wf_reader hm).mp hwf
  obtain ⟨u, hexec, g⟩ := exec_bsGetbits_done h1 h31 hm hs hc he hl hn hr
  refine ⟨_, hexec, rfl, (chargeLimit_unread n u).trans g.unread, ?_, ?_, ?_, ?_⟩
  · exact (congrArg Channel.inpos (chargeLimit_chan n u)).trans g.inpos
  · rw [chargeLimit_eq]; exact g.count
  · rw [State.answer_bs, State.setStream_bs, chargeLimit_limit, g.bs]; rfl
  · rw [chargeLimit_eq, State.setStream, g.bs, g.chan]; rfl

/-- Settles O21: the loop of PutBits appends the bits, and LIMIT is charged after it. -/
theorem putbitsAppendsTheBits : Obligations.PutbitsAppendsTheBits := by
  intro n value s h1 h31 hv hm hs hwf he hl hr
  obtain ⟨hp, hz⟩ := (BitStream.wf_writer hm).mp hwf
  obtain ⟨u, hexec, g⟩ := exec_bsPutbits_done h1 h31 hv hm hs hp he hl hr
  have hchan := chargeLimit_chan n u
  have hmode : u.bs.mode = .writer := by rw [g.bs]; exact hm
  refine ⟨_, hexec, rfl, (chargeLimit_written n u).trans g.written, ?_, ?_, ?_, ?_, ?_⟩
  · rw [State.answer_chan, State.setStream_chan, hchan]; exact g.grown
  · rw [State.answer_chan, State.setStream_chan, hchan, g.length, lowBits_length]; rfl
  · refine chargeLimit_bs_wf ((BitStream.wf_writer hmode).mpr ⟨g.canPut, ?_⟩) (by simp [hmode]) n
    rw [g.bs]; exact hz
  · rw [State.answer_bs, State.setStream_bs, chargeLimit_limit, g.bs]; rfl
  · rw [chargeLimit_eq, State.setStream, g.bs, g.chan]; rfl

/-! ## A transfer that is rejected or runs out of input -/

/-- GetBits past the end of the input, with the budget there and no failing draw (R121, R242). -/
theorem getBits_exhausted {n : Nat} {t : Stream} (hc : t.bs.count.toNat ≤ 8) (hw : t.chan.Wf) (he : t.bs.err = none)
    (hl : t.bs.limitEn = true → n ≤ t.bs.limit.toNat) (hn : t.unread.length < n)
    (hr : t.chan.Reliable (t.chan.input.length - t.chan.inpos + 1)) :
    ∃ u, getBits n t = .raised .ioExhausted u ∧ GotErr n t .ioExhausted u := by
  obtain ⟨u, e, g⟩ := getLoop_exhausted 0 hc hw hn hr
  exact ⟨u, by rw [getBits, preCheck_ok he hl, Run.andThen_done, e, Run.andThen_raised], g⟩

/-- Settles O19: the loop of GetBits ends at the end of the input, before LIMIT is charged. -/
theorem getbitsPastTheEndLosesTheBitsTaken : Obligations.GetbitsPastTheEndLosesTheBitsTaken := by
  intro n s h1 h31 hm hs hwf hw he hl hn hr
  have hc : s.stream.bs.count.toNat ≤ 7 := ((BitStream.wf_reader hm).mp hwf).1
  obtain ⟨u, hu, g⟩ := getBits_exhausted (t := s.stream) (Nat.le_succ_of_le hc) hw he hl hn hr
  rw [exec_bsGetbits h1 h31 hm hs, runStream_raised hu]
  refine ⟨_, rfl, rfl, g.bs, g.at_end rfl hw, ?_⟩
  rw [State.setStream, g.chan]; rfl

/-- PreCheck over the armed LIMIT is sticky (R120). -/
theorem preCheck_over {n : Nat} {t : Stream} (he : t.bs.err = none) (hl : t.bs.limitEn = true)
    (hn : t.bs.limit.toNat < n) :
    preCheck n t = .raised .limitExceeded { t with bs := { t.bs with err := some .limitExceeded } } := by
  rcases preCheck_cases n t with ⟨x, h, -⟩ | ⟨-, -, -, h⟩ | ⟨-, h, -⟩
  · rw [he] at h; cases h
  · exact h
  · exact absurd (h hl) (by omega)

/-- A legal get is on an idle reader, of 1 to 31 bits (R131). -/
theorem getbits_legal {n : Nat} {s : State} (hb : ¬ BadStateWhen (.bsGetbits n) s) (ha : ¬ BadArgumentWhen (.bsGetbits n) s) :
    s.bs.mode = .reader ∧ s.ac.state ≠ .started ∧ 1 ≤ n ∧ n ≤ 31 := by
  simpa [BadStateWhen, BadArgumentWhen, and_assoc, Nat.one_le_iff_ne_zero] using And.intro hb ha

/-- A legal put is on an idle writer, of 1 to 31 bits and a value that fits (R132). -/
theorem putbits_legal {n : Nat} {value : Word} {s : State} (hb : ¬ BadStateWhen (.bsPutbits n value) s)
    (ha : ¬ BadArgumentWhen (.bsPutbits n value) s) :
    s.bs.mode = .writer ∧ s.ac.state ≠ .started ∧ 1 ≤ n ∧ n ≤ 31 ∧ value.toNat < 2 ^ n := by
  simpa [BadStateWhen, BadArgumentWhen, and_assoc, Nat.one_le_iff_ne_zero] using And.intro hb ha

/-- Settles O23: PreCheck rejects the transfer before its loop. -/
theorem limitRejectsTheWholeTransfer : Obligations.LimitRejectsTheWholeTransfer := by
  intro i n s hi hb ha he hl hn
  have hpre := preCheck_over (t := s.stream) he hl hn
  rcases hi with rfl | ⟨value, rfl⟩
  · obtain ⟨hm, hs, h1, h31⟩ := getbits_legal hb ha
    rw [exec_bsGetbits h1 h31 hm hs, runStream_raised (by rw [getBits, hpre, Run.andThen_raised])]
    rfl
  · obtain ⟨hm, hs, h1, h31, hv⟩ := putbits_legal hb ha
    rw [exec_bsPutbits h1 h31 hv hm hs, runStream_raised (by rw [putBits, hpre, Run.andThen_raised])]
    rfl

end Sys2Proof.Machine
end

section
/-! The commands that move a bound stream to its byte boundary or unbind it (40_bitstream.md R123, R133 to R135), and those
that write its registers (R130, R136 to R138). -/

namespace Sys2Proof.Machine

/-! ## FlushPartial, by what the channel does -/

/-- At a byte boundary there is no partial byte (R123). -/
theorem flushPartial_boundary {t : Stream} (h : t.bs.count = 8) : flushPartial t = .done () t := by
  rw [flushPartial, if_neg (by simp [h])]

/-- A writer that is not at a byte boundary has a partial byte (R146). -/
theorem count_lt_eight {t : Stream} (h : t.CanPut) (h8 : t.bs.count ≠ 8) : t.bs.count.toNat < 8 := by
  obtain ⟨-, hle, -⟩ := h
  exact Nat.lt_of_le_of_ne hle fun e => h8 (BitVec.eq_of_toNat_eq e)

/-- A partial byte that the channel takes (R123). -/
theorem flushPartial_taken {t : Stream} (h : t.bs.count.toNat < 8) (hd : t.chan.drawAt 0 = false) :
    flushPartial t = .done () ⟨{ t.bs with buf := 0, count := 8 },
      { t.chan.drawOne with output := t.chan.output ++ [t.bs.buf] }⟩ := by
  rcases flushPartial_cases t with ⟨h8, -⟩ | ⟨-, hf, -⟩ | ⟨-, -, e⟩
  · omega
  · rw [← t.chan.drawAt_zero, hd] at hf; cases hf
  · exact e

/-- A partial byte whose write fails is lost (R123). -/
theorem flushPartial_lost {t : Stream} (h : t.bs.count.toNat < 8) (hd : t.chan.drawAt 0 = true) :
    flushPartial t = .raised .ioFailure ⟨{ t.bs with buf := 0, count := 8, err := some .ioFailure }, t.chan.drawOne⟩ := by
  rcases flushPartial_cases t with ⟨h8, -⟩ | ⟨-, -, e⟩ | ⟨-, hf, -⟩
  · omega
  · exact e
  · rw [← t.chan.drawAt_zero, hd] at hf; cases hf

/-! ## ALIGN and FLUSH -/

/-- On an idle writer with no stored error, ALIGN and FLUSH are FlushPartial (R133, R134). -/
theorem exec_align_flush {i : Instr} {s : State} (hi : i ∈ [Instr.bsAlign, .bsFlush]) (hm : s.bs.mode = .writer)
    (hs : s.ac.state ≠ .started) (he : s.bs.err = none) :
    exec i s = runStream flushPartial s fun _ s => ended .ok 0 s := by
  rcases List.mem_pair.mp hi with rfl | rfl
  · show execBsAlign s = _
    rw [execBsAlign, (mayMove_iff s).mpr ⟨by simp [hm], hs⟩, require_true, unlessErr_none s _ he, if_neg (by simp [hm])]
  · show execBsFlush s = _
    rw [execBsFlush, (mayPut_iff s).mpr ⟨hm, hs⟩, require_true, unlessErr_none s _ he]

/-- Settles O24: a reader drops its unread bits; a writer's ALIGN and FLUSH are FlushPartial. -/
theorem alignAndFlushReachTheByteBoundary : Obligations.AlignAndFlushReachTheByteBoundary := by
  intro s hs he
  refine ⟨fun hm => ?_, fun hm hwf i hi => ?_⟩
  · show execBsAlign s = _
    rw [execBsAlign, (mayMove_iff s).mpr ⟨by simp [hm], hs⟩, require_true, unlessErr_none s _ he, if_pos hm]
    rfl
  · have hp : s.stream.CanPut := ((BitStream.wf_writer hm).mp hwf).1
    rw [exec_align_flush hi hm hs he]
    refine ⟨fun h8 => ?_, fun h8 hd => ?_, fun h8 hd => ?_⟩
    · rw [runStream_done (flushPartial_boundary (t := s.stream) h8)]; rfl
    · rw [runStream_done (flushPartial_taken (count_lt_eight hp h8) hd)]
      exact ⟨_, rfl, rfl, written_flushed hp _ _ rfl rfl, rfl⟩
    · rw [runStream_raised (flushPartial_lost (count_lt_eight hp h8) hd)]; rfl

/-! ## CLOSE -/

/-- Settles O25: a stored error or a reader needs no flush; a writer's flush does nothing, is taken, or is lost. -/
theorem closeAlwaysUnbinds : Obligations.CloseAlwaysUnbinds := by
  intro s hm hs hwf
  have hmay := (mayMove_iff s).mpr ⟨hm, hs⟩
  refine ⟨fun x he => ?_, fun he hb => ?_, fun he hw h8 => ?_⟩ <;> simp only [exec, execBsClose, hmay, require_true, he]
  · rfl
  · by_cases hw : s.bs.mode = .writer
    · have h8 : s.stream.bs.count = 8 := hb.resolve_left (by simp [hw])
      rw [if_pos hw, flushPartial_boundary h8]; rfl
    · rw [if_neg hw]; rfl
  · have hlt : s.stream.bs.count.toNat < 8 := count_lt_eight ((BitStream.wf_writer hw).mp hwf).1 h8
    rw [if_pos hw]
    cases hd : s.chan.drawAt 0 with
    | false => rw [flushPartial_taken hlt hd]; rfl
    | true => rw [flushPartial_lost hlt hd, if_pos rfl, if_pos rfl, List.append_nil]; rfl

/-! ## The commands that write registers only -/

/-- Settles O17: past its check BS_BIND writes constants. -/
theorem bindSetsTheStreamRegisters : Obligations.BindSetsTheStreamRegisters := by
  intro s hm hs
  have hmay := (mayBind_iff s).mpr ⟨hm, hs⟩
  constructor
  · show execBsBind .reader s = _
    rw [execBsBind, hmay, require_true]; rfl
  · show execBsBind .writer s = _
    rw [execBsBind, hmay, require_true]; rfl

/-- Settles O26: past their check, a bound stream, the three commands write their registers. -/
theorem limitAndErrorCommandsWriteTheirRegisters : Obligations.LimitAndErrorCommandsWriteTheirRegisters := by
  intro s hm
  have hbound := (bound_iff s).mpr hm
  refine ⟨fun limit => ?_, ?_, ?_⟩
  · show execBsSetLimit limit s = _
    rw [execBsSetLimit, hbound, require_true]; rfl
  · show execBsClearLimit s = _
    rw [execBsClearLimit, hbound, require_true]; rfl
  · show execBsClearError s = _
    rw [execBsClearError, hbound, require_true]; rfl

end Sys2Proof.Machine
end

section
/-! A stored stream error (40_bitstream.md R149; 60_exceptions.md R247 step 4): each command that needs the stream returns it
before any transfer, and no command but CLEAR_ERROR, CLOSE and BIND ends it. -/

namespace Sys2Proof.Machine

/-! ## The sticky checks -/

theorem preCheck_sticky (n : Nat) {t : Stream} {x : StreamErr} (h : t.bs.err = some x) : preCheck n t = .raised x t := by
  rw [preCheck, h]

theorem getBits_sticky (n : Nat) {t : Stream} {x : StreamErr} (h : t.bs.err = some x) : getBits n t = .raised x t := by
  rw [getBits, preCheck_sticky n h, Run.andThen_raised]

theorem putBits_sticky (v n : Nat) {t : Stream} {x : StreamErr} (h : t.bs.err = some x) : putBits v n t = .raised x t := by
  rw [putBits, preCheck_sticky n h, Run.andThen_raised]

theorem unlessErr_some {s : State} {x : StreamErr} (h : s.bs.err = some x) (k : Result) :
    unlessErr s k = .next (s.answer x.status 0) := by
  rw [unlessErr, h]; rfl

theorem unlessFaulted_some {s : State} {x : StreamErr} (h : s.bs.err = some x) (k : Result) :
    unlessFaulted s k = .next (s.failed.answer x.status 0) := by
  rw [unlessFaulted, h]; rfl

/-! ## The commands that need the stream -/

/-- A legal get, put, ALIGN or FLUSH on a faulted stream (R131 to R134). -/
theorem exec_returnsErr {i : Instr} {s : State} {x : StreamErr} (he : s.bs.err = some x) (hb : ¬ BadStateWhen i s)
    (ha : ¬ BadArgumentWhen i s) (hi : returnsErr i = true) : exec i s = .next (s.answer x.status 0) := by
  cases i with
  | bsGetbits n =>
    obtain ⟨hm, hs, h1, h31⟩ := getbits_legal hb ha
    rw [exec_bsGetbits h1 h31 hm hs, runStream_raised (getBits_sticky n (t := s.stream) he), State.setStream_self]
  | bsPutbits n value =>
    obtain ⟨hm, hs, h1, h31, hv⟩ := putbits_legal hb ha
    rw [exec_bsPutbits h1 h31 hv hm hs, runStream_raised (putBits_sticky _ n (t := s.stream) he), State.setStream_self]
  | bsAlign =>
    show execBsAlign s = _
    rw [execBsAlign, (mayMove_iff s).mpr (by simpa [BadStateWhen] using hb), require_true, unlessErr_some he]
  | bsFlush =>
    show execBsFlush s = _
    rw [execBsFlush, (mayPut_iff s).mpr (by simpa [BadStateWhen] using hb), require_true, unlessErr_some he]
  | _ => cases hi

/-- A coder command past its state check, on a faulted stream (R202 case 1). -/
theorem require_faulted {b : Bool} {s : State} {x : StreamErr} (hb : b = true) (he : s.bs.err = some x) (k : Result) :
    require b .badState s (unlessFaulted s k) = .next (s.failed.answer x.status 0) := by
  rw [hb, require_true, unlessFaulted_some he]

/-- A context id in range names a context (R61). -/
theorem ctxAt_of_lt {s : State} {c : Nat} (h : ¬ s.ctx.length ≤ c) : ∃ y, s.ctxAt c = some y :=
  ⟨_, List.getElem?_eq_getElem (Nat.lt_of_not_le h)⟩

/-- A legal coder command that needs the stream, on a faulted stream (R202 case 1). -/
theorem exec_failsBlock {i : Instr} {s : State} {x : StreamErr} (he : s.bs.err = some x) (hb : ¬ BadStateWhen i s)
    (ha : ¬ BadArgumentWhen i s) (hi : failsBlock i = true) : exec i s = .next (s.failed.answer x.status 0) := by
  have henc (h : ¬ (s.ac.state ≠ .started ∨ s.ac.role ≠ .enc)) : s.encoding = true := (encoding_iff s).mpr (by simpa using h)
  have hdec (h : ¬ (s.ac.state ≠ .started ∨ s.ac.role ≠ .dec)) : s.decoding = true := (decoding_iff s).mpr (by simpa using h)
  cases i with
  | encStart => exact require_faulted ((mayStartEnc_iff s).mpr (by simpa [BadStateWhen] using hb)) he _
  | decStart => exact require_faulted ((mayStartDec_iff s).mpr (by simpa [BadStateWhen] using hb)) he _
  | encBypass bit => exact require_faulted (henc hb) he _
  | encTerminate => exact require_faulted (henc hb) he _
  | decBypass => exact require_faulted (hdec hb) he _
  | decTerminate => exact require_faulted (hdec hb) he _
  | encRegular c bit =>
    obtain ⟨y, hy⟩ := ctxAt_of_lt ha
    show execEncRegular c bit s = _
    simp only [execEncRegular, hy]
    exact require_faulted (henc hb) he _
  | decRegular c =>
    obtain ⟨y, hy⟩ := ctxAt_of_lt ha
    show execDecRegular c s = _
    simp only [execDecRegular, hy]
    exact require_faulted (hdec hb) he _
  | _ => cases hi

/-! ## What leaves the stored error -/

/-- Whatever next state a command gives, the stored error is still there and the channel was not used. -/
def StaysFaulted (s : State) (x : StreamErr) (r : Result) : Prop := ∀ t, r = .next t → t.bs.err = some x ∧ t.chan = s.chan

theorem StaysFaulted.next {s t : State} {x : StreamErr} (he : t.bs.err = some x) (hc : t.chan = s.chan) :
    StaysFaulted s x (.next t) := by
  rintro _ ⟨⟩; exact ⟨he, hc⟩

theorem StaysFaulted.require {b : Bool} {st : Status} {s : State} {x : StreamErr} {k : Result} (he : s.bs.err = some x)
    (hk : StaysFaulted s x k) : StaysFaulted s x (require b st s k) := by
  cases b with
  | false => exact .next he rfl
  | true => exact hk

/-- A Bit Stream command other than the three that end a stored error (R136 to R138, R149). -/
theorem staysFaulted_of_stream {i : Instr} {s : State} {x : StreamErr} (he : s.bs.err = some x) (hi : ofStream i = true)
    (hne : i.op ∉ [Op.bsClearError, .bsClose, .bsBind]) : StaysFaulted s x (exec i s) := by
  cases i with
  | bsGetbits n =>
    refine .require he (.require he ?_)
    rw [runStream_raised (getBits_sticky n (t := s.stream) he)]
    exact .next he rfl
  | bsPutbits n value =>
    refine .require he (.require he ?_)
    rw [runStream_raised (putBits_sticky _ n (t := s.stream) he)]
    exact .next he rfl
  | bsAlign =>
    refine .require he ?_
    rw [unlessErr_some he]
    exact .next he rfl
  | bsFlush =>
    refine .require he ?_
    rw [unlessErr_some he]
    exact .next he rfl
  | bsSetLimit limit => exact .require he (.next he rfl)
  | bsClearLimit => exact .require he (.next he rfl)
  | bsStatus => exact .next he rfl
  | bsGetLimit => exact .next he rfl
  | bsBind dir => exact absurd hne (by simp [Instr.op])
  | bsClose => exact absurd hne (by simp [Instr.op])
  | bsClearError => exact absurd hne (by simp [Instr.op])
  | _ => cases hi

/-- Any other command needs an unfaulted stream to move it, so it leaves the stream alone (R202, R247). -/
theorem exec_staysFaulted {i : Instr} {s : State} {x : StreamErr} (he : s.bs.err = some x)
    (hne : i.op ∉ [Op.bsClearError, .bsClose, .bsBind]) : StaysFaulted s x (exec i s) := by
  intro t ht
  have unfaulted (h : s.bs.err = none) : t.bs.err = some x ∧ t.chan = s.chan := by rw [he] at h; cases h
  cases exec_ends ht with
  | bs hi => exact staysFaulted_of_stream he hi hne t ht
  | rejected | sticky | faulted | ctxWritten | ctxRead | coderRead | init => exact ⟨he, rfl⟩
  | encStarted hi hs hm h | encSymbol hi hs h | encBypassed hi hs h | encTerminated hi hs h | encFailed hi hs h =>
    exact unfaulted h
  | decStarted hi hs h | decStartFailed hi hs h | decSymbol hi hs h | decBypassed hi hs h | decFailed hi hs h
  | decTerminated hi hs h | decMismatched hi hs h => exact unfaulted h

/-- Settles O15, by the sticky check of each command that needs the stream and the ends of every other. -/
theorem storedErrorIsReturnedWithNoTransfer : Obligations.StoredErrorIsReturnedWithNoTransfer := by
  intro i s x he
  exact ⟨fun hb ha => ⟨exec_returnsErr he hb ha, exec_failsBlock he hb ha⟩, exec_staysFaulted he⟩

end Sys2Proof.Machine
end

section
/-! The round trip of puts and gets (40_bitstream.md R145): a sequence of puts is one put of all the bits, a flush pads it to a
byte boundary, and a sequence of gets splits what is unread at the same widths. -/

namespace Sys2Proof.Machine

/-! ## Sequences of commands -/

theorem issue_cons {i : Instr} {l : List Instr} {s t u : State} {a : Response} {r : List Response} (h : exec i s = .next t)
    (ha : t.resp = some a) (hl : issue l t = some (u, r)) : issue (i :: l) s = some (u, a :: r) := by
  simp [issue, h, ha, hl]

theorem issue_append {l m : List Instr} {s t u : State} {r q : List Response} (h : issue l s = some (t, r))
    (hm : issue m t = some (u, q)) : issue (l ++ m) s = some (u, r ++ q) := by
  induction l generalizing s r with
  | nil => cases h; exact hm
  | cons i l ih =>
    rw [issue] at h
    split at h
    · next v hv =>
      obtain ⟨⟨w, p⟩, hw, h⟩ := Option.map_eq_some_iff.mp h
      cases h
      simp [issue, hv, ih hw]
    · cases h
    · cases h

/-! ## A free stream -/

/-- A stream bound in that direction, with no stored error, no LIMIT armed and no block running. -/
structure State.Free (m : Mode) (s : State) : Prop where
  idle : s.ac.state ≠ .started
  mode : s.bs.mode = m
  err : s.bs.err = none
  unarmed : s.bs.limitEn = false

/-- The width and the value of a legal put (R132). -/
abbrev LegalPut (p : Nat × Word) : Prop := 1 ≤ p.1 ∧ p.1 ≤ 31 ∧ p.2.toNat < 2 ^ p.1

/-- The bits of a sequence of puts, in order (R65, R122). -/
abbrev putsBits (l : List (Nat × Word)) : List Bool := l.flatMap fun p => lowBits p.1 p.2.toNat

theorem putsBits_length (l : List (Nat × Word)) : (putsBits l).length = (l.map Prod.fst).sum := by
  simp [putsBits, List.length_flatMap]

/-! ## Puts, then a flush -/

/-- A legal put on a free writer appends its bits, and the writer stays free (R122, R132). -/
theorem exec_put_free {p : Nat × Word} {s : State} (hp : LegalPut p) (hs : s.Free .writer) (hc : s.stream.CanPut)
    (hr : s.chan.Reliable (putBytes p.1 s.stream)) :
    ∃ t, exec (.bsPutbits p.1 p.2) s = .next t ∧ t.resp = some ⟨.ok, 0⟩ ∧ t.Free .writer ∧
      Put (lowBits p.1 p.2.toNat) s.stream t.stream := by
  obtain ⟨h1, h31, hv⟩ := hp
  obtain ⟨idle, mode, err, unarmed⟩ := hs
  obtain ⟨u, hexec, g⟩ := exec_bsPutbits_done h1 h31 hv mode idle hc err (by simp [unarmed]) hr
  have hu : u.bs.limitEn = false := by rw [g.bs]; exact unarmed
  rw [chargeLimit_unarmed _ hu] at hexec
  exact ⟨_, hexec, rfl, ⟨idle, (congrArg BitStream.mode g.bs).trans mode, (congrArg BitStream.err g.bs).trans err, hu⟩, g⟩

/-- A sequence of puts is one put of all the bits (R145). -/
theorem issue_puts {l : List (Nat × Word)} {s : State} (hl : ∀ p ∈ l, LegalPut p) (hs : s.Free .writer)
    (hc : s.stream.CanPut) (hr : s.chan.Reliable (putBytes (l.map Prod.fst).sum s.stream)) :
    ∃ t, issue (l.map fun p => Instr.bsPutbits p.1 p.2) s = some (t, List.replicate l.length ⟨.ok, 0⟩) ∧
      t.Free .writer ∧ Put (putsBits l) s.stream t.stream := by
  induction l generalizing s with
  | nil => exact ⟨s, rfl, hs, Put.refl hc⟩
  | cons p l ih =>
    rw [List.forall_mem_cons] at hl
    obtain ⟨hp, hl⟩ := hl
    rw [List.map_cons, List.sum_cons] at hr
    obtain ⟨t, ht, hta, hts, g⟩ := exec_put_free hp hs hc
      (s.chan.Reliable_mono (Nat.div_le_div_right (by omega)) hr)
    have hsplit := g.bytes hc (l.map Prod.fst).sum
    rw [lowBits_length] at hsplit
    have hrt : t.chan.Reliable (putBytes (l.map Prod.fst).sum t.stream) := by
      intro k hk
      have hd := g.draws k
      rw [lowBits_length] at hd
      exact hd.trans (hr _ (by omega))
    obtain ⟨w, hw, hws, g'⟩ := ih hl hts g.canPut hrt
    exact ⟨w, issue_cons ht hta hw, hws, g.trans hc g'⟩

/-- A flush on a free writer pads with zeros to the byte boundary (R123, R134). -/
theorem exec_flush_free {s : State} (hs : s.Free .writer) (hc : s.stream.CanPut)
    (hr : s.stream.bs.count ≠ 8 → s.chan.drawAt 0 = false) :
    ∃ t, exec .bsFlush s = .next t ∧ t.resp = some ⟨.ok, 0⟩ ∧
      t.chan.output.flatMap byteBits = s.stream.written ++ List.replicate (s.stream.bs.count.toNat % 8) false := by
  obtain ⟨idle, mode, err, -⟩ := hs
  rw [exec_align_flush (by simp) mode idle err]
  by_cases h8 : s.stream.bs.count = 8
  · rw [runStream_done (flushPartial_boundary h8)]
    have hn : s.stream.bs.count.toNat = 8 := congrArg BitVec.toNat h8
    exact ⟨_, rfl, rfl, by rw [written_boundary hn, hn]; simp⟩
  · have hlt := count_lt_eight hc h8
    rw [runStream_done (flushPartial_taken hlt (hr h8))]
    refine ⟨_, rfl, rfl, ?_⟩
    rw [Nat.mod_eq_of_lt hlt]
    exact (written_boundary (t := ⟨{ s.bs with buf := 0, count := 8 }, _⟩) rfl).symm.trans
      (written_flushed hc _ _ rfl rfl)

/-- The padding a flush adds after that many bits put from a byte boundary (R123). -/
theorem padding_eq {l : List Bool} {t u : Stream} (h : t.bs.count.toNat = 8) (g : Put l t u) :
    u.bs.count.toNat % 8 = (8 - l.length % 8) % 8 := by
  have hc := g.count
  simp only [putBytes, h] at hc
  omega

/-- From a byte boundary, a sequence of puts and a flush are answered OK, and give the channel all the bits, padded (R145). -/
theorem issue_puts_flush {l : List (Nat × Word)} {s : State} (hl : ∀ p ∈ l, LegalPut p) (hs : s.Free .writer)
    (hc : s.stream.CanPut) (h8 : s.stream.bs.count.toNat = 8) (hr : s.chan.Reliable (((l.map Prod.fst).sum + 7) / 8)) :
    ∃ t answers, issue (l.map (fun p => Instr.bsPutbits p.1 p.2) ++ [.bsFlush]) s = some (t, answers) ∧
      (∀ a ∈ answers, a = ⟨.ok, 0⟩) ∧
      t.chan.output.flatMap byteBits = s.stream.written ++ putsBits l ++
        List.replicate ((8 - (l.map Prod.fst).sum % 8) % 8) false := by
  obtain ⟨u, hu, hus, g⟩ := issue_puts hl hs hc (s.chan.Reliable_mono (by simp only [putBytes, h8]; omega) hr)
  have hcount := g.count
  have hdraw := g.draws 0
  have hpad := padding_eq h8 g
  rw [putsBits_length] at hcount hdraw hpad
  -- a partial byte is one more transfer than the puts made
  have hpart : u.stream.bs.count ≠ 8 → u.chan.drawAt 0 = false := fun h => by
    have hlt := count_lt_eight g.canPut h
    simp only [putBytes, h8] at hcount hdraw
    exact hdraw.trans (hr _ (by omega))
  obtain ⟨t, ht, hok, hbits⟩ := exec_flush_free hus g.canPut hpart
  rw [g.written, hpad] at hbits
  refine ⟨t, _, issue_append hu (issue_cons ht hok rfl), fun a ha => ?_, hbits⟩
  rcases List.mem_append.mp ha with ha | ha
  · exact List.eq_of_mem_replicate ha
  · exact List.mem_singleton.mp ha

/-! ## Gets -/

/-- A get of a legal put's width on a free reader whose next bits are the put's returns its value (R121, R131). -/
theorem exec_get_free {p : Nat × Word} {s : State} {rest : List Bool} (hp : LegalPut p) (hs : s.Free .reader)
    (hc : s.bs.count.toNat ≤ 7) (hu : s.stream.unread = lowBits p.1 p.2.toNat ++ rest)
    (hr : s.chan.Reliable (getBytes p.1 s.stream)) :
    ∃ t, exec (.bsGetbits p.1) s = .next t ∧ t.resp = some ⟨.ok, p.2⟩ ∧ t.Free .reader ∧ t.stream.unread = rest ∧
      Got p.1 s.stream t.stream := by
  obtain ⟨h1, h31, hv⟩ := hp
  obtain ⟨idle, mode, err, unarmed⟩ := hs
  obtain ⟨u, hexec, g⟩ := exec_bsGetbits_done h1 h31 mode idle hc err (by simp [unarmed]) (by simp [hu]) hr
  have hlim : u.bs.limitEn = false := by rw [g.bs]; exact unarmed
  rw [chargeLimit_unarmed _ hlim, hu, List.take_left' (lowBits_length _ _), bitsNat_lowBits, Nat.mod_eq_of_lt hv,
    BitVec.ofNat_toNat, BitVec.setWidth_eq] at hexec
  refine ⟨_, hexec, rfl, ⟨idle, (congrArg BitStream.mode g.bs).trans mode, (congrArg BitStream.err g.bs).trans err, hlim⟩, ?_, g⟩
  rw [State.answer_stream, State.setStream_stream, g.unread, hu, List.drop_left' (lowBits_length _ _)]

/-- Less than a byte is unread in BUF after a get (R146), and the bytes of a get in two parts. -/
theorem Got.bytes {n : Nat} {t u : Stream} (hc : t.bs.count.toNat ≤ 7) (g : Got n t u) :
    u.bs.count.toNat ≤ 7 ∧ ∀ m, getBytes (n + m) t = getBytes n t + getBytes m u := by
  have hu := g.count
  simp only [getBytes] at *
  exact ⟨by omega, fun m => by omega⟩

/-- A sequence of gets of the widths put returns the values put (R145). -/
theorem issue_gets {l : List (Nat × Word)} {s : State} {rest : List Bool} (hl : ∀ p ∈ l, LegalPut p) (hs : s.Free .reader)
    (hc : s.bs.count.toNat ≤ 7) (hu : s.stream.unread = putsBits l ++ rest)
    (hr : s.chan.Reliable (getBytes (l.map Prod.fst).sum s.stream)) :
    ∃ t, issue (l.map fun p => Instr.bsGetbits p.1) s = some (t, l.map fun p => ⟨.ok, p.2⟩) := by
  induction l generalizing s with
  | nil => exact ⟨s, rfl⟩
  | cons p l ih =>
    rw [List.forall_mem_cons] at hl
    obtain ⟨hp, hl⟩ := hl
    rw [List.map_cons, List.sum_cons] at hr
    rw [putsBits, List.flatMap_cons, List.append_assoc] at hu
    obtain ⟨t, ht, hta, hts, htu, g⟩ := exec_get_free hp hs hc hu
      (s.chan.Reliable_mono (Nat.div_le_div_right (by omega)) hr)
    obtain ⟨htc, hsplit⟩ := g.bytes hc
    rw [hsplit] at hr
    obtain ⟨w, hw⟩ := ih hl hts htc htu fun k hk => (g.draws k).trans (hr _ (by omega))
    exact ⟨w, issue_cons ht hta hw⟩

/-! ## The round trip -/

/-- Settles O28: the puts are one put of all the bits, which the flush pads; the gets split these bits again. -/
theorem getsReturnWhatWasPut : Obligations.GetsReturnWhatWasPut := by
  intro l w r hl hws hrs hwb hrb hpos hout hwr hrr
  have hw : w.Free .writer := ⟨hws, by rw [hwb], by rw [hwb], by rw [hwb]⟩
  have hr : r.Free .reader := ⟨hrs, by rw [hrb], by rw [hrb], by rw [hrb]⟩
  have hw8 : w.stream.bs.count.toNat = 8 := by rw [State.stream_bs, hwb]; rfl
  have hr0 : r.bs.count.toNat = 0 := by rw [hrb]; rfl
  have hcan : w.stream.CanPut := by rw [Stream.CanPut, State.stream_bs, hwb]; decide
  have hempty : w.stream.written = [] := by rw [written_boundary hw8, State.stream_chan, hout]; rfl
  obtain ⟨t, answers, ht, hok, hbits⟩ := issue_puts_flush hl hw hcan hw8 hwr
  rw [hempty, List.nil_append] at hbits
  refine ⟨t, answers, ht, hok, hbits, fun hin => ?_⟩
  have hunread : r.stream.unread = r.chan.input.flatMap byteBits := by
    simp [Stream.unread, hrb, hpos]
  rw [hin, hbits] at hunread
  exact issue_gets hl hr (by omega) hunread (by simp only [getBytes, State.stream_bs, hr0]; exact hrr)

end Sys2Proof.Machine
end

section
/-! The context procedures and CTX_INIT (41_context_model.md R161 to R170): Update's counts in each of its cases, and what a
context that does not adapt makes of the coder's commands. -/

namespace Sys2Proof.Machine

/-! ## Update -/

/-- The counts after Update below the ceiling (R161). -/
theorem update_below {x : Context} (h : x.Wf) (bit : Bool) (ha : x.adapt = true) (hb : x.total.toNat + 1 < x.maxf.toNat) :
    (x.update bit).one.toNat = x.one.toNat + bit.toNat ∧ (x.update bit).total.toNat = x.total.toNat + 1 := by
  rcases update_cases h bit with ⟨hn, -⟩ | ⟨-, h1, h2⟩
  · rw [ha] at hn; cases hn
  · rw [nextCounts_below hb] at h1 h2
    exact ⟨h1, h2⟩

/-- The counts after Update at the ceiling (R162): the halves, rounded up, of the incremented ONE and ZERO. -/
theorem update_ceiling {x : Context} (h : x.Wf) (bit : Bool) (ha : x.adapt = true) (hc : x.maxf.toNat ≤ x.total.toNat + 1) :
    (x.update bit).one.toNat = (x.one.toNat + bit.toNat + 1) / 2 ∧
      (x.update bit).total.toNat = (x.update bit).one.toNat + (x.total.toNat + 1 - (x.one.toNat + bit.toNat) + 1) / 2 := by
  rcases update_cases h bit with ⟨hn, -⟩ | ⟨-, h1, h2⟩
  · rw [ha] at hn; cases hn
  · rw [nextCounts_ceiling hc] at h1 h2
    exact ⟨h1, by rw [h2, h1]; rfl⟩

/-- A context that does not adapt stays as it is (R161). -/
theorem update_fixed {x : Context} (ha : x.adapt = false) (bit : Bool) : x.update bit = x := by
  simp [Context.update, ha]

/-- Settles O31: the two cases of an adaptive context's Update are `update_below` and `update_ceiling`. -/
theorem updateCountsAndRescales : Obligations.UpdateCountsAndRescales := by
  intro x bit h
  refine ⟨x.update_maxf bit, x.update_adapt bit, fun ha => update_fixed ha bit, update_below h bit, fun ha hc => ?_⟩
  obtain ⟨hone, htotal⟩ := update_ceiling h bit ha hc
  omega

/-- Settles O32: a rescale leaves at most half of TOTAL + 1 ≤ MAXF + 1, and 1 for the two roundings. -/
theorem updateKeepsTheContextInvariant : Obligations.UpdateKeepsTheContextInvariant := by
  intro x bit h
  have hkept := h.update bit
  have hceiling := update_ceiling h bit
  obtain ⟨-, -, hlt, hle⟩ := h
  have hmaxf := x.maxf.isLt
  have hbit := bit.toNat_le
  refine ⟨hkept, fun ha hc => ?_, by omega, fun ht => ⟨?_, ?_⟩⟩
  · obtain ⟨hone, htotal⟩ := hceiling ha hc
    have hrest : 2 * (x.update bit).total.toNat ≤ x.maxf.toNat + 3 := by omega
    exact ⟨hrest, fun he => by rw [he] at hrest; omega⟩
  · exact BitVec.eq_of_toNat_eq (y := 65535) (show x.maxf.toNat = 65535 by omega)
  · exact BitVec.eq_of_toNat_eq (y := 65535) (show x.total.toNat = 65535 by omega)

/-! ## A history of symbols -/

/-- While TOTAL stays below the ceiling a history of Updates counts its symbols, and the context goes on adapting (R161). -/
theorem foldl_update {x : Context} (h : x.Wf) (ha : x.adapt = true) {bits : List Bool}
    (hk : x.total.toNat + bits.length < x.maxf.toNat) :
    (bits.foldl Context.update x).Wf ∧ (bits.foldl Context.update x).adapt = true ∧
      (bits.foldl Context.update x).maxf = x.maxf ∧
      (bits.foldl Context.update x).one.toNat = x.one.toNat + bits.count true ∧
      (bits.foldl Context.update x).total.toNat = x.total.toNat + bits.length := by
  induction bits generalizing x with
  | nil => exact ⟨h, ha, rfl, rfl, rfl⟩
  | cons b bits ih =>
    rw [List.length_cons] at hk
    obtain ⟨hone, htotal⟩ := update_below h b ha (by omega)
    obtain ⟨hwf, hadapt, hmaxf, hones, htotals⟩ := ih (h.update b) ((x.update_adapt b).trans ha)
      (by rw [htotal, x.update_maxf]; omega)
    have hcount : (b :: bits).count true = b.toNat + bits.count true := by cases b <;> simp [Nat.add_comm]
    exact ⟨hwf, hadapt, hmaxf.trans (x.update_maxf b), by rw [List.foldl_cons, hones, hone, hcount, Nat.add_assoc],
      by rw [List.foldl_cons, htotals, htotal, List.length_cons]; omega⟩

/-- Settles O33: 65532 Updates take TOTAL from 2 to 65534, one below the ceiling; the next one rescales. -/
theorem countTrajectoryUpToTheFirstRescale : Obligations.CountTrajectoryUpToTheFirstRescale := by
  intro bits
  have hmaxf : Context.reset.maxf.toNat = 65535 := rfl
  have hone : Context.reset.one.toNat = 1 := rfl
  have htotal : Context.reset.total.toNat = 2 := rfl
  have history (hk : bits.length ≤ 65532) :=
    foldl_update Context.wf_reset rfl (bits := bits) (by rw [hmaxf, htotal]; omega)
  refine ⟨fun hk => ?_, fun hk b => ?_⟩
  · obtain ⟨-, -, -, hones, htotals⟩ := history hk
    exact ⟨hones, htotals⟩
  · obtain ⟨hwf, hadapt, hm, hones, htotals⟩ := history hk.le
    obtain ⟨hnext, -⟩ := update_ceiling hwf b hadapt (by rw [hm, htotals, hmaxf, htotal, hk])
    rw [hnext, hones, hone]
    omega

/-! ## CTX_INIT -/

/-- Settles O30: past its two checks CTX_INIT is one write to the context file. -/
theorem ctxInitWritesOneContext : Obligations.CtxInitWritesOneContext := by
  intro c one total maxf adaptive s hc h1 h2 h3 h4
  have hexec : exec (.ctxInit c one total maxf adaptive) s =
      .next ((s.putCtx c ⟨one, total, maxf, adaptive⟩).answer .ok 0) := by
    show execCtxInit c one total maxf adaptive s = _
    rw [execCtxInit, ctxAt_eq, List.getElem?_eq_getElem hc, (countsOk_iff one total maxf).mpr ⟨h1, h2, h3, h4⟩]
    rfl
  exact ⟨_, hexec, rfl, List.getElem?_set_self hc, fun d hd => List.getElem?_set_ne hd.symm, rfl⟩

/-! ## A context that does not adapt -/

/-- What follows a coder's procedure sees only the machine with the procedure's engine. -/
theorem runCoder_congr {α : Type} {p : Engine → Coded α} {s : State} {k m : α → State → Result}
    (h : ∀ a e, k a (s.setEngine e) = m a (s.setEngine e)) : runCoder p s k = runCoder p s m := by
  unfold runCoder
  cases p s.engine with
  | done a e => exact h a e
  | raised x e => rfl
  | overflow => rfl
  | diverges => rfl

/-- Writing back the context that is there changes nothing. -/
theorem putCtx_self {s : State} {c : Nat} {x : Context} (h : s.ctx[c]? = some x) : s.putCtx c x = s := by
  obtain ⟨hc, rfl⟩ := List.getElem?_eq_some_iff.mp h
  rw [State.putCtx, List.set_getElem_self]

/-- No command but CTX_INIT changes a context that does not adapt (R161, R168). -/
theorem exec_keeps_fixed {i : Instr} {s t : State} {c : Nat} {x : Context} (hc : s.ctx[c]? = some x)
    (ha : x.adapt = false) (hi : i.op ≠ .ctxInit) (ht : exec i s = .next t) : t.ctx[c]? = some x := by
  rcases exec_ctx ht with he | ⟨d, one, total, maxf, adaptive, rfl, -⟩ | ⟨d, y, bit, hy, he, -⟩
  · rw [he]; exact hc
  · exact absurd rfl hi
  · rw [he]
    by_cases hd : d = c
    · subst hd
      obtain rfl : x = y := Option.some.inj (hc.symm.trans hy)
      rw [update_fixed ha, List.getElem?_set_self (List.getElem?_eq_some_iff.mp hc).1]
    · rw [List.getElem?_set_ne hd]; exact hc

/-- Settles O46: the counts (1, 2) are the bypass split's, and the Update that follows changes nothing. -/
theorem fixedEvenContextCodesAsBypass : Obligations.FixedEvenContextCodesAsBypass := by
  intro c x s hc ha
  refine ⟨fun i t ht hi => exec_keeps_fixed hc ha hi ht, fun hone htotal => ?_⟩
  have hzero : x.zero = 1 := by rw [x.zero_eq, hone, htotal]; rfl
  have htwo : x.total.toNat = 2 := by rw [htotal]; rfl
  have kept (bit : Bool) (e : Engine) : (s.setEngine e).putCtx c (x.update bit) = s.setEngine e := by
    rw [update_fixed ha]; exact putCtx_self hc
  refine ⟨fun bit => ?_, ?_⟩
  · show execEncRegular c bit s = execEncBypass bit s
    rw [execEncRegular, execEncBypass, ctxAt_eq, hc]
    simp only [hzero, htwo]
    exact congrArg (require _ _ s) (congrArg (unlessFaulted s)
      (runCoder_congr fun _ e => congrArg (ended .ok 0) (kept bit e)))
  · show execDecRegular c s = execDecBypass s
    rw [execDecRegular, execDecBypass, ctxAt_eq, hc]
    simp only [hzero, htwo]
    exact congrArg (require _ _ s) (congrArg (unlessFaulted s)
      (runCoder_congr fun bit e => congrArg (ended .ok (BitVec.ofNat 32 bit.toNat)) (kept bit e)))

end Sys2Proof.Machine
end

section
/-! Commands answered OK, and the two commands of a symbol as one symbol of the coder (42_arith_coder.md R212, R213, R216,
R217): the encoder's and the mirror command split the interval by the same counts, and leave the same contexts. -/

namespace Sys2Proof.Machine

/-! ## Answers OK -/

theorem require_ok {b : Bool} {st : Status} {s t : State} {k : Result} {v : BitVec 32} (hst : st ≠ .ok)
    (ht : require b st s k = .next t) (ok : t.resp = some ⟨.ok, v⟩) : b = true ∧ k = .next t := by
  rcases require_next.mp ht with ⟨-, rfl⟩ | h
  · simp [hst] at ok
  · exact h

theorem unlessFaulted_ok {s t : State} {k : Result} {v : BitVec 32} (ht : unlessFaulted s k = .next t)
    (ok : t.resp = some ⟨.ok, v⟩) : s.bs.err = none ∧ k = .next t := by
  rcases unlessFaulted_next.mp ht with ⟨x, -, rfl⟩ | h
  · simp [x.status_ne] at ok
  · exact h

theorem runCoder_ok {α : Type} {p : Engine → Coded α} {s t : State} {k : α → State → Result} {v : BitVec 32}
    (ht : runCoder p s k = .next t) (ok : t.resp = some ⟨.ok, v⟩) :
    ∃ a e, p s.engine = .done a e ∧ k a (s.setEngine e) = .next t := by
  rcases runCoder_next.mp ht with h | ⟨x, e, -, rfl⟩
  · exact h
  · simp [x.status_ne] at ok

theorem runCoder_done {α : Type} {p : Engine → Coded α} {s : State} {a : α} {e : Engine} (h : p s.engine = .done a e)
    (k : α → State → Result) : runCoder p s k = k a (s.setEngine e) := by
  rw [runCoder, h]

/-- The first of a sequence of commands, then the others. -/
theorem issue_cons_inv {i : Instr} {l : List Instr} {s u : State} {a : Response} {r : List Response}
    (h : issue (i :: l) s = some (u, a :: r)) : ∃ t, exec i s = .next t ∧ t.resp = some a ∧ issue l t = some (u, r) := by
  rw [issue] at h
  split at h
  · next t ht =>
    obtain ⟨⟨w, q⟩, hw, h⟩ := Option.map_eq_some_iff.mp h
    obtain ⟨b, hb, -⟩ := exec_answers i s t ht
    simp only [hb, Option.toList_some, List.singleton_append, Prod.mk.injEq, List.cons.injEq] at h
    obtain ⟨rfl, rfl, rfl⟩ := h
    exact ⟨t, ht, hb, hw⟩
  · cases h
  · cases h

/-- A sequence of one command. -/
theorem issue_singleton_inv {i : Instr} {s u : State} {a : Response} (h : issue [i] s = some (u, [a])) :
    exec i s = .next u ∧ u.resp = some a := by
  obtain ⟨t, ht, ha, hu⟩ := issue_cons_inv h
  cases hu
  exact ⟨ht, ha⟩

/-! ## The counts of a symbol -/

/-- The frequency of symbol 0 and the total that a symbol's split uses (R204): its context's, or 1 and 2 for bypass; none
where it names no context. -/
def Symbol.counts (ctx : List Context) : Symbol → Option (Nat × Nat)
  | .regular c _ => ctx[c]?.map fun y => (y.zero, y.total.toNat)
  | .bypass _ => some (1, 2)

/-- The machine once Update has taken `bit` into the symbol's context (R161); a bypass symbol has none. -/
def State.adapted (s : State) (bit : Bool) : Symbol → State
  | .regular c _ => { s with ctx := s.ctx.modify c fun y => y.update bit }
  | .bypass _ => s

@[simp] theorem State.adapted_engine (s : State) (bit : Bool) (x : Symbol) : (s.adapted bit x).engine = s.engine := by
  cases x <;> rfl

@[simp] theorem State.adapted_ac (s : State) (bit : Bool) (x : Symbol) : (s.adapted bit x).ac = s.ac := by
  cases x <;> rfl

/-- The contexts after Update depend on the contexts before it only. -/
theorem State.adapted_ctx {s t : State} (h : s.ctx = t.ctx) (bit : Bool) (x : Symbol) :
    (s.adapted bit x).ctx = (t.adapted bit x).ctx := by
  cases x with
  | regular c b => exact congrArg (fun ctx => ctx.modify c fun y => y.update bit) h
  | bypass b => exact h

/-- R222(a): on well-formed contexts neither part of a wide interval is narrower than 2^8. -/
theorem Symbol.split_bounds {x : Symbol} {s : State} {r f0 n : Nat} (h : s.CtxInv) (hr : 2 ^ 24 ≤ r)
    (hc : x.counts s.ctx = some (f0, n)) : 2 ^ 8 ≤ split r f0 n ∧ split r f0 n + 2 ^ 8 ≤ r := by
  cases x with
  | regular c b =>
    obtain ⟨y, hy, heq⟩ := Option.map_eq_some_iff.mp hc
    cases heq
    exact split_wf hr (CtxInv.wf h hy)
  | bypass b =>
    cases hc
    exact split_half hr

/-- Writing the updated context back is updating it in its place. -/
theorem putCtx_update {s : State} {c : Nat} {y : Context} (h : s.ctx[c]? = some y) (bit b : Bool) :
    s.putCtx c (y.update bit) = s.adapted bit (.regular c b) := by
  rw [State.putCtx, State.adapted, List.modify_eq_set_getElem?, h]
  rfl

/-- Past its checks the encoder's command is the coding of its symbol, then Update (R212, R213). -/
theorem exec_encodeCmd {x : Symbol} {s : State} {f0 n : Nat} (hs : s.encoding = true) (he : s.bs.err = none)
    (hc : x.counts s.ctx = some (f0, n)) :
    exec x.encodeCmd s = runCoder (encodeSymbol f0 n x.bit) s fun _ t => ended .ok 0 (t.adapted x.bit x) := by
  cases x with
  | regular c b =>
    obtain ⟨y, hy, heq⟩ := Option.map_eq_some_iff.mp hc
    cases heq
    show execEncRegular c b s = _
    rw [execEncRegular, hs, require_true, ctxAt_eq, hy]
    exact (unlessFaulted_none s _ he).trans
      (runCoder_congr fun _ e => congrArg (ended .ok 0) (putCtx_update (s := s.setEngine e) hy b b))
  | bypass b =>
    cases hc
    show execEncBypass b s = _
    rw [execEncBypass, hs, require_true, unlessFaulted_none s _ he]
    rfl

/-- Past its checks the mirror command is the decoding of its symbol, then Update (R216, R217). -/
theorem exec_decodeCmd {x : Symbol} {s : State} {f0 n : Nat} (hs : s.decoding = true) (he : s.bs.err = none)
    (hc : x.counts s.ctx = some (f0, n)) :
    exec x.decodeCmd s =
      runCoder (decodeSymbol f0 n) s fun bit t => ended .ok (BitVec.ofNat 32 bit.toNat) (t.adapted bit x) := by
  cases x with
  | regular c b =>
    obtain ⟨y, hy, heq⟩ := Option.map_eq_some_iff.mp hc
    cases heq
    show execDecRegular c s = _
    rw [execDecRegular, hs, require_true, ctxAt_eq, hy]
    exact (unlessFaulted_none s _ he).trans
      (runCoder_congr fun bit e => congrArg (ended .ok _) (putCtx_update (s := s.setEngine e) hy bit b))
  | bypass b =>
    cases hc
    show execDecBypass s = _
    rw [execDecBypass, hs, require_true, unlessFaulted_none s _ he]
    rfl

/-- A symbol encoded with OK names a context that exists (R248). -/
theorem Symbol.counts_of_ok {x : Symbol} {s t : State} (hs : s.encoding = true) (ht : exec x.encodeCmd s = .next t)
    (ok : t.resp = some ⟨.ok, 0⟩) : ∃ f0 n, x.counts s.ctx = some (f0, n) := by
  cases x with
  | regular c b =>
    cases hc : s.ctx[c]? with
    | none =>
      change execEncRegular c b s = .next t at ht
      rw [execEncRegular, hs, require_true, ctxAt_eq, hc] at ht
      cases ht
      simp at ok
    | some y => exact ⟨_, _, congrArg (Option.map _) hc⟩
  | bypass b => exact ⟨1, 2, rfl⟩

/-! ## One symbol -/

/-- The renormalization steps of a symbol in an interval of width `r` split at `r0` (R223). -/
abbrev symbolSteps (r r0 : Nat) (bit : Bool) : Nat := renormCount (symbolWidth r r0 bit)

/-- A symbol of a running block takes at most two steps (R223). -/
theorem symbolSteps_spec {r r0 : Nat} (h1 : 2 ^ 8 ≤ r0) (h2 : r0 + 2 ^ 8 ≤ r) (bit : Bool) :
    Steps (symbolSteps r r0 bit) (symbolWidth r r0 bit) ∧ symbolSteps r r0 bit ≤ 3 := by
  obtain ⟨hsteps, hk⟩ := renormCount_steps (symbolWidth_bounds h1 h2 bit).1
  exact ⟨hsteps, Nat.le_succ_of_le hk⟩

/-- A running encoder's symbol that is answered OK was encoded (R212, R213). -/
theorem Symbol.encoded {x : Symbol} {s t : State} (h : s.Inv) (hs : s.encoding = true) (ht : exec x.encodeCmd s = .next t)
    (ok : t.resp = some ⟨.ok, 0⟩) :
    ∃ f0 n, x.counts s.ctx = some (f0, n) ∧ t.ctx = (s.adapted x.bit x).ctx ∧ t.encoding = true ∧
      SymbolEncoded (symbolSteps s.ac.range (split s.ac.range f0 n) x.bit) (split s.ac.range f0 n) x.bit s.engine t.engine := by
  obtain ⟨hstate, hrole⟩ := (encoding_iff s).mp hs
  obtain ⟨hcan, -, hr, -⟩ := Inv.canEncode h hstate hrole
  obtain ⟨f0, n, hc⟩ := x.counts_of_ok hs ht ok
  obtain ⟨h1, h2⟩ := Symbol.split_bounds (Inv.ctx h) hr hc
  obtain ⟨hsteps, hk⟩ := symbolSteps_spec h1 h2 x.bit
  rw [exec_encodeCmd hs hcan.err hc] at ht
  obtain ⟨_, e, he, hend⟩ := runCoder_ok ht ok
  rcases encodeSymbol_ends (e := s.engine) (bit := x.bit) hcan (Nat.le_trans (by decide) h1)
    (by simp only [State.engine_ac]; omega) hk hsteps with ⟨e', eq, g⟩ | ⟨y, e', eq, -⟩ | ⟨eq, -⟩ <;> rw [eq] at he <;>
    cases he
  cases hend
  refine ⟨f0, n, hc, State.adapted_ctx (s := s.setEngine e) (t := s) rfl x.bit x, ?_, by simpa using g⟩
  rw [encoding_iff, State.answer_ac, State.adapted_ac, State.setEngine_ac, g.ac]
  exact ⟨hstate, hrole⟩

/-- A running decoder whose offset is in the symbol's part, with its bytes there, decodes the symbol (R216, R217). -/
theorem Symbol.decoded {x : Symbol} {s : State} {f0 n : Nat} (h : s.Inv) (hs : s.decoding = true)
    (hc : x.counts s.ctx = some (f0, n)) (hbit : s.ac.decision (split s.ac.range f0 n) = x.bit)
    (hin : DecoderHasInput s (symbolSteps s.ac.range (split s.ac.range f0 n) x.bit)) :
    ∃ t, exec x.decodeCmd s = .next t ∧ t.resp = some (okWith x.bit.toNat) ∧ t.ctx = (s.adapted x.bit x).ctx ∧
      t.decoding = true ∧
      SymbolDecoded (symbolSteps s.ac.range (split s.ac.range f0 n) x.bit) (split s.ac.range f0 n) x.bit s.engine t.engine := by
  obtain ⟨hstate, hrole⟩ := (decoding_iff s).mp hs
  obtain ⟨hcan, -, hr, -⟩ := Inv.canDecode h hstate hrole
  obtain ⟨h1, h2⟩ := Symbol.split_bounds (Inv.ctx h) hr hc
  obtain ⟨hsteps, hk⟩ := symbolSteps_spec h1 h2 x.bit
  obtain ⟨hlimit, henough, hreliable⟩ := hin
  rcases decodeSymbol_ends (e := s.engine) (f0 := f0) (t := n) hcan (Nat.le_trans (by decide) h1)
    (by simp only [State.engine_ac]; omega) hk (by rw [State.engine_ac, hbit]; exact hsteps) with ⟨e, eq, g⟩ | ⟨y, e, -, g, -⟩
  · rw [State.engine_ac, hbit] at eq g
    refine ⟨_, (exec_decodeCmd hs hcan.err hc).trans (runCoder_done eq _), rfl,
      State.adapted_ctx (s := s.setEngine e) (t := s) rfl x.bit x, ?_, by simpa using g⟩
    rw [decoding_iff, State.answer_ac, State.adapted_ac, State.setEngine_ac, g.ac]
    exact ⟨hstate, hrole⟩
  · exact (g.absurd hlimit henough hreliable).elim

end Sys2Proof.Machine
end

section
/-! The round trip of a block (41_context_model.md R169; 42_arith_coder.md R224 to R229). The encoder's final bits, as a number,
stay inside its interval at every symbol; the mirror decoder's offset is how far they are above its start, so it decides as the
encoder did. -/

namespace Sys2Proof.Machine

/-! ## The end of an encoder's block -/

/-- The block of the encoder `e` ends in the bits `w`, after `k` more renormalization steps and the four bytes of the flush:
as a number they are inside the interval of `e`, at the scale of the end (R224, R228). -/
structure EndsIn (k : Nat) (e : Engine) (w : List Bool) : Prop where
  length : w.length = e.codeBits + 32 + 8 * k
  lower : e.codeValue * 2 ^ (8 * k) ≤ bitsNat w
  upper : bitsNat w < (e.codeValue + e.ac.range) * 2 ^ (8 * k)

/-- ENC_TERMINATE's flush writes the code value itself, four bytes after what was written or held (R210, R214, R224). -/
theorem exec_encTerminate_ok {s t : State} (h : s.Inv) (hs : s.encoding = true) (ht : exec .encTerminate s = .next t)
    (ok : t.resp = some ⟨.ok, 0⟩) :
    t.ctx = s.ctx ∧ t.stream.written.length = s.engine.codeBits + 32 ∧ bitsNat t.stream.written = s.engine.codeValue := by
  obtain ⟨hstate, hrole⟩ := (encoding_iff s).mp hs
  obtain ⟨hcan, -, -, -⟩ := Inv.canEncode h hstate hrole
  obtain ⟨-, ht⟩ := require_ok (by decide) ht ok
  obtain ⟨-, ht⟩ := unlessFaulted_ok ht ok
  obtain ⟨_, e, he, hend⟩ := runCoder_ok ht ok
  rcases encFlush_ends hcan.canPut hcan.err hcan.resolvable with ⟨e', eq, g⟩ | ⟨x, e', eq, -⟩ | ⟨eq, -⟩ <;>
    rw [eq] at he <;> cases he
  cases hend
  obtain ⟨l, hsent⟩ := g.sent
  have hlen := congrArg List.length hsent.written
  rw [List.length_append, hsent.length] at hlen
  refine ⟨rfl, hlen.trans ?_, g.value⟩
  rw [Engine.codeBits, held_length]
  omega

/-- The part of the interval that a symbol selects holds the end of the block (R205, R224). -/
theorem SymbolEncoded.part {j k r0 : Nat} {bit : Bool} {e e' : Engine} {w : List Bool} (g : SymbolEncoded j r0 bit e e')
    (h : EndsIn k e' w) :
    (e.codeValue + symbolBase r0 bit) * 2 ^ (8 * (j + k)) ≤ bitsNat w ∧
      bitsNat w < (e.codeValue + symbolBase r0 bit + symbolWidth e.ac.range r0 bit) * 2 ^ (8 * (j + k)) := by
  have hlower := h.lower
  have hupper := h.upper
  rw [g.range, g.value, ← Nat.add_mul, Nat.mul_assoc, ← pow_add, ← Nat.mul_add] at hupper
  rw [g.value, Nat.mul_assoc, ← pow_add, ← Nat.mul_add] at hlower
  exact ⟨hlower, hupper⟩

/-- The parts of the interval are inside it (R205). -/
theorem symbolBase_add_width {r r0 : Nat} (h : r0 ≤ r) (bit : Bool) : symbolBase r0 bit + symbolWidth r r0 bit ≤ r := by
  cases bit
  · simpa [symbolBase, symbolWidth] using h
  · simp [symbolBase, symbolWidth, h]

/-- Before a symbol the end of the block is its `j` steps further away. -/
theorem SymbolEncoded.endsIn {j k r0 : Nat} {bit : Bool} {e e' : Engine} {w : List Bool} (g : SymbolEncoded j r0 bit e e')
    (h : EndsIn k e' w) (hr : r0 ≤ e.ac.range) : EndsIn (j + k) e w := by
  obtain ⟨hlower, hupper⟩ := g.part h
  refine ⟨?_, ?_, ?_⟩
  · rw [h.length, g.bits]; omega
  · exact (Nat.mul_le_mul_right _ (Nat.le_add_right _ _)).trans hlower
  · refine hupper.trans_le (Nat.mul_le_mul_right _ ?_)
    rw [Nat.add_assoc]
    exact Nat.add_le_add_left (symbolBase_add_width hr bit) _

/-- A running encoder whose remaining commands are all answered OK ends in the bits then written. -/
theorem issue_encode_endsIn {l : List Symbol} {s s' : State} (h : s.Inv) (hs : s.encoding = true)
    (hi : issue (l.map Symbol.encodeCmd ++ [.encTerminate]) s = some (s', List.replicate (l.length + 1) ⟨.ok, 0⟩)) :
    ∃ k, EndsIn k s.engine s'.stream.written := by
  have hr := Inv.wide h ((encoding_iff s).mp hs).1
  induction l generalizing s with
  | nil =>
    obtain ⟨ht, ok⟩ := issue_singleton_inv hi
    obtain ⟨-, hlen, hval⟩ := exec_encTerminate_ok h hs ht ok
    refine ⟨0, hlen, by rw [hval]; simp, ?_⟩
    rw [hval, State.engine_ac]
    simp only [Nat.mul_zero, pow_zero, Nat.mul_one]
    omega
  | cons x l ih =>
    obtain ⟨t, ht, ok, hi⟩ := issue_cons_inv hi
    obtain ⟨f0, n, hc, -, henc, g⟩ := Symbol.encoded h hs ht ok
    have hinv := exec_keeps h _ t ht
    obtain ⟨k, hk⟩ := ih hinv henc hi (Inv.wide hinv ((encoding_iff t).mp henc).1)
    have hle := (Symbol.split_bounds (Inv.ctx h) hr hc).2
    exact ⟨_, g.endsIn hk (Nat.le_trans (Nat.le_add_right _ _) hle)⟩

/-! ## The decoder in step with the encoder -/

/-- The decoder `d` is where the encoder `s` was: the same contexts and width, and its offset says how far above the start of
the interval of `s` the final bits `w` are, down to the bits `q` of them that are still to be read (R224, R225, R226). -/
structure InStep (w q rest : List Bool) (s d : State) : Prop where
  encInv : s.Inv
  encoding : s.encoding = true
  decInv : d.Inv
  decoding : d.decoding = true
  ctx : d.ctx = s.ctx
  range : d.ac.range = s.ac.range
  unarmed : d.bs.limitEn = false
  length : w.length = s.engine.codeBits + 32 + q.length
  value : bitsNat w = (s.engine.codeValue + d.ac.offset) * 2 ^ q.length + bitsNat q
  unread : d.stream.unread = q ++ rest
  reliable : d.chan.Reliable (q.length / 8)

/-- An offset whose value, at the scale `p` of the end, is in the part of `bit` is in that part itself (R216). -/
theorem offset_in_part {a off p r v base width : Nat} (hv : v = (a + off) * p + r) (hr : r < p) (hlower : (a + base) * p ≤ v)
    (hupper : v < (a + base + width) * p) : base ≤ off ∧ off < base + width := by
  have h1 : a + base < a + off + 1 := Nat.lt_of_mul_lt_mul_right (a := p) (by rw [Nat.succ_mul]; omega)
  have h2 : a + off < a + base + width := Nat.lt_of_mul_lt_mul_right (a := p) (by omega)
  omega

/-- The decoder decides for the symbol whose part its offset is in (R216). -/
theorem decision_eq {a : Coder} {r r0 : Nat} {bit : Bool} (h1 : symbolBase r0 bit ≤ a.offset)
    (h2 : a.offset < symbolBase r0 bit + symbolWidth r r0 bit) : a.decision r0 = bit := by
  cases bit with
  | false => simpa [Coder.decision, symbolBase, symbolWidth] using h2
  | true => simpa [Coder.decision, symbolBase] using h1

/-- The bits of a sequence in two parts. -/
theorem bitsNat_split {q : List Bool} {m n : Nat} (h : q.length = m + n) :
    bitsNat q = bitsNat (q.take m) * 2 ^ n + bitsNat (q.drop m) := by
  conv_lhs => rw [← List.take_append_drop m q, bitsNat_append, List.length_drop, h, Nat.add_sub_cancel_left]

/-- The decoder's offset is in the part that the encoder's symbol selects, and the bytes of its steps are still to be read. -/
theorem InStep.inside {w q rest : List Bool} {s d : State} {e : Engine} {bit : Bool} {j k r0 : Nat}
    (h : InStep w q rest s d) (g : SymbolEncoded j r0 bit s.engine e) (hend : EndsIn k e w) :
    q.length = 8 * j + 8 * k ∧ symbolBase r0 bit ≤ d.ac.offset ∧
      d.ac.offset < symbolBase r0 bit + symbolWidth s.ac.range r0 bit := by
  have hq : q.length = 8 * j + 8 * k := by
    have h1 := h.length
    have h2 := hend.length
    rw [g.bits] at h2
    omega
  have hpart := g.part hend
  rw [Nat.mul_add, ← hq] at hpart
  exact ⟨hq, offset_in_part h.value (bitsNat_lt q) hpart.1 hpart.2⟩

/-- The final bits are as far above the encoder's new start as the decoder's new offset says (R224, R225). -/
theorem InStep.value_after {w q rest : List Bool} {s d : State} {e e' : Engine} {bit : Bool} {j k r0 : Nat}
    (h : InStep w q rest s d) (g : SymbolEncoded j r0 bit s.engine e) (g' : SymbolDecoded j r0 bit d.engine e')
    (hq : q.length = 8 * j + 8 * k) (hbase : symbolBase r0 bit ≤ d.ac.offset) :
    bitsNat w = (e.codeValue + e'.ac.offset) * 2 ^ (8 * k) + bitsNat (q.drop (8 * j)) := by
  have hoff := g'.offset
  rw [State.engine_stream, h.unread, List.take_append_of_le_length (by omega), State.engine_ac] at hoff
  obtain ⟨o, ho⟩ : ∃ o, d.ac.offset = symbolBase r0 bit + o := ⟨_, (Nat.add_sub_cancel' hbase).symm⟩
  rw [h.value, g.value, hoff, bitsNat_split hq, hq, pow_add, ho, Nat.add_sub_cancel_left]
  ring

/-- A symbol encoded and its mirror command keep the two in step, and the decoder answers the symbol (R225, R226). -/
theorem InStep.symbol {w q rest : List Bool} {s d t : State} {x : Symbol} {k : Nat} (h : InStep w q rest s d)
    (ht : exec x.encodeCmd s = .next t) (ok : t.resp = some ⟨.ok, 0⟩) (hend : EndsIn k t.engine w) :
    ∃ u q', exec x.decodeCmd d = .next u ∧ u.resp = some (okWith x.bit.toNat) ∧ InStep w q' rest t u := by
  obtain ⟨f0, n, hc, hctx, henc, g⟩ := Symbol.encoded h.encInv h.encoding ht ok
  obtain ⟨hq, hin1, hin2⟩ := h.inside g hend
  rw [← h.ctx] at hc
  rw [← h.range] at g hq hin1 hin2
  have hinput : DecoderHasInput d (symbolSteps d.ac.range (split d.ac.range f0 n) x.bit) := by
    refine ⟨fun hl => ?_, ?_, d.chan.Reliable_mono (by omega) h.reliable⟩
    · rw [h.unarmed] at hl; cases hl
    · rw [h.unread, List.length_append]; omega
  obtain ⟨u, hu, hans, huctx, hdec, g'⟩ := Symbol.decoded h.decInv h.decoding hc (decision_eq hin1 hin2) hinput
  have hvalue := h.value_after g g' hq hin1
  have hread := g'.received
  generalize symbolSteps d.ac.range (split d.ac.range f0 n) x.bit = j at *
  have hleft : (q.drop (8 * j)).length = 8 * k := by rw [List.length_drop, hq, Nat.add_sub_cancel_left]
  refine ⟨u, q.drop (8 * j), hu, hans, exec_keeps h.encInv _ t ht, henc, exec_keeps h.decInv _ u hu, hdec, ?_, ?_, ?_, ?_, ?_,
    ?_, ?_⟩
  · rw [huctx, hctx, State.adapted_ctx h.ctx]
  · refine g'.range.trans (Eq.trans ?_ g.range.symm)
    rw [State.engine_ac, State.engine_ac, h.range]
  · exact hread.limitEn.trans h.unarmed
  · rw [hleft, hend.length]
  · rw [hleft, hvalue, State.engine_ac]
  · rw [← State.engine_stream, hread.unread, State.engine_stream, h.unread, List.drop_append_of_le_length (by omega)]
  · intro i hi
    exact (hread.draws i).trans (h.reliable _ (by omega))

/-- The check of a decoder whose offset is 0 succeeds (R218). -/
theorem exec_decTerminate_ok {d : State} (h : d.Inv) (hs : d.decoding = true) (ho : d.ac.offset = 0) :
    exec .decTerminate d = .next (d.terminate.answer .ok 0) := by
  obtain ⟨hstate, hrole⟩ := (decoding_iff d).mp hs
  obtain ⟨hcan, -⟩ := Inv.canDecode h hstate hrole
  have hcode : d.ac.code = d.ac.low.setWidth 32 := by
    have hz : d.ac.code - d.ac.low.setWidth 32 = 0 := BitVec.eq_of_toNat_eq ho
    exact sub_eq_zero.mp hz
  show execDecTerminate d = _
  rw [execDecTerminate, hs, require_true, unlessFaulted_none d _ hcan.err, if_pos hcode]
  rfl

/-- Where the encoder's block ends the decoder has read all of it, and its offset is 0: the check succeeds (R218, R229). -/
theorem InStep.terminate {q rest : List Bool} {s d t : State} (h : InStep t.stream.written q rest s d)
    (ht : exec .encTerminate s = .next t) (ok : t.resp = some ⟨.ok, 0⟩) :
    exec .decTerminate d = .next (d.terminate.answer .ok 0) ∧ d.stream.unread = rest ∧ d.ctx = t.ctx := by
  obtain ⟨hctx, hlen, hval⟩ := exec_encTerminate_ok h.encInv h.encoding ht ok
  have hq : q = [] := List.eq_nil_of_length_eq_zero (by have := h.length; omega)
  have hvalue := h.value
  rw [hval, hq] at hvalue
  simp only [List.length_nil, pow_zero, Nat.mul_one, bitsNat_nil, Nat.add_zero] at hvalue
  refine ⟨exec_decTerminate_ok h.decInv h.decoding (by omega), ?_, h.ctx.trans hctx.symm⟩
  rw [h.unread, hq, List.nil_append]

/-- From states in step, the mirror commands return the symbols of an encoder answered OK to its end (R226, R229). -/
theorem InStep.issue_decode {l : List Symbol} {q rest : List Bool} {s s' d : State} (h : InStep s'.stream.written q rest s d)
    (hi : issue (l.map Symbol.encodeCmd ++ [.encTerminate]) s = some (s', List.replicate (l.length + 1) ⟨.ok, 0⟩)) :
    ∃ d', issue (l.map Symbol.decodeCmd ++ [.decTerminate]) d =
        some (d', l.map (fun x => okWith x.bit.toNat) ++ [okWith 0]) ∧
      d'.stream.unread = rest ∧ d'.ctx = s'.ctx ∧ d'.ac.state = .terminated := by
  induction l generalizing q s d with
  | nil =>
    obtain ⟨ht, ok⟩ := issue_singleton_inv hi
    obtain ⟨hd, hunread, hctx⟩ := h.terminate ht ok
    exact ⟨_, issue_cons hd rfl rfl, hunread, hctx, rfl⟩
  | cons x l ih =>
    obtain ⟨t, ht, ok, hi⟩ := issue_cons_inv hi
    obtain ⟨f0, n, -, -, henc, -⟩ := Symbol.encoded h.encInv h.encoding ht ok
    obtain ⟨k, hk⟩ := issue_encode_endsIn (exec_keeps h.encInv _ t ht) henc hi
    obtain ⟨u, q', hu, hans, hstep⟩ := h.symbol ht ok hk
    obtain ⟨d', hd', hrest⟩ := ih hstep hi
    exact ⟨d', issue_cons hu hans hd', hrest⟩

/-! ## The start of a block -/

/-- ENC_START answered OK opens the whole interval, with nothing held (R211). -/
theorem exec_encStart_ok {s t : State} (ht : exec .encStart s = .next t) (ok : t.resp = some ⟨.ok, 0⟩) :
    t.ctx = s.ctx ∧ t.encoding = true ∧ t.ac.range = 2 ^ 32 ∧ t.engine.codeBits = s.stream.written.length ∧
      t.engine.codeValue = bitsNat s.stream.written * 2 ^ 32 := by
  obtain ⟨-, ht⟩ := require_ok (by decide) ht ok
  obtain ⟨-, ht⟩ := unlessFaulted_ok ht ok
  cases ht
  refine ⟨rfl, rfl, by simp [Coder.range], ?_, ?_⟩
  · simp [Engine.codeBits, Coder.held, State.stream]
  · simp [codeValue_eq, Engine.heldValue, Coder.held, State.stream]

/-- DEC_START with its four bytes there opens the whole interval, at the offset these bytes are (R215). -/
theorem exec_decStart_ok {s : State} (h : s.Inv) (hs : s.ac.state = .unstarted) (hm : s.bs.mode = .reader)
    (he : s.bs.err = none) (hin : DecoderHasInput s 4) :
    ∃ t, exec .decStart s = .next t ∧ t.resp = some (okWith 0) ∧ t.ctx = s.ctx ∧ t.decoding = true ∧ t.ac.range = 2 ^ 32 ∧
      t.ac.offset = bitsNat (s.stream.unread.take 32) ∧ Received 4 s.stream t.stream := by
  obtain ⟨hlimit, henough, hreliable⟩ := hin
  rcases loadCode_ends 4 (e := s.openDecoder.engine) ((Inv.stream h).count_le hm) he with ⟨e, eq, g⟩ | ⟨x, e, -, g, -⟩
  · have hexec : exec .decStart s = .next ((s.openDecoder.setEngine e).answer .ok 0) := by
      show execDecStart s = _
      rw [execDecStart, (mayStartDec_iff s).mpr ⟨hs, hm⟩, require_true, unlessFaulted_none s _ he]
      exact runCoder_done eq _
    have hlt : bitsNat (s.stream.unread.take 32) < 2 ^ 32 := by
      have hlen := bitsNat_lt (s.stream.unread.take 32)
      rwa [List.length_take, Nat.min_eq_left henough] at hlen
    have hzero : s.openDecoder.engine.ac.code.toNat = 0 := rfl
    have hcode : e.ac.code.toNat = bitsNat (s.stream.unread.take 32) := by
      rw [g.code, hzero, Nat.zero_mul, Nat.zero_add]
      exact Nat.mod_eq_of_lt hlt
    have hlow : e.ac.low = 0 := by rw [g.ac]; rfl
    refine ⟨_, hexec, rfl, rfl, ?_, ?_, ?_, g.received⟩
    · rw [decoding_iff, State.answer_ac, State.setEngine_ac, g.ac]; exact ⟨rfl, rfl⟩
    · rw [State.answer_ac, State.setEngine_ac, g.ac]; exact openDecoder_range s
    · rw [State.answer_ac, State.setEngine_ac, offset_eq, hlow, hcode]
      simpa using hlt
  · exact (g.absurd hlimit henough hreliable).elim

/-- The two START commands put the encoder and its decoder in step, with the block but its first four bytes to read (R226). -/
theorem InStep.start {s t d : State} {block rest : List Bool} (hs : s.Inv) (hd : d.Inv) (hctx : s.ctx = d.ctx)
    (ht : exec .encStart s = .next t) (ok : t.resp = some ⟨.ok, 0⟩) (hlen : 32 ≤ block.length)
    (hunread : d.stream.unread = block ++ rest) (hstate : d.ac.state = .unstarted) (hmode : d.bs.mode = .reader)
    (herr : d.bs.err = none) (hlimit : d.bs.limitEn = false) (hreliable : d.chan.Reliable (block.length / 8)) :
    ∃ u, exec .decStart d = .next u ∧ u.resp = some (okWith 0) ∧
      InStep (s.stream.written ++ block) (block.drop 32) rest t u := by
  obtain ⟨htctx, henc, hrange, hbits, hvalue⟩ := exec_encStart_ok ht ok
  have hinput : DecoderHasInput d 4 := by
    refine ⟨fun hl => ?_, ?_, d.chan.Reliable_mono (by omega) hreliable⟩
    · rw [hlimit] at hl; cases hl
    · rw [hunread, List.length_append]; omega
  obtain ⟨u, hu, hans, huctx, hdec, hurange, hoff, hread⟩ := exec_decStart_ok hd hstate hmode herr hinput
  rw [hunread, List.take_append_of_le_length hlen] at hoff
  refine ⟨u, hu, hans, exec_keeps hs _ t ht, henc, exec_keeps hd _ u hu, hdec, ?_, hurange.trans hrange.symm,
    hread.limitEn.trans hlimit, ?_, ?_, ?_, ?_⟩
  · rw [huctx, htctx, hctx]
  · rw [List.length_append, List.length_drop, hbits]; omega
  · have hlen' : block.length = 32 + (block.length - 32) := by omega
    rw [bitsNat_append, hvalue, hoff, List.length_drop, bitsNat_split hlen', Nat.add_mul, Nat.mul_assoc, ← pow_add, ← hlen']
    ring
  · rw [hread.unread, hunread, List.drop_append_of_le_length hlen]
  · intro i hi
    rw [List.length_drop] at hi
    exact (hread.draws i).trans (hreliable _ (by omega))

/-- Settles O57: the START commands put the two in step, every symbol keeps them so, and the check meets an offset of 0. -/
theorem decodingReturnsTheEncodedSymbols : Obligations.DecodingReturnsTheEncodedSymbols := by
  intro l e e' d block rest he hd hctx hi hw hunread hstate hmode herr hlimit hreliable
  obtain ⟨t, ht, ok, hi⟩ := issue_cons_inv hi
  obtain ⟨-, henc, -, hbits, -⟩ := exec_encStart_ok ht ok
  obtain ⟨k, hk⟩ := issue_encode_endsIn (exec_keeps he _ t ht) henc hi
  have hlen : 32 ≤ block.length := by
    have hl := hk.length
    rw [hw, List.length_append, hbits] at hl
    omega
  obtain ⟨u, hu, hans, hstep⟩ := InStep.start he hd hctx ht ok hlen hunread hstate hmode herr hlimit hreliable
  rw [← hw] at hstep
  obtain ⟨d', hd', hrest⟩ := hstep.issue_decode hi
  exact ⟨d', issue_cons hu hans hd', hrest⟩

end Sys2Proof.Machine
end

section
/-! An encoder's commands where the bytes they write have room (42_arith_coder.md R205 to R214, R223, R224, R228): neither
LIMIT, the channel nor PENDING stops them, so they are answered OK. -/

namespace Sys2Proof.Machine

/-! ## The start of a block -/

/-- The machine whose encoder block has just opened: the whole interval, nothing held, CODE kept (R211). -/
abbrev State.openEncoder (s : State) : State := { s with ac := ⟨.started, .enc, 0, 0xFFFFFFFF, s.ac.code, 0, false, 0⟩ }

/-- ENC_START past its checks (R211). -/
theorem exec_encStart {s : State} (hs : s.ac.state = .unstarted) (hm : s.bs.mode = .writer) (he : s.bs.err = none) :
    exec .encStart s = .next (s.openEncoder.answer .ok 0) := by
  show execEncStart s = _
  rw [execEncStart, (mayStartEnc_iff s).mpr ⟨hs, hm⟩, require_true, unlessFaulted_none s _ he]
  rfl

/-- Settles O35: past its checks ENC_START writes constants, and AC_INIT has no check. -/
theorem initAndEncStartSetTheCoder : Obligations.InitAndEncStartSetTheCoder :=
  fun _ => ⟨rfl, fun hs hm he => exec_encStart hs hm he⟩

/-! ## One symbol -/

/-- A running encoder's symbol with room for its bytes is encoded, then Update runs (R212, R213). -/
theorem Symbol.encodes {x : Symbol} {s : State} {f0 n : Nat} (h : s.Inv) (hs : s.encoding = true)
    (hc : x.counts s.ctx = some (f0, n)) (hroom : EncoderHasRoom s (split s.ac.range f0 n) x.bit) :
    ∃ e, exec x.encodeCmd s = .next (((s.setEngine e).adapted x.bit x).answer .ok 0) ∧
      SymbolEncoded (symbolSteps s.ac.range (split s.ac.range f0 n) x.bit) (split s.ac.range f0 n) x.bit s.engine e := by
  obtain ⟨hstate, hrole⟩ := (encoding_iff s).mp hs
  obtain ⟨hcan, -, hr, -⟩ := Inv.canEncode h hstate hrole
  obtain ⟨h1, h2⟩ := Symbol.split_bounds (Inv.ctx h) hr hc
  obtain ⟨hsteps, hk⟩ := symbolSteps_spec h1 h2 x.bit
  obtain ⟨hlimit, hreliable, hcount⟩ := hroom
  rcases encodeSymbol_ends (e := s.engine) (bit := x.bit) hcan (Nat.le_trans (by decide) h1)
    (by simp only [State.engine_ac]; omega) hk hsteps with ⟨e, eq, g⟩ | ⟨y, e, -, g, -⟩ | ⟨-, g⟩
  · exact ⟨e, (exec_encodeCmd hs hcan.err hc).trans (runCoder_done eq _), g⟩
  · exact (g.absurd hlimit hreliable).elim
  · exact absurd hcount g

/-- The encoding of a symbol, as the statements about the two commands put it (R205 to R208, R223, R224, R228). -/
theorem SymbolEncoded.encodedSymbol {s t : State} {r0 : Nat} {bit : Bool}
    (g : SymbolEncoded (symbolSteps s.ac.range r0 bit) r0 bit s.engine t.engine) (hresp : t.resp = some ⟨.ok, 0⟩)
    (hhost : t.host = s.host) : EncodedSymbol s t r0 bit := by
  have hsent := g.rounds.sent
  have hac := g.rounds.ac
  exact ⟨hresp, g.range, g.low, hsent.written, hsent.grown, (congrArg Coder.cache hac :),
    (congrArg Coder.cacheValid hac :), (congrArg Coder.pending hac :), g.value, g.bits, hsent.limit, hsent.bs, hsent.chan,
    g.ac, hhost⟩

/-- Settles O39: the regular symbol's split is by its context's counts, and Update writes that context. -/
theorem encRegularNarrowsTheInterval : Obligations.EncRegularNarrowsTheInterval := by
  intro c bit s x h hstate hrole hx hroom
  have hc : (Symbol.regular c bit).counts s.ctx = some (x.zero, x.total.toNat) := congrArg (Option.map _) hx
  obtain ⟨e, hexec, g⟩ := Symbol.encodes h ((encoding_iff s).mpr ⟨hstate, hrole⟩) hc hroom
  refine ⟨_, hexec, SymbolEncoded.encodedSymbol (t := State.answer _ _ _) g rfl rfl, ?_⟩
  exact congrArg State.ctx (putCtx_update (s := s.setEngine e) hx bit bit).symm

/-- A bypass symbol's split is the half (R213, R217). -/
theorem split_bypass (r : Nat) : split r 1 2 = r / 2 := by rw [split, Nat.mul_one]

/-- Neither half of a wide interval takes more than one step (R223). -/
theorem symbolSteps_bypass {r : Nat} (hr : 2 ^ 24 ≤ r) (bit : Bool) : symbolSteps r (r / 2) bit ≤ 1 :=
  renormCount_le_one (symbolWidth_bounds (w := 2 ^ 16) (by omega) (by omega) bit).1

/-- Settles O40: the bypass symbol's split is the half, and it has no context. -/
theorem encBypassHalvesTheInterval : Obligations.EncBypassHalvesTheInterval := by
  intro bit s h hstate hrole hroom
  rw [← split_bypass] at hroom
  obtain ⟨e, hexec, g⟩ := Symbol.encodes (x := .bypass bit) h ((encoding_iff s).mpr ⟨hstate, hrole⟩) rfl hroom
  rw [split_bypass] at g
  exact ⟨symbolSteps_bypass (Inv.wide h hstate) bit, _, hexec,
    SymbolEncoded.encodedSymbol (t := State.answer _ _ _) g rfl rfl, rfl⟩

/-! ## The end of a block -/

/-- A command that leaves the contexts and the host's queue moves the coder, the stream, the channel and the response only. -/
theorem State.eq_with {s t : State} {b : BitStream} {ch : Channel} (hctx : t.ctx = s.ctx) (hhost : t.host = s.host)
    (hb : t.bs = b) (hch : t.chan = ch) : t = { s with ac := t.ac, bs := b, chan := ch, resp := t.resp } := by
  rw [← hctx, ← hhost, ← hb, ← hch]

/-- ENC_TERMINATE with room for what is held and four bytes is EncFlush, then TERMINATED (R210, R214). -/
theorem exec_encTerminate_done {s : State} (hs : s.encoding = true) (hp : s.stream.CanPut) (he : s.bs.err = none)
    (hr : s.ac.Resolvable)
    (hl : s.bs.limitEn = true → 8 * (s.ac.cacheValid.toNat + s.ac.pending.toNat + 4) ≤ s.bs.limit.toNat)
    (hd : s.chan.Reliable (s.ac.cacheValid.toNat + s.ac.pending.toNat + 4)) (hk : s.ac.KeepsCount 4) :
    ∃ e, exec .encTerminate s = .next ((s.setEngine e).terminate.answer .ok 0) ∧ Flushed s.engine e := by
  rcases encFlush_ends (e := s.engine) hp he hr with ⟨e, eq, g⟩ | ⟨x, e, -, g, -⟩ | ⟨-, g⟩
  · refine ⟨e, ?_, g⟩
    show execEncTerminate s = _
    rw [execEncTerminate, hs, require_true, unlessFaulted_none s _ he]
    exact runCoder_done eq _
  · exact (g.absurd hl hd).elim
  · exact absurd hk g

/-- Settles O41: EncFlush writes the code value, and STATE is the one register it leaves to ENC_TERMINATE. -/
theorem encTerminateWritesTheCodeValue : Obligations.EncTerminateWritesTheCodeValue := by
  intro s h hstate hrole hl hd hk
  obtain ⟨hcan, -⟩ := Inv.canEncode h hstate hrole
  obtain ⟨e, hexec, g⟩ := exec_encTerminate_done ((encoding_iff s).mpr ⟨hstate, hrole⟩) hcan.canPut hcan.err
    hcan.resolvable hl hd hk
  obtain ⟨l, hsent⟩ := g.sent
  have hac := g.ac
  refine ⟨_, hexec, rfl, g.value, ?_, ?_, ?_, hsent.limit, ?_⟩
  · exact (congrArg List.length hsent.written).trans (by rw [List.length_append, hsent.length]; rfl)
  · exact ⟨l, hsent.written.symm⟩
  · exact congrArg (fun a : Coder => { a with state := .terminated }) hac
  · exact State.eq_with rfl rfl hsent.bs hsent.chan

/-- Settles O42: nothing is held when the block opens and its code value is the bits written before it, so the four bytes of
the flush are 0. -/
theorem emptyBlockIsFourZeroBytes : Obligations.EmptyBlockIsFourZeroBytes := by
  intro s hs hm hwf he hl hd
  obtain ⟨hp, -⟩ := (BitStream.wf_writer hm).mp hwf
  have hstart := exec_encStart hs hm he
  obtain ⟨e, hexec, g⟩ := exec_encTerminate_done (s := s.openEncoder.answer .ok 0) rfl hp he ⟨fun _ => ⟨by simp, rfl⟩, by simp⟩ hl hd
    (Coder.keepsCount_of_lt (by simp))
  obtain ⟨l, hsent⟩ := g.sent
  have hw : e.stream.written = s.stream.written ++ l := hsent.written
  have hlen : l.length = 32 := hsent.length
  obtain ⟨-, -, -, -, hvalue⟩ := exec_encStart_ok hstart rfl
  have hval := g.value.trans hvalue
  rw [hw, bitsNat_append, hlen] at hval
  refine ⟨_, issue_cons hstart rfl (issue_cons hexec rfl rfl), ?_, rfl⟩
  show e.stream.written = _
  rw [hw, bitsNat_inj (l := l) (m := List.replicate 32 false) (by simp [hlen])
    (by rw [bitsNat_replicate_false]; omega)]

end Sys2Proof.Machine
end

section
/-! The budget of an encoder's block (42_arith_coder.md R223, R228, R229; 70_reset_and_hazards.md R281): every command keeps the
room that is left for the commands after it. -/

namespace Sys2Proof.Machine

/-- A running encoder with room for `m` bytes more than it holds back: in the budget, on the channel and in PENDING. -/
structure RoomFor (m : Nat) (s : State) : Prop where
  inv : s.Inv
  encoding : s.encoding = true
  limit : s.bs.limitEn = true → 8 * (s.ac.held.length + m) ≤ s.bs.limit.toNat
  reliable : s.chan.Reliable (s.ac.held.length + m)
  counted : s.ac.held.length + m < 2 ^ 32

/-- A symbol's steps write what was held back and one byte each at most, which is within the room (R206, R228). -/
theorem RoomFor.bytes_le {m k : Nat} {s : State} (h : RoomFor m s) (hk : k ≤ m) (r0 : Nat) (bit : Bool) :
    ((s.ac.atSymbol r0 bit).roundBytes k).length ≤ s.ac.held.length + m ∧ (s.ac.atSymbol r0 bit).KeepsCount k := by
  have hlen := Coder.roundBytes_length k (s.ac.atSymbol r0 bit)
  have hheld := held_length s.ac
  have hcount := h.counted
  refine ⟨?_, Coder.keepsCount_of_lt ?_⟩ <;> simp only at hlen ⊢ <;> omega

/-- Room for a symbol's steps is room for its command. -/
theorem RoomFor.hasRoom {m r0 : Nat} {s : State} {bit : Bool} (h : RoomFor m s) (hk : symbolSteps s.ac.range r0 bit ≤ m) :
    EncoderHasRoom s r0 bit := by
  obtain ⟨hle, hcount⟩ := h.bytes_le hk r0 bit
  exact ⟨fun he => (Nat.mul_le_mul_left 8 hle).trans (h.limit he), s.chan.Reliable_mono hle h.reliable, hcount⟩

/-- A symbol's `k` steps take room for `k` bytes, and what it wrote is what it held and these less what it holds now. -/
theorem RoomFor.after {m k r0 : Nat} {s t : State} {bit : Bool} (h : RoomFor (k + m) s) (ht : t.Inv)
    (henc : t.encoding = true) (g : SymbolEncoded k r0 bit s.engine t.engine) :
    RoomFor m t ∧ ((s.ac.atSymbol r0 bit).roundBytes k).length + t.ac.held.length = s.ac.held.length + k := by
  have hsent := g.rounds.sent
  have hbits := g.bits
  have hlimit := hsent.limit
  have hw := congrArg List.length hsent.written
  have hcount := h.counted
  rw [List.length_append, flatMap_byteBits_length] at hw
  simp only [Engine.codeBits, State.engine_ac, State.engine_stream] at hbits hw
  have hheld : ((s.ac.atSymbol r0 bit).roundBytes k).length + t.ac.held.length = s.ac.held.length + k := by omega
  refine ⟨⟨ht, henc, fun he => ?_, fun j hj => ?_, by omega⟩, hheld⟩
  · have hen : s.bs.limitEn = true := hsent.limitEn.symm.trans he
    have hroom := h.limit hen
    simp only [State.engine_stream, State.stream_bs, State.engine_ac, hen, if_true] at hlimit
    omega
  · refine (hsent.draws j).trans (h.reliable _ ?_)
    simp only [State.engine_ac]
    omega

/-- Less room is there where more is. -/
theorem RoomFor.mono {m n : Nat} {s : State} (h : RoomFor n s) (hm : m ≤ n) : RoomFor m s :=
  ⟨h.inv, h.encoding, fun he => (Nat.mul_le_mul_left 8 (by omega)).trans (h.limit he),
    s.chan.Reliable_mono (by omega) h.reliable, by have hcount := h.counted; omega⟩

/-- A symbol has counts where the context it names exists (R61). -/
theorem Symbol.counts_of_exists {x : Symbol} {ctx : List Context} (h : ∀ c bit, x = .regular c bit → c < ctx.length) :
    ∃ f0 n, x.counts ctx = some (f0, n) := by
  cases x with
  | regular c bit => exact ⟨_, _, congrArg (Option.map _) (List.getElem?_eq_getElem (h c bit rfl))⟩
  | bypass bit => exact ⟨1, 2, rfl⟩

/-- R223: a regular symbol takes two renormalization steps at most, a bypass symbol one. -/
theorem Symbol.steps_le {x : Symbol} {s : State} {r f0 n : Nat} (h : s.CtxInv) (hr : 2 ^ 24 ≤ r)
    (hc : x.counts s.ctx = some (f0, n)) : symbolSteps r (split r f0 n) x.bit ≤ x.maxSteps := by
  cases x with
  | regular c bit =>
    obtain ⟨h1, h2⟩ := Symbol.split_bounds h hr hc
    exact (renormCount_steps (symbolWidth_bounds h1 h2 _).1).2
  | bypass bit =>
    cases hc
    rw [split_bypass]
    exact symbolSteps_bypass hr bit

/-- A symbol with room for its steps is answered OK, leaves the room that was for others, and writes what was held back and its
steps at most (R223, R228). -/
theorem RoomFor.symbol {m : Nat} {x : Symbol} {s : State} (h : RoomFor (x.maxSteps + m) s)
    (hx : ∀ c bit, x = .regular c bit → c < s.ctx.length) :
    ∃ t j bits, exec x.encodeCmd s = .next t ∧ t.resp = some ⟨.ok, 0⟩ ∧ t.ctx.length = s.ctx.length ∧ RoomFor m t ∧
      Sent j bits s.stream t.stream ∧ j + t.ac.held.length ≤ s.ac.held.length + x.maxSteps := by
  obtain ⟨f0, n, hc⟩ := x.counts_of_exists hx
  have hk := Symbol.steps_le (Inv.ctx h.inv) (Inv.wide h.inv ((encoding_iff s).mp h.encoding).1) hc
  obtain ⟨e, ht, -⟩ := Symbol.encodes h.inv h.encoding hc (h.hasRoom (by omega))
  obtain ⟨f0', n', hc', -, henc, g⟩ := Symbol.encoded h.inv h.encoding ht rfl
  cases hc.symm.trans hc'
  obtain ⟨hroom, hheld⟩ := (h.mono (Nat.add_le_add_right hk m)).after (exec_keeps h.inv _ _ ht) henc g
  exact ⟨_, _, _, ht, rfl, (contextsChangeOnlyThroughTheirWriters _ _ _ ht).1, hroom, g.rounds.sent, by
    simp only [State.engine_ac] at hheld ⊢; omega⟩

/-- The flush with room for its four bytes is answered OK and writes these after what was held back (R210, R214). -/
theorem RoomFor.terminate {s : State} (h : RoomFor 4 s) :
    ∃ t block, exec .encTerminate s = .next t ∧ t.resp = some ⟨.ok, 0⟩ ∧ Sent (s.ac.held.length + 4) block s.stream t.stream ∧
      t.ac.state = .terminated := by
  obtain ⟨hstate, hrole⟩ := (encoding_iff s).mp h.encoding
  obtain ⟨hcan, -⟩ := Inv.canEncode h.inv hstate hrole
  have hcount := h.counted
  have hlimit := h.limit
  have hreliable := h.reliable
  rw [held_length] at hcount hlimit hreliable ⊢
  obtain ⟨e, hexec, g⟩ := exec_encTerminate_done h.encoding hcan.canPut hcan.err hcan.resolvable hlimit hreliable
    (Coder.keepsCount_of_lt (by omega))
  obtain ⟨block, hsent⟩ := g.sent
  exact ⟨_, block, hexec, rfl, hsent, rfl⟩

/-- A running encoder with room for the rest of its block: every command is answered OK, and the bytes written are at least the
flush's four and at most what was held back and the room (R223, R228, R229). -/
theorem RoomFor.issue_encode {l : List Symbol} {s : State} (h : RoomFor ((l.map Symbol.maxSteps).sum + 4) s)
    (hctx : ∀ c bit, Symbol.regular c bit ∈ l → c < s.ctx.length) :
    ∃ t block n, issue (l.map Symbol.encodeCmd ++ [.encTerminate]) s = some (t, List.replicate (l.length + 1) ⟨.ok, 0⟩) ∧
      Sent n block s.stream t.stream ∧ 4 ≤ n ∧ n ≤ s.ac.held.length + ((l.map Symbol.maxSteps).sum + 4) ∧
      t.ac.state = .terminated := by
  induction l generalizing s with
  | nil =>
    rw [List.map_nil, List.sum_nil, Nat.zero_add] at h
    obtain ⟨t, block, hexec, hok, hsent, hterm⟩ := h.terminate
    exact ⟨t, block, _, issue_cons hexec hok rfl, hsent, Nat.le_add_left _ _, by simp, hterm⟩
  | cons x l ih =>
    rw [List.map_cons, List.sum_cons, Nat.add_assoc] at h
    obtain ⟨t, j, bits, hexec, hok, hlen, hroom, hsent, hj⟩ :=
      h.symbol fun c bit hx => hctx c bit (hx ▸ List.mem_cons_self)
    obtain ⟨u, block, n, hissue, hrest, h4, hn, hterm⟩ :=
      ih hroom fun c bit hx => hlen ▸ hctx c bit (List.mem_cons_of_mem x hx)
    exact ⟨u, bits ++ block, j + n, issue_cons hexec hok hissue, hsent.trans hrest, by omega, by
      rw [List.map_cons, List.sum_cons]; omega, hterm⟩

/-- Settles O56: the block opens with nothing held, and its budget is the room that its symbols' steps and the flush need. -/
theorem encoderBlockFitsTheStatedBudget : Obligations.EncoderBlockFitsTheStatedBudget := by
  intro l s h hstate hm he hctx hcount hlimit hreliable
  have hstart := exec_encStart hstate hm he
  rw [Nat.add_comm 4] at hcount hlimit hreliable ⊢
  have hroom : RoomFor ((l.map Symbol.maxSteps).sum + 4) (s.openEncoder.answer .ok 0) := by
    refine ⟨exec_keeps h _ _ hstart, rfl, ?_, ?_, ?_⟩ <;> simpa [Coder.held]
  obtain ⟨t, block, n, hissue, hsent, h4, hn, hterm⟩ := hroom.issue_encode hctx
  exact ⟨t, block, n, issue_cons hstart rfl hissue, hsent.written, hsent.length, h4, by simpa [Coder.held] using hn, hterm⟩

end Sys2Proof.Machine
end

section
/-! A decoder's commands (42_arith_coder.md R215 to R218, R225, R228), and the widths a split leaves (R204, R222). -/

namespace Sys2Proof.Machine

/-! ## The split -/

/-- Division floors (R204). -/
theorem split_floor {t : Nat} (ht : 0 < t) (r f0 : Nat) :
    split r f0 t * t ≤ r * f0 ∧ r * f0 < (split r f0 t + 1) * t :=
  ⟨Nat.div_mul_le_self _ _, Nat.lt_mul_of_div_lt (Nat.lt_succ_self _) ht⟩

/-- Symbol 1's part of a wide interval: at least R / TOTAL wide, which is more than 256 since TOTAL is below 2^16 (R222(a)). -/
theorem split_upper {r : Nat} {x : Context} (hr : 2 ^ 24 ≤ r) (hx : x.Wf) : split r x.zero x.total.toNat + 257 ≤ r := by
  obtain ⟨hpos, hlt, ht⟩ := hx.zero_pos
  obtain ⟨hfloor, -⟩ := split_floor (Nat.lt_of_lt_of_le hpos hlt.le) r x.zero
  generalize split r x.zero x.total.toNat = q at *
  generalize x.total.toNat = t at *
  have hpart : r * x.zero + r ≤ r * t := by rw [← Nat.mul_succ]; exact Nat.mul_le_mul_left r hlt
  by_contra hnarrow
  have hwhole : r * t ≤ (q + 256) * t := Nat.mul_le_mul_right t (by omega)
  rw [Nat.add_mul] at hwhole
  omega

/-- Settles O38: the floor's two inequalities, the widths of the parts of a context's split, and the two halves. -/
theorem splitLeavesNoNarrowSubInterval : Obligations.SplitLeavesNoNarrowSubInterval := by
  intro r x hr hx
  obtain ⟨hpos, hlt, -⟩ := hx.zero_pos
  obtain ⟨hle, hlt'⟩ := split_floor (Nat.lt_of_lt_of_le hpos hlt.le) r x.zero
  refine ⟨⟨(split_wf hr hx).1, split_upper hr hx, hle, hlt'⟩, ?_⟩
  rw [split_bypass]
  omega

/-! ## The start of a block -/

/-- DEC_START past its checks loads CODE (R215). -/
theorem exec_decStart {s : State} (hs : s.ac.state = .unstarted) (hm : s.bs.mode = .reader) (he : s.bs.err = none) :
    exec .decStart s = runCoder (loadCode 4) s.openDecoder fun _ t => ended .ok 0 t := by
  show execDecStart s = _
  rw [execDecStart, (mayStartDec_iff s).mpr ⟨hs, hm⟩, require_true, unlessFaulted_none s _ he]

/-- A coder procedure that raises fails the block (R202 case 2). -/
theorem runCoder_raised {α : Type} {p : Engine → Coded α} {s : State} {x : StreamErr} {e : Engine}
    (h : p s.engine = .raised x e) (k : α → State → Result) :
    runCoder p s k = .next ((s.setEngine e).failed.answer x.status 0) := by
  rw [runCoder, h]; rfl

/-- Settles O36: CODE starts at 0, so the four bytes loaded are all of it. -/
theorem decStartLoadsTheCodeWindow : Obligations.DecStartLoadsTheCodeWindow := by
  intro s hs hm hwf he hl hn hd
  obtain ⟨hc, -⟩ := (BitStream.wf_reader hm).mp hwf
  rw [exec_decStart hs hm he]
  rcases loadCode_ends 4 (e := s.openDecoder.engine) hc he with ⟨e, eq, g⟩ | ⟨x, e, -, g, -⟩
  · have hread := g.received
    have hcode : e.ac.code = BitVec.ofNat 32 (bitsNat (s.stream.unread.take 32)) := by
      have hzero : s.openDecoder.engine.ac.code.toNat = 0 := rfl
      apply BitVec.eq_of_toNat_eq
      rw [g.code, hzero, Nat.zero_mul, Nat.zero_add, BitVec.toNat_ofNat]
      rfl
    refine ⟨_, runCoder_done eq _, rfl, ?_, hread.unread, hread.inpos, hread.count, hread.limit,
      State.eq_with rfl rfl hread.bs hread.chan⟩
    rw [← hcode]
    exact g.ac
  · exact (g.absurd hl hn hd).elim

/-- Settles O37: with no limit armed and no failing draw, loading CODE can only run out of input. -/
theorem decStartOnTruncatedInputFails : Obligations.DecStartOnTruncatedInputFails := by
  intro s hs hm hwf _ he hl hn hd
  obtain ⟨hc, -⟩ := (BitStream.wf_reader hm).mp hwf
  rw [exec_decStart hs hm he]
  rcases loadCode_ends 4 (e := s.openDecoder.engine) hc he with ⟨e, -, g⟩ | ⟨x, e, eq, g, hac⟩
  · have henough : 32 ≤ s.stream.unread.length := g.received.enough
    omega
  · rw [runCoder_raised eq]
    have herr : e.stream.bs.err = some x := congrArg BitStream.err g.bs
    cases x with
    | ioExhausted => exact ⟨_, rfl, rfl, rfl, congrArg Coder.role hac, herr, rfl⟩
    | ioFailure =>
      obtain ⟨j, hj, hf⟩ := g.failed rfl
      cases (hd j hj).symm.trans hf
    | limitExceeded => cases hl.symm.trans (g.short rfl).1

/-! ## One symbol -/

/-- The decoding of a symbol, as the statements about the two commands put it (R205, R209, R216, R225, R228). -/
theorem SymbolDecoded.decodedSymbol {s t : State} {r0 : Nat}
    (g : SymbolDecoded (symbolSteps s.ac.range r0 (s.ac.decision r0)) r0 (s.ac.decision r0) s.engine t.engine)
    (hresp : t.resp = some (okWith (s.ac.decision r0).toNat)) (hhost : t.host = s.host) : DecodedSymbol s t r0 := by
  have hread := g.received
  exact ⟨hresp, g.range, g.low, g.offset, hread.unread, hread.inpos, hread.count, hread.limit, hread.bs, hread.chan, g.ac,
    hhost⟩

/-- Settles O43: the regular symbol's split is by its context's counts, and Update writes the decided bit to that context. -/
theorem decRegularRecoversABit : Obligations.DecRegularRecoversABit := by
  intro c s x h hstate hrole hx hin
  have hc (bit : Bool) : (Symbol.regular c bit).counts s.ctx = some (x.zero, x.total.toNat) := congrArg (Option.map _) hx
  obtain ⟨t, ht, hresp, hctx, -, g⟩ := Symbol.decoded h ((decoding_iff s).mpr ⟨hstate, hrole⟩) (hc _) rfl hin
  refine ⟨t, ht, g.decodedSymbol hresp (exec_groups ht).host, hctx.trans ?_⟩
  exact congrArg State.ctx (putCtx_update hx _ _).symm

/-- Settles O44: the bypass symbol's split is the half, and it has no context. -/
theorem decBypassRecoversABit : Obligations.DecBypassRecoversABit := by
  intro s h hstate hrole hin
  refine ⟨symbolSteps_bypass (Inv.wide h hstate) _, ?_⟩
  rw [← split_bypass] at hin ⊢
  obtain ⟨t, ht, hresp, hctx, -, g⟩ :=
    Symbol.decoded (x := .bypass _) h ((decoding_iff s).mpr ⟨hstate, hrole⟩) rfl rfl hin
  exact ⟨t, ht, g.decodedSymbol hresp (exec_groups ht).host, hctx⟩

/-! ## The end of a block -/

/-- The window is the start of the interval: CODE = LOW[31:0] (R218). -/
theorem code_eq_low_iff (a : Coder) : a.code = a.low.setWidth 32 ↔ a.code.toNat = a.low.toNat % 2 ^ 32 := by
  rw [← BitVec.toNat_inj, BitVec.toNat_setWidth]

/-- Settles O45: past its checks DEC_TERMINATE is the comparison of CODE with LOW[31:0]. -/
theorem decTerminateChecksTheWindow : Obligations.DecTerminateChecksTheWindow := by
  intro s hstate hrole he
  rw [ne_eq, ← code_eq_low_iff]
  show (_ → execDecTerminate s = _) ∧ (_ → execDecTerminate s = _)
  rw [execDecTerminate, (decoding_iff s).mpr ⟨hstate, hrole⟩, require_true, unlessFaulted_none s _ he]
  exact ⟨fun hc => if_pos hc, fun hc => if_neg hc⟩

end Sys2Proof.Machine
end

section
/-! EmitTop on an unfaulted writer, case by case (42_arith_coder.md R206). -/

namespace Sys2Proof.Machine

/-- LOW[32] as the byte that EmitTop adds. -/
theorem carryByte_eq (a : Coder) : a.carryByte = if a.low.getLsbD 32 then 1 else 0 := by
  apply BitVec.eq_of_toNat_eq
  rw [carryByte_toNat, carry_bit]
  cases a.low.getLsbD 32 <;> rfl

/-- The carry is resolved where LOW[32] is set or LOW[31:24] is not 0xFF. -/
theorem resolved_of_bits {a : Coder} (h : a.low.getLsbD 32 = true ∨ a.low.extractLsb' 24 8 ≠ 0xFF) :
    a.carry = 1 ∨ a.topByte ≠ 255 := by
  rw [carry_bit]
  exact h.imp (fun hc => by rw [hc]; rfl) fun ht => fun h255 => ht ((top_bits a).mpr h255)

/-- CACHE and the held bytes as they are released: with the carry added modulo 256. -/
theorem Coder.released_bits {a : Coder} (hv : a.cacheValid = true) (hb : a.holdsBack = false) :
    a.released = (if a.low.getLsbD 32 then a.cache + 1 else a.cache) ::
      List.replicate a.pending.toNat (if a.low.getLsbD 32 then 0x00 else 0xFF) := by
  rw [Coder.released, hv, hb, carryByte_eq]
  cases a.low.getLsbD 32
  · simp
  · rfl

/-- With CACHE empty LOW's top byte goes there. -/
theorem emitTop_first {e : Engine} (hv : e.ac.cacheValid = false) :
    emitTop e = .done () { e with
      ac := { e.ac with cache := e.ac.low.extractLsb' 24 8, cacheValid := true, pending := 0 } } := by
  rw [← topByte_bits]
  exact if_pos hv

/-- A byte held back is counted, or refused past the width of PENDING (X3; log entry 8). -/
theorem emitTop_held {e : Engine} (hb : e.ac.holdsBack = true) :
    emitTop e = if e.ac.pending.toNat + 1 < 2 ^ 32 then
      .done () { e with ac := { e.ac with pending := BitVec.ofNat 32 (e.ac.pending.toNat + 1) } } else .overflow := by
  obtain ⟨hv, hc, ht⟩ := (holdsBack_iff e.ac).mp hb
  have hp : BitVec.ofNat 32 (e.ac.pending.toNat + 1) = e.ac.pending + 1 := by rw [BitVec.ofNat_add, BitVec.ofNat_toNat]; simp
  rw [hp]
  exact (if_neg (by simp [hv])).trans (if_neg (by omega))

/-- With room for them CACHE and the held bytes are written. -/
theorem emitTop_resolved {e : Engine} (hp : e.stream.CanPut) (he : e.stream.bs.err = none) (hv : e.ac.cacheValid = true)
    (hs : e.ac.carry = 1 ∨ e.ac.topByte ≠ 255)
    (hl : e.stream.bs.limitEn = true → 8 * (1 + e.ac.pending.toNat) ≤ e.stream.bs.limit.toNat)
    (hd : e.stream.chan.Reliable (1 + e.ac.pending.toNat)) :
    ∃ u, emitTop e = .done () ⟨{ e.ac with cache := e.ac.low.extractLsb' 24 8, pending := 0 }, u⟩ ∧
      Sent (1 + e.ac.pending.toNat) (e.ac.released.flatMap byteBits) e.stream u := by
  obtain ⟨hb, hrel, hac⟩ := Coder.emit_resolved hv hs
  have hlen : e.ac.released.length = 1 + e.ac.pending.toNat := by
    rw [hrel, List.length_cons, List.length_replicate, Nat.add_comm]
  rcases emitTop_ends hp he with ⟨e', eq, g⟩ | ⟨x, u, -, g⟩ | ⟨-, hb', -⟩
  · refine ⟨e'.stream, ?_, hlen ▸ g.sent⟩
    rw [eq, ← topByte_bits, ← hac, ← g.ac]
  · rw [hlen] at g
    exact (g.absurd hl hd).elim
  · cases hb.symm.trans hb'

/-- Settles O58: CACHE is empty, or the byte is held back, or CACHE and the held bytes are released. -/
theorem emitTopResolvesTheCarry : Obligations.EmitTopResolvesTheCarry := by
  intro e hm hwf he
  obtain ⟨hp, -⟩ := (BitStream.wf_writer hm).mp hwf
  refine ⟨emitTop_first, fun hv hc ht => ?_, fun hv hbits hl hd => ?_⟩
  · have hb : e.ac.holdsBack = true := by
      rw [holdsBack_iff, carry_bit, hc, ← top_bits]
      exact ⟨hv, rfl, ht⟩
    rw [emitTop_held hb]
    exact ⟨fun hlt => if_pos hlt, fun hge => if_neg (Nat.not_lt.mpr hge)⟩
  · have hs := resolved_of_bits hbits
    obtain ⟨u, eq, g⟩ := emitTop_resolved hp he hv hs hl hd
    rw [Coder.released_bits hv (Coder.emit_resolved hv hs).1] at g
    refine ⟨u, eq, g.written, g.grown, g.limit, ?_, g.chan⟩
    have hbs := g.bs
    rw [g.count] at hbs
    exact hbs

end Sys2Proof.Machine
end

section
/-! The block's state machine (42_arith_coder.md R201, R202, R231; 60_exceptions.md R245, R252), from the ends a command has. -/

namespace Sys2Proof.Machine

/-! ## An abandoned block -/

/-- A Bit Stream command does not fail the block (R202). -/
theorem not_failsBlock_of_ofStream {i : Instr} (h : ofStream i = true) : failsBlock i = false := by
  cases hf : failsBlock i with
  | false => rfl
  | true => cases (not_ofStream_of_ofCoder (ofCoder_of_failsBlock hf)).symm.trans h

theorem not_failsBlock_of_ofContexts {i : Instr} (h : ofContexts i = true) : failsBlock i = false := by
  cases hf : failsBlock i with
  | false => rfl
  | true => cases (not_ofContexts_of_ofCoder (ofCoder_of_failsBlock hf)).symm.trans h

/-- Nor does a command that returns a stored error and changes nothing (R247 step 4). -/
theorem not_failsBlock_of_returnsErr {i : Instr} (h : returnsErr i = true) : failsBlock i = false := by
  revert h
  cases i <;> simp [returnsErr, failsBlock, ofEncoder, ofDecoder, Instr.op]

/-- What a coder command that ended with the status `st`, an error, leaves of the block (R202, R252). -/
abbrev Abandoned (i : Instr) (s t : State) (st : Status) : Prop :=
  t.ac.state = .failed ∧ t.ctx = s.ctx ∧ t.bs.mode = s.bs.mode ∧ t.host = s.host ∧
    (st = .decodeFailure → i = .decTerminate ∧ t.bs = s.bs ∧ t.chan = s.chan) ∧
    (st ≠ .decodeFailure → ∃ x, t.bs.err = some x ∧ x.status = st)

/-- A stream error fails the block, whose stream keeps its binding and holds the error (R202). -/
theorem abandoned_of_streamErr {i : Instr} {s u : State} {x : StreamErr} (hctx : u.ctx = s.ctx)
    (hmode : u.bs.mode = s.bs.mode) (hhost : u.host = s.host) (herr : u.bs.err = some x) :
    Abandoned i s (u.failed.answer x.status 0) x.status := by
  obtain ⟨-, -, -, -, hne⟩ := x.status_ne
  exact ⟨rfl, hctx, hmode, hhost, fun hd => absurd hd hne, fun _ => ⟨x, herr, rfl⟩⟩

/-- Settles O47: the ends with an error are a stored one, a stream error on the way, and DEC_TERMINATE's mismatch. -/
theorem coderErrorAbandonsTheBlock : Obligations.CoderErrorAbandonsTheBlock := by
  intro i s t r hi ht hr hst
  have of_ok {v : BitVec 32} (ok : some (⟨.ok, v⟩ : Response) = some r) : Abandoned i s t r.status := by
    cases ok; simp at hst
  show Abandoned i s t r.status
  cases exec_ends ht with
  | rejected h =>
    cases hr
    rcases h with rfl | rfl <;> simp at hst
  | sticky h hret => cases (not_failsBlock_of_returnsErr hret).symm.trans hi
  | bs hstream => cases (not_failsBlock_of_ofStream hstream).symm.trans hi
  | faulted h => cases hr; exact abandoned_of_streamErr (u := s) rfl rfl rfl h
  | encFailed _ _ _ h herr | decStartFailed _ _ _ h herr | decFailed _ _ _ h herr =>
    cases hr; exact abandoned_of_streamErr rfl h.stream.mode rfl herr
  | decMismatched heq => cases hr; exact ⟨rfl, rfl, rfl, rfl, fun _ => ⟨heq, rfl, rfl⟩, fun h => absurd rfl h⟩
  | ctxWritten | ctxRead | coderRead | init | encStarted | encSymbol | encBypassed | encTerminated | decStarted
  | decSymbol | decBypassed | decTerminated => exact of_ok hr

/-! ## A closed block -/

/-- A coder command whose state check fails is refused (R249). -/
theorem exec_failsBlock_badState {i : Instr} {s : State} (hi : failsBlock i = true) (hb : BadStateWhen i s) :
    exec i s = .next (s.answer .badState 0) := by
  have refused {b : Bool} (hb : ¬ b = true) (k : Result) : require b .badState s k = .next (s.answer .badState 0) := by
    rw [Bool.not_eq_true] at hb; rw [hb]; rfl
  cases i with
  | encStart => exact refused (by rw [mayStartEnc_iff]; simp only [BadStateWhen] at hb; tauto) _
  | decStart => exact refused (by rw [mayStartDec_iff]; simp only [BadStateWhen] at hb; tauto) _
  | encRegular | encBypass | encTerminate =>
    exact refused (by rw [encoding_iff]; simp only [BadStateWhen] at hb; tauto) _
  | decRegular | decBypass | decTerminate =>
    exact refused (by rw [decoding_iff]; simp only [BadStateWhen] at hb; tauto) _
  | _ => cases hi

/-- The commands of a block need it UNSTARTED or STARTED (R249). -/
theorem badStateWhen_of_closed {i : Instr} {s : State} (hi : failsBlock i = true)
    (hs : s.ac.state = .terminated ∨ s.ac.state = .failed) : BadStateWhen i s := by
  have hne : s.ac.state ≠ .unstarted ∧ s.ac.state ≠ .started := by rcases hs with h | h <;> rw [h] <;> decide
  cases i with
  | encStart | decStart => exact .inl hne.1
  | encRegular | encBypass | encTerminate | decRegular | decBypass | decTerminate => exact .inl hne.2
  | _ => cases hi

/-- Of the commands that are no part of a block only AC_INIT writes a coder register (R219, R220). -/
theorem exec_keeps_coder {i : Instr} {s t : State} (hi : failsBlock i = false) (hne : i ≠ .acInit) (ht : exec i s = .next t) :
    t.ac = s.ac := by
  cases exec_ends ht with
  | bs _ _ hac => exact hac
  | init heq => exact absurd heq hne
  | rejected | sticky | ctxWritten | ctxRead | coderRead => rfl
  | faulted _ hf => cases hi.symm.trans hf
  | encFailed hop | decFailed hop =>
    obtain ⟨henc, hdec⟩ : ofEncoder i = false ∧ ofDecoder i = false := by simpa [failsBlock] using hi
    simp [ofEncoder, ofDecoder] at hop henc hdec
    tauto
  | encStarted heq | encSymbol heq | encBypassed heq | encTerminated heq | decStarted heq | decStartFailed heq
  | decSymbol heq | decBypassed heq | decTerminated heq | decMismatched heq => subst heq; cases hi

/-- Settles O49: a closed block refuses its commands, and of the others only AC_INIT writes the coder. -/
theorem closedBlockStaysClosedUntilInit : Obligations.ClosedBlockStaysClosedUntilInit := by
  intro i s hs
  have refused (hi : failsBlock i = true) := exec_failsBlock_badState hi (badStateWhen_of_closed hi hs)
  refine ⟨refused, fun hne t ht => ?_⟩
  cases hi : failsBlock i with
  | false => exact exec_keeps_coder hi hne ht
  | true =>
    rw [refused hi] at ht
    cases ht; rfl

/-! ## The state table -/

/-- The rows of R201's table for a coder command that meets a stored stream error: the START commands', then those of a
STARTED block (R202 case 1). -/
theorem legal_when_faulted {i : Instr} {s : State} (hi : failsBlock i = true) (hb : ¬ BadStateWhen i s) :
    (i = .encStart ∧ s.ac.state = .unstarted ∧ s.bs.mode = .writer) ∨
      (i = .decStart ∧ s.ac.state = .unstarted ∧ s.bs.mode = .reader) ∨
      (s.ac.state = .started ∧ ((s.ac.role = .enc ∧ i.op ∈ [Op.encRegular, .encBypass, .encTerminate]) ∨
        (s.ac.role = .dec ∧ i.op ∈ [Op.decRegular, .decBypass, .decTerminate]))) := by
  cases i with
  | encStart => exact .inl ⟨rfl, by simpa [BadStateWhen] using hb⟩
  | decStart => exact .inr (.inl ⟨rfl, by simpa [BadStateWhen] using hb⟩)
  | encRegular | encBypass | encTerminate =>
    obtain ⟨hs, hr⟩ : s.ac.state = .started ∧ s.ac.role = .enc := by simpa [BadStateWhen] using hb
    exact .inr (.inr ⟨hs, .inl ⟨hr, by simp [Instr.op]⟩⟩)
  | decRegular | decBypass | decTerminate =>
    obtain ⟨hs, hr⟩ : s.ac.state = .started ∧ s.ac.role = .dec := by simpa [BadStateWhen] using hb
    exact .inr (.inr ⟨hs, .inr ⟨hr, by simp [Instr.op]⟩⟩)
  | _ => cases hi

/-- Settles O48: each end of a command is in one row; the START commands' rows are the second and third, those of a STARTED
block the fourth to sixth. -/
theorem blockStateFollowsTheTable : Obligations.BlockStateFollowsTheTable := by
  intro i s t ht
  have apart (hf : failsBlock i = false) (hne : i ≠ .acInit) (hac : t.ac = s.ac) :
      failsBlock i = false ∧ i ≠ .acInit ∧ t.ac.state = s.ac.state ∧ t.ac.role = s.ac.role := by
    rw [hac]; exact ⟨hf, hne, rfl, rfl⟩
  have of_err {x : StreamErr} {o : Option StreamErr} (h : o = some x) : o ≠ none := by simp [h]
  cases exec_ends ht with
  | init hi => exact .inl ⟨hi, rfl, rfl⟩
  | encStarted hi hs hm he => exact .inr (.inl ⟨hi, hs, hm, .inl ⟨he, he, rfl, rfl⟩⟩)
  | decStarted hi hs he h hx =>
    obtain ⟨hs, hm⟩ := (mayStartDec_iff s).mp hs
    exact .inr (.inr (.inl ⟨hi, hs, hm, .inl ⟨he, hx, h.state, h.role⟩⟩))
  | decStartFailed hi hs he h hx =>
    obtain ⟨hs, hm⟩ := (mayStartDec_iff s).mp hs
    exact .inr (.inr (.inl ⟨hi, hs, hm, .inr (.inl ⟨he, of_err hx, rfl, h.role⟩)⟩))
  | encSymbol hi hs he _ h hx | encBypassed hi hs he h hx =>
    obtain ⟨hs, hr⟩ := (encoding_iff s).mp hs
    have hop : i.op ∈ [Op.encRegular, .encBypass] := by rw [hi]; simp [Instr.op]
    exact .inr (.inr (.inr (.inl ⟨hs, hr, he, hx, h.role.trans hr, .inl ⟨hop, h.state.trans hs⟩⟩)))
  | encTerminated hi hs he h hx =>
    obtain ⟨hs, hr⟩ := (encoding_iff s).mp hs
    exact .inr (.inr (.inr (.inl ⟨hs, hr, he, hx, h.role.trans hr, .inr ⟨hi, rfl⟩⟩)))
  | decSymbol hi hs he _ h hx | decBypassed hi hs he h hx =>
    obtain ⟨hs, hr⟩ := (decoding_iff s).mp hs
    have hop : i.op ∈ [Op.decRegular, .decBypass] := by rw [hi]; simp [Instr.op]
    exact .inr (.inr (.inr (.inr (.inl ⟨hs, hr, he, hx, h.role.trans hr, .inl ⟨hop, h.state.trans hs⟩⟩))))
  | decTerminated hi hs he hc =>
    obtain ⟨hs, hr⟩ := (decoding_iff s).mp hs
    exact .inr (.inr (.inr (.inr (.inl ⟨hs, hr, he, he, hr, .inr (.inl ⟨hi, (code_eq_low_iff s.ac).mp hc, rfl⟩)⟩))))
  | decMismatched hi hs he hc =>
    obtain ⟨hs, hr⟩ := (decoding_iff s).mp hs
    rw [ne_eq, code_eq_low_iff] at hc
    exact .inr (.inr (.inr (.inr (.inl ⟨hs, hr, he, he, hr, .inr (.inr ⟨hi, hc, rfl⟩)⟩))))
  | encFailed hop hs _ h hx =>
    obtain ⟨hs, hr⟩ := (encoding_iff s).mp hs
    exact .inr (.inr (.inr (.inr (.inr (.inl ⟨hs, .inr (of_err hx), rfl, h.role, .inl ⟨hr, hop⟩⟩)))))
  | decFailed hop hs _ h hx =>
    obtain ⟨hs, hr⟩ := (decoding_iff s).mp hs
    have hop' : i.op ∈ [Op.decRegular, .decBypass, .decTerminate] := List.mem_append_left [Op.decTerminate] hop
    exact .inr (.inr (.inr (.inr (.inr (.inl ⟨hs, .inr (of_err hx), rfl, h.role, .inr ⟨hr, hop'⟩⟩)))))
  | faulted hx hi hb =>
    have he := of_err hx
    rcases legal_when_faulted hi hb with ⟨heq, hs, hm⟩ | ⟨heq, hs, hm⟩ | ⟨hs, hrole⟩
    · exact .inr (.inl ⟨heq, hs, hm, .inr ⟨he, rfl, rfl⟩⟩)
    · exact .inr (.inr (.inl ⟨heq, hs, hm, .inr (.inr ⟨he, rfl, rfl⟩)⟩))
    · exact .inr (.inr (.inr (.inr (.inr (.inl ⟨hs, .inl he, rfl, rfl, hrole⟩)))))
  | rejected h =>
    iterate 6 right
    left
    rcases h with rfl | rfl
    · exact .inl rfl
    · exact .inr rfl
  | sticky _ hi =>
    iterate 7 right
    exact apart (not_failsBlock_of_returnsErr hi) (by rintro rfl; cases hi) rfl
  | bs hi _ hac =>
    iterate 7 right
    exact apart (not_failsBlock_of_ofStream hi) (by rintro rfl; cases hi) hac
  | ctxRead hi =>
    iterate 7 right
    exact apart (not_failsBlock_of_ofContexts hi) (by rintro rfl; cases hi) rfl
  | ctxWritten hi | coderRead hi =>
    iterate 7 right
    exact apart (by rw [hi]; rfl) (by rw [hi]; nofun) rfl

end Sys2Proof.Machine
end

section
/-! The past does not matter (42_arith_coder.md R227, R234): every procedure run on a channel that had accepted more bytes ends
the same way, with these bytes before its own. -/

namespace Sys2Proof.Machine

/-! ## Stream procedures -/

/-- The channel, had it accepted the bytes `before` first (R62). -/
def Channel.past (before : List Byte) (ch : Channel) : Channel := { ch with output := before ++ ch.output }

/-- The stream on that channel. -/
def Stream.past (before : List Byte) (t : Stream) : Stream := { t with chan := t.chan.past before }

@[simp] theorem Stream.past_bs (before : List Byte) (t : Stream) : (t.past before).bs = t.bs := rfl

/-- The same end, in another piece of a machine. -/
def Run.mapPiece {σ τ α : Type} (f : σ → τ) : Run σ α → Run τ α
  | .done a s => .done a (f s)
  | .raised x s => .raised x (f s)

/-- What a procedure followed by another does not see, if neither of them sees it. -/
theorem Run.mapPiece_andThen {σ α β : Type} {f : σ → σ} {r : Run σ α} {k : α → σ → Run σ β}
    (hk : ∀ a u, k a (f u) = (k a u).mapPiece f) : (r.mapPiece f).andThen k = (r.andThen k).mapPiece f := by
  cases r with
  | done a u => exact hk a u
  | raised x u => rfl

variable {before : List Byte}

theorem chanRead_past (ch : Channel) : chanRead (ch.past before) = (chanRead ch).mapPiece (Channel.past before) := by
  have hin : (ch.past before).input[(ch.past before).inpos]? = ch.input[ch.inpos]? := rfl
  have hnext : (ch.past before).nextDraw = ch.nextDraw := rfl
  rw [chanRead, chanRead, hnext, hin]
  cases ch.nextDraw with
  | true => rfl
  | false => cases ch.input[ch.inpos]? <;> rfl

theorem chanWrite_past (b : Byte) (ch : Channel) :
    chanWrite b (ch.past before) = (chanWrite b ch).mapPiece (Channel.past before) := by
  have hnext : (ch.past before).nextDraw = ch.nextDraw := rfl
  have hout : (ch.past before).output ++ [b] = before ++ (ch.output ++ [b]) := List.append_assoc _ _ _
  rw [chanWrite, chanWrite, hnext, hout]
  cases ch.nextDraw <;> rfl

/-- A stream procedure that does not look at what was accepted before. -/
abbrev Stream.Oblivious {α : Type} (p : Stream → Run Stream α) : Prop :=
  ∀ before t, p (Stream.past before t) = (p t).mapPiece (Stream.past before)

theorem preCheck_past (n : Nat) : Stream.Oblivious (preCheck n) := by
  intro before t
  rw [preCheck, preCheck, Stream.past_bs]
  cases t.bs.err with
  | some x => rfl
  | none => simp only []; split <;> rfl

theorem chargeLimit_past (n : Nat) (t : Stream) : chargeLimit n (t.past before) = (chargeLimit n t).past before := by
  rw [chargeLimit, chargeLimit, Stream.past_bs]
  split <;> rfl

theorem refill_past : Stream.Oblivious refill := by
  intro before t
  have hread : chanRead (t.past before).chan = _ := chanRead_past t.chan
  rw [refill, refill, Stream.past_bs, hread]
  split
  · cases chanRead t.chan <;> rfl
  · rfl

theorem getLoop_past (n v : Nat) : Stream.Oblivious (getLoop n v) := by
  intro before t
  induction n generalizing v t with
  | zero => rfl
  | succ n ih =>
    rw [getLoop, refill_past]
    exact Run.mapPiece_andThen fun _ u => ih (2 * v + (nextBit u).toNat) (stepCount u)

theorem getBits_past (n : Nat) : Stream.Oblivious (getBits n) := by
  intro before t
  rw [getBits, preCheck_past]
  refine Run.mapPiece_andThen fun _ u => ?_
  rw [getLoop_past]
  exact Run.mapPiece_andThen fun a w => congrArg (Run.done a) (chargeLimit_past n w)

theorem writeBuf_past : Stream.Oblivious writeBuf := by
  intro before t
  have hwrite : chanWrite (t.past before).bs.buf (t.past before).chan = _ := chanWrite_past t.bs.buf t.chan
  rw [writeBuf, writeBuf, hwrite]
  cases chanWrite t.bs.buf t.chan <;> rfl

theorem putBit_past (b : Bool) : Stream.Oblivious (putBit b) := by
  intro before t
  have written (u : Stream) : (if (u.past before).bs.count = 0 then writeBuf (u.past before) else .done () (u.past before)) =
      (if u.bs.count = 0 then writeBuf u else .done () u).mapPiece (Stream.past before) := by
    rw [Stream.past_bs, writeBuf_past]
    split <;> rfl
  exact written (stepCount { t with bs := { t.bs with buf := t.bufWith b } })

theorem putLoop_past (v n : Nat) : Stream.Oblivious (putLoop v n) := by
  intro before t
  induction n generalizing t with
  | zero => rfl
  | succ n ih =>
    rw [putLoop, putBit_past]
    exact Run.mapPiece_andThen fun _ u => ih u

theorem putBits_past (v n : Nat) : Stream.Oblivious (putBits v n) := by
  intro before t
  rw [putBits, preCheck_past]
  refine Run.mapPiece_andThen fun _ u => ?_
  rw [putLoop_past]
  exact Run.mapPiece_andThen fun a w => congrArg (Run.done a) (chargeLimit_past n w)

theorem flushPartial_past : Stream.Oblivious flushPartial := by
  intro before t
  rw [flushPartial, flushPartial, Stream.past_bs, writeBuf_past]
  split <;> rfl

/-! ## Coder procedures -/

/-- The engine on that channel. -/
def Engine.past (before : List Byte) (e : Engine) : Engine := { e with stream := e.stream.past before }

@[simp] theorem Engine.past_ac (before : List Byte) (e : Engine) : (e.past before).ac = e.ac := rfl

/-- The same end, with another engine. -/
def Coded.mapEngine {α : Type} (f : Engine → Engine) : Coded α → Coded α
  | .done a e => .done a (f e)
  | .raised x e => .raised x (f e)
  | .overflow => .overflow
  | .diverges => .diverges

theorem Coded.mapEngine_andThen {α β : Type} {f : Engine → Engine} {r : Coded α} {k : α → Engine → Coded β}
    (hk : ∀ a e, k a (f e) = (k a e).mapEngine f) : (r.mapEngine f).andThen k = (r.andThen k).mapEngine f := by
  cases r with
  | done a e => exact hk a e
  | raised x e => rfl
  | overflow => rfl
  | diverges => rfl

/-- A coder procedure that does not look at what was accepted before. -/
abbrev Engine.Oblivious {α : Type} (p : Engine → Coded α) : Prop :=
  ∀ before e, p (Engine.past before e) = (p e).mapEngine (Engine.past before)

theorem onStream_past {α : Type} {p : Stream → Run Stream α} (hp : Stream.Oblivious p) : Engine.Oblivious (onStream p) := by
  intro before e
  have hrun : p (e.past before).stream = _ := hp before e.stream
  rw [onStream, onStream, hrun]
  cases p e.stream <;> rfl

theorem putByte_past (b : Nat) : Engine.Oblivious (putByte b) := onStream_past (putBits_past b 8)

theorem getByte_past : Engine.Oblivious getByte := onStream_past (getBits_past 8)

theorem putRun_past (b n : Nat) : Engine.Oblivious (putRun b n) := by
  intro before e
  induction n generalizing e with
  | zero => rfl
  | succ n ih =>
    rw [putRun, putByte_past]
    exact Coded.mapEngine_andThen fun _ u => ih u

theorem emitTop_past : Engine.Oblivious emitTop := by
  intro before e
  rw [emitTop, emitTop, Engine.past_ac, putByte_past]
  simp only
  split
  · rfl
  · split
    · refine Coded.mapEngine_andThen fun _ u => ?_
      rw [Engine.past_ac, putRun_past]
      exact Coded.mapEngine_andThen fun _ w => rfl
    · split <;> rfl

theorem encRenorm_past (n : Nat) : Engine.Oblivious (encRenorm n) := by
  intro before e
  induction n generalizing e with
  | zero => rw [encRenorm, encRenorm, Engine.past_ac]; split <;> rfl
  | succ n ih =>
    rw [encRenorm, encRenorm, Engine.past_ac, emitTop_past]
    split
    · exact Coded.mapEngine_andThen fun _ u => ih { u with ac := u.ac.shift }
    · rfl

theorem encodeSymbol_past (f0 t : Nat) (bit : Bool) : Engine.Oblivious (encodeSymbol f0 t bit) := fun before e =>
  encRenorm_past _ before { e with ac := e.ac.select (split e.ac.range f0 t) bit }

theorem flushRounds_past (n : Nat) : Engine.Oblivious (flushRounds n) := by
  intro before e
  induction n generalizing e with
  | zero => rfl
  | succ n ih =>
    rw [flushRounds, emitTop_past]
    exact Coded.mapEngine_andThen fun _ u => ih { u with ac := { u.ac with low := u.ac.shiftedLow } }

theorem encFlush_past : Engine.Oblivious encFlush := by
  intro before e
  rw [encFlush, flushRounds_past]
  refine Coded.mapEngine_andThen fun _ u => ?_
  rw [Engine.past_ac, putByte_past]
  refine Coded.mapEngine_andThen fun _ w => ?_
  rw [Engine.past_ac, putRun_past]
  exact Coded.mapEngine_andThen fun _ _ => rfl

theorem decRenorm_past (n : Nat) : Engine.Oblivious (decRenorm n) := by
  intro before e
  induction n generalizing e with
  | zero => rw [decRenorm, decRenorm, Engine.past_ac]; split <;> rfl
  | succ n ih =>
    rw [decRenorm, decRenorm, Engine.past_ac, getByte_past]
    split
    · exact Coded.mapEngine_andThen fun b u => ih { u with ac := (u.ac.pushCode b).shift }
    · rfl

theorem decodeSymbol_past (f0 t : Nat) : Engine.Oblivious (decodeSymbol f0 t) := by
  intro before e
  rw [decodeSymbol, decodeSymbol, Engine.past_ac]
  refine Eq.trans ?_ (Coded.mapEngine_andThen fun _ _ => rfl)
  exact congrArg (Coded.andThen · _) (decRenorm_past _ before { e with ac := e.ac.select _ _ })

theorem loadCode_past (n : Nat) : Engine.Oblivious (loadCode n) := by
  intro before e
  induction n generalizing e with
  | zero => rfl
  | succ n ih =>
    rw [loadCode, getByte_past]
    exact Coded.mapEngine_andThen fun b u => ih { u with ac := u.ac.pushCode b }

end Sys2Proof.Machine
end

section
/-! What a command does depends neither on the bytes accepted before, nor on the last response, nor on the host's queue
(42_arith_coder.md R227, R234). -/

namespace Sys2Proof.Machine

/-- The machine with another past and another future: the bytes `before` were accepted first, `resp` was the last response, and
the host will do `host`. -/
def State.elsewhere (before : List Byte) (resp : Option Response) (host : List HostEvent) (s : State) : State :=
  { s with chan := s.chan.past before, resp := resp, host := host }

@[simp] theorem State.elsewhere_bs (before : List Byte) (resp : Option Response) (host : List HostEvent) (s : State) :
    (s.elsewhere before resp host).bs = s.bs := rfl
@[simp] theorem State.elsewhere_ac (before : List Byte) (resp : Option Response) (host : List HostEvent) (s : State) :
    (s.elsewhere before resp host).ac = s.ac := rfl

/-- The same end of a command, with another next state. -/
def mapNext (f : State → State) : Result → Result
  | .next t => .next (f t)
  | .fault x => .fault x
  | .refused x => .refused x

/-- A piece of a command that the past and the future do not change: elsewhere it ends the same way, with its own response. -/
def Blind (k : State → Result) : Prop :=
  ∀ (before : List Byte) (resp : Option Response) (host : List HostEvent) (s : State),
    k (s.elsewhere before resp host) = mapNext (fun t => t.elsewhere before t.resp host) (k s)

/-! ## The ends of a command -/

/-- A check of the registers. -/
theorem blind_require {b : State → Bool} {st : Status} {k : State → Result}
    (hk : Blind k) (hb : ∀ before resp host s, b (State.elsewhere before resp host s) = b s := by intros; rfl) :
    Blind fun s => require (b s) st s (k s) := by
  intro before resp host s
  simp only [hb]
  cases b s with
  | false => rfl
  | true => exact hk before resp host s

theorem blind_unlessErr {k : State → Result} (hk : Blind k) : Blind fun s => unlessErr s (k s) := by
  intro before resp host s
  simp only [unlessErr, State.elsewhere_bs]
  cases s.bs.err with
  | none => exact hk before resp host s
  | some x => rfl

theorem blind_unlessFaulted {k : State → Result} (hk : Blind k) : Blind fun s => unlessFaulted s (k s) := by
  intro before resp host s
  simp only [unlessFaulted, State.elsewhere_bs]
  cases s.bs.err with
  | none => exact hk before resp host s
  | some x => rfl

theorem blind_runStream {α : Type} {p : Stream → Run Stream α} {k : α → State → Result}
    (hp : Stream.Oblivious p) (hk : ∀ a, Blind (k a)) :
    Blind fun s => runStream p s k := by
  intro before resp host s
  have hrun : p (s.elsewhere before resp host).stream = _ := hp before s.stream
  simp only [runStream, hrun]
  cases p s.stream with
  | done a t => exact hk a before resp host (s.setStream t)
  | raised x t => rfl

theorem blind_runCoder {α : Type} {p : Engine → Coded α} {k : α → State → Result}
    (hp : Engine.Oblivious p) (hk : ∀ a, Blind (k a)) :
    Blind fun s => runCoder p s k := by
  intro before resp host s
  have hrun : p (s.elsewhere before resp host).engine = _ := hp before s.engine
  simp only [runCoder, hrun]
  cases p s.engine with
  | done a e => exact hk a before resp host (s.setEngine e)
  | raised x e => rfl
  | overflow => rfl
  | diverges => rfl

/-- A choice by the registers. -/
theorem blind_ite {P : State → Prop} [∀ s, Decidable (P s)] {k m : State → Result} (hk : Blind k) (hm : Blind m)
    (hP : ∀ before resp host s, P (State.elsewhere before resp host s) ↔ P s := by intros; rfl) :
    Blind fun s => if P s then k s else m s := by
  intro before resp host s
  by_cases h : P s
  · simp only [hP, if_pos h]; exact hk before resp host s
  · simp only [hP, if_neg h]; exact hm before resp host s

/-- A command on the context it names. -/
theorem blind_ctxAt {c : Nat} {f : State → Result} {k : Context → State → Result}
    (hnone : ∀ s, s.ctxAt c = none → f s = raise .badArgument s) (hsome : ∀ s x, s.ctxAt c = some x → f s = k x s)
    (hk : ∀ x, Blind (k x)) : Blind f := by
  intro before resp host s
  cases hx : s.ctxAt c with
  | none => rw [hnone s hx, hnone (s.elsewhere before resp host) hx]; rfl
  | some x => rw [hsome s x hx, hsome (s.elsewhere before resp host) x hx]; exact hk x before resp host s

/-! ## The commands that are more than a check and a procedure -/

theorem blind_flush : Blind fun s => runStream flushPartial s fun _ t => ended .ok 0 t :=
  blind_runStream flushPartial_past fun _ _ _ _ _ => rfl

theorem blind_execBsAlign : Blind execBsAlign :=
  blind_require (blind_unlessErr (blind_ite (fun _ _ _ _ => rfl) blind_flush))

theorem blind_execBsClose : Blind execBsClose := by
  refine blind_require fun before resp host s => ?_
  have hflush : flushPartial (s.elsewhere before resp host).stream = _ := flushPartial_past before s.stream
  simp only [State.elsewhere_bs, hflush]
  cases s.bs.err with
  | some x => rfl
  | none =>
    simp only []
    split
    · cases flushPartial s.stream <;> rfl
    · rfl

theorem blind_execCtxInit (c : Nat) (one total maxf : BitVec 16) (adaptive : Bool) :
    Blind (execCtxInit c one total maxf adaptive) := by
  refine blind_ctxAt (c := c) (k := fun _ s => require (countsOk one total maxf) .badArgument s
    (ended .ok 0 (s.putCtx c ⟨one, total, maxf, adaptive⟩))) (fun s h => ?_) (fun s x h => ?_) fun _ =>
      blind_require fun _ _ _ _ => rfl
  · rw [execCtxInit, h]
  · rw [execCtxInit, h]

theorem blind_execCtxRead (c : Nat) : Blind (execCtxRead c) := by
  refine blind_ctxAt (c := c) (k := fun x s => ended .ok (ctxCountsWord x) s) (fun s h => ?_) (fun s x h => ?_)
    fun _ _ _ _ _ => rfl
  · rw [execCtxRead, h]
  · rw [execCtxRead, h]

theorem blind_execCtxReadCfg (c : Nat) : Blind (execCtxReadCfg c) := by
  refine blind_ctxAt (c := c) (k := fun x s => ended .ok (ctxCfgWord x) s) (fun s h => ?_) (fun s x h => ?_)
    fun _ _ _ _ _ => rfl
  · rw [execCtxReadCfg, h]
  · rw [execCtxReadCfg, h]

theorem blind_execEncRegular (c : Nat) (bit : Bool) : Blind (execEncRegular c bit) :=
  blind_require (blind_ctxAt (c := c) (fun s h => by rw [h]) (fun s x h => by rw [h]) fun x =>
    blind_unlessFaulted (blind_runCoder (encodeSymbol_past x.zero x.total.toNat bit) fun _ _ _ _ _ => rfl))

theorem blind_execDecRegular (c : Nat) : Blind (execDecRegular c) :=
  blind_require (blind_ctxAt (c := c) (fun s h => by rw [h]) (fun s x h => by rw [h]) fun x =>
    blind_unlessFaulted (blind_runCoder (decodeSymbol_past x.zero x.total.toNat) fun _ _ _ _ _ => rfl))

theorem blind_execDecTerminate : Blind execDecTerminate :=
  blind_require (blind_unlessFaulted (blind_ite (fun _ _ _ _ => rfl) fun _ _ _ _ => rfl))

/-! ## Every command -/

theorem exec_blind (i : Instr) : Blind (exec i) := by
  cases i with
  | bsBind dir => exact blind_require fun _ _ _ _ => rfl
  | bsGetbits n =>
    exact blind_require (blind_require
      (blind_runStream (getBits_past n) fun _ _ _ _ _ => rfl))
  | bsPutbits n value =>
    exact blind_require (blind_require
      (blind_runStream (putBits_past value.toNat n) fun _ _ _ _ _ => rfl))
  | bsAlign => exact blind_execBsAlign
  | bsFlush => exact blind_require (blind_unlessErr blind_flush)
  | bsClose => exact blind_execBsClose
  | bsSetLimit | bsClearLimit | bsClearError => exact blind_require fun _ _ _ _ => rfl
  | bsStatus | bsGetLimit | acInit | acStatus => exact fun _ _ _ _ => rfl
  | ctxInit c one total maxf adaptive => exact blind_execCtxInit c one total maxf adaptive
  | ctxRead c => exact blind_execCtxRead c
  | ctxReadCfg c => exact blind_execCtxReadCfg c
  | encStart => exact blind_require (blind_unlessFaulted fun _ _ _ _ => rfl)
  | encRegular c bit => exact blind_execEncRegular c bit
  | encBypass bit =>
    exact blind_require (blind_unlessFaulted
      (blind_runCoder (encodeSymbol_past 1 2 bit) fun _ _ _ _ _ => rfl))
  | encTerminate =>
    exact blind_require (blind_unlessFaulted
      (blind_runCoder encFlush_past fun _ _ _ _ _ => rfl))
  | decStart =>
    have hload : Blind fun s => runCoder (loadCode Config.termBytes) s fun _ t => ended .ok 0 t :=
      blind_runCoder (loadCode_past _) fun _ _ _ _ _ => rfl
    exact blind_require (blind_unlessFaulted fun before resp host s =>
      hload before resp host s.openDecoder)
  | decRegular c => exact blind_execDecRegular c
  | decBypass =>
    exact blind_require (blind_unlessFaulted
      (blind_runCoder (decodeSymbol_past 1 2) fun _ _ _ _ _ => rfl))
  | decTerminate => exact blind_execDecTerminate

/-- Settles O53: a next state, a fault and a refusal are each the same elsewhere. -/
theorem thePastOutputDoesNotMatter : Obligations.ThePastOutputDoesNotMatter := by
  intro i s before resp host
  have hsame := exec_blind i before resp host s
  refine ⟨fun t h => hsame.trans ?_, fun f h => hsame.trans ?_, fun f h => hsame.trans ?_⟩ <;> rw [h] <;> rfl

end Sys2Proof.Machine
end

section
/-! Words that are no command (30_encoding.md R83, R86; 60_exceptions.md R250): the reserved OP values, and a nonzero RSV or
unused field. -/

namespace Sys2Proof.Machine

/-- The OP values that name no operation (R86). -/
theorem opOf_eq_none_iff (code : BitVec 5) :
    opOf code = none ↔ code ∈ ([0x00, 0x0C, 0x0D, 0x0E, 0x0F, 0x13, 0x1E, 0x1F] : List (BitVec 5)) := by
  revert code; decide

/-- The check of R83 fails exactly on a nonzero RSV or a nonzero field that is not used. -/
theorem unusedZero_eq_false_iff (o : Op) (f : Fields) :
    unusedZero o f = false ↔ f.rsv ≠ 0 ∨ (o.uses.ctx = false ∧ f.ctx ≠ 0) ∨ (o.uses.b = false ∧ f.b ≠ 0) ∨
      (o.uses.imm = false ∧ f.imm ≠ 0) := by
  rw [← Bool.not_eq_true]
  simp only [unusedZero, Bool.and_eq_true, Bool.or_eq_true, beq_iff_eq, not_and_or, not_or, Bool.not_eq_true, or_assoc,
    ne_eq]

/-- A request whose words do not decode is answered BadCommand, and nothing else changes (R250). -/
theorem runRequest_of_error {cmd data : BitVec 32} {e : BadCommand} (h : decode cmd data = .error e) (s : State) :
    runRequest cmd data s = .next (s.answer .badCommand 0) := by
  rw [runRequest, h]; rfl

/-- Settles O7: the two disjuncts are the two errors of the decoder, neither of which looks at DATA. -/
theorem badCommandChangesNothing : Obligations.BadCommandChangesNothing := by
  intro s cmd data rest hs hbad
  obtain ⟨e, he⟩ : ∃ e, decode cmd data = .error e := by
    rcases hbad with hop | ⟨o, hop, hz⟩
    · exact ⟨_, decode_error_iff.mpr (.inl ⟨(opOf_eq_none_iff _).mpr hop, rfl⟩)⟩
    · exact ⟨_, decode_error_iff.mpr (.inr ⟨o, opOf_eq_some.mpr hop, (unusedZero_eq_false_iff o _).mpr hz, rfl⟩)⟩
  rw [step_of_host hs]
  exact runRequest_of_error he _

end Sys2Proof.Machine
end

section
/-! The common checks (60_exceptions.md R247 to R249): every command checks its state, then its operands, and past the two
checks its status is neither BadState nor BadArgument. -/

namespace Sys2Proof.Machine

/-! ## Past the checks -/

/-- Whatever next state a command gives, its status is of neither common check. -/
def PastChecks (r : Result) : Prop :=
  ∀ t a, r = .next t → t.resp = some a → a.status ≠ .badState ∧ a.status ≠ .badArgument

theorem pastChecks_ended {st : Status} (h : st ≠ .badState ∧ st ≠ .badArgument) (v : BitVec 32) (s : State) :
    PastChecks (ended st v s) := by
  rintro t a ⟨⟩ ⟨⟩; exact h

theorem pastChecks_ok (v : BitVec 32) (s : State) : PastChecks (ended .ok v s) := pastChecks_ended (by decide) v s

/-- A raise of a stream error (R246). -/
theorem pastChecks_raise (x : StreamErr) (s : State) : PastChecks (raise x.status s) :=
  pastChecks_ended ⟨x.status_ne.1, x.status_ne.2.1⟩ 0 s

/-- The same for a coder command (R202). -/
theorem pastChecks_failBlock (x : StreamErr) (s : State) : PastChecks (failBlock x.status s) := pastChecks_raise x _

theorem pastChecks_unlessErr {s : State} {r : Result} (hr : PastChecks r) : PastChecks (unlessErr s r) := by
  rw [unlessErr]
  cases s.bs.err with
  | some x => exact pastChecks_raise x s
  | none => exact hr

theorem pastChecks_unlessFaulted {s : State} {r : Result} (hr : PastChecks r) : PastChecks (unlessFaulted s r) := by
  rw [unlessFaulted]
  cases s.bs.err with
  | some x => exact pastChecks_failBlock x s
  | none => exact hr

theorem pastChecks_runStream {α : Type} {p : Stream → Run Stream α} {s : State} {k : α → State → Result}
    (hk : ∀ a t, PastChecks (k a t)) : PastChecks (runStream p s k) := by
  rw [runStream]
  cases p s.stream with
  | done a u => exact hk a _
  | raised x u => exact pastChecks_raise x _

theorem pastChecks_runCoder {α : Type} {p : Engine → Coded α} {s : State} {k : α → State → Result}
    (hk : ∀ a t, PastChecks (k a t)) : PastChecks (runCoder p s k) := by
  rw [runCoder]
  cases p s.engine with
  | done a e => exact hk a _
  | raised x e => exact pastChecks_failBlock x _
  | overflow | diverges => rintro t a ⟨⟩

/-! ## The two checks -/

/-- The order of R247: the state check of R249, then the operand check of R248, then everything else. -/
inductive Checked (i : Instr) (s : State) : Result → Prop where
  | badState (hs : BadStateWhen i s) : Checked i s (raise .badState s)
  | badArgument (hs : ¬ BadStateWhen i s) (ha : BadArgumentWhen i s) : Checked i s (raise .badArgument s)
  | passed {r : Result} (hs : ¬ BadStateWhen i s) (ha : ¬ BadArgumentWhen i s) (hr : PastChecks r) : Checked i s r

theorem Checked.of_badState {i : Instr} {s : State} {r : Result} (h : Checked i s r) (hs : BadStateWhen i s) :
    r = raise .badState s := by
  cases h with
  | badState => rfl
  | badArgument hn | passed hn => exact absurd hs hn

theorem Checked.of_badArgument {i : Instr} {s : State} {r : Result} (h : Checked i s r) (hs : ¬ BadStateWhen i s)
    (ha : BadArgumentWhen i s) : r = raise .badArgument s := by
  cases h with
  | badState hb => exact absurd hb hs
  | badArgument => rfl
  | passed _ hn => exact absurd ha hn

theorem Checked.pastChecks {i : Instr} {s : State} {r : Result} (h : Checked i s r) (hs : ¬ BadStateWhen i s)
    (ha : ¬ BadArgumentWhen i s) : PastChecks r := by
  cases h with
  | badState hb => exact absurd hb hs
  | badArgument _ hb => exact absurd hb ha
  | passed _ _ hr => exact hr

/-- A legal command's status is not BadState, whatever its operands are. -/
theorem Checked.not_badState {i : Instr} {s t : State} {r : Result} {a : Response} (h : Checked i s r)
    (hs : ¬ BadStateWhen i s) (ht : r = .next t) (hr : t.resp = some a) : a.status ≠ .badState := by
  cases h with
  | badState hb => exact absurd hb hs
  | badArgument => cases ht; cases hr; decide
  | passed _ _ hp => exact (hp t a ht hr).1

/-- A command that checks its state first. -/
theorem Checked.state {i : Instr} {s : State} {b : Bool} {k : Result} (hb : b = true ↔ ¬ BadStateWhen i s)
    (hk : ¬ BadStateWhen i s → Checked i s k) : Checked i s (require b .badState s k) := by
  cases b with
  | false => exact .badState (not_not.mp (mt hb.mpr Bool.false_ne_true))
  | true => exact hk (hb.mp rfl)

/-- A command whose operands are in range in every state. -/
theorem Checked.stateOnly {i : Instr} {s : State} {b : Bool} {k : Result} (hb : b = true ↔ ¬ BadStateWhen i s)
    (ha : ¬ BadArgumentWhen i s) (hk : PastChecks k) : Checked i s (require b .badState s k) :=
  .state hb fun hs => .passed hs ha hk

theorem Checked.argument {i : Instr} {s : State} {b : Bool} {k : Result} (hs : ¬ BadStateWhen i s)
    (hb : b = true ↔ ¬ BadArgumentWhen i s) (hk : PastChecks k) : Checked i s (require b .badArgument s k) := by
  cases b with
  | false => exact .badArgument hs (not_not.mp (mt hb.mpr Bool.false_ne_true))
  | true => exact .passed hs (hb.mp rfl) hk

/-- A command on a context (R61, R248): BadArgument where the id names none, and else `k` with that context. -/
theorem Checked.context {i : Instr} {s : State} {c : Nat} {k : Context → Result} (hs : ¬ BadStateWhen i s)
    (hnone : s.ctx.length ≤ c → BadArgumentWhen i s) (hk : c < s.ctx.length → ∀ x, Checked i s (k x)) :
    Checked i s (match s.ctxAt c with | none => raise .badArgument s | some x => k x) := by
  cases hc : s.ctxAt c with
  | none => exact .badArgument hs (hnone ((ctxAt_none s c).mp hc))
  | some x => exact hk (List.getElem?_eq_some_iff.mp hc).1 x

/-- A command whose one operand check is that of the context id. -/
theorem Checked.contextOnly {i : Instr} {s : State} {c : Nat} {k : Context → Result} (hs : ¬ BadStateWhen i s)
    (ha : BadArgumentWhen i s ↔ s.ctx.length ≤ c) (hk : ∀ x, PastChecks (k x)) :
    Checked i s (match s.ctxAt c with | none => raise .badArgument s | some x => k x) :=
  .context hs ha.mpr fun hc x => .passed hs (fun h => Nat.not_le_of_lt hc (ha.mp h)) (hk x)

/-! ## The commands that branch past their checks -/

theorem pastChecks_flush (s : State) : PastChecks (runStream flushPartial s fun _ t => ended .ok 0 t) :=
  pastChecks_runStream fun _ _ => pastChecks_ok 0 _

/-- BS_ALIGN of a reader or a writer (R133). -/
theorem checked_execBsAlign (s : State) : Checked .bsAlign s (execBsAlign s) := by
  refine .stateOnly ((mayMove_iff s).trans (by simp [BadStateWhen])) id (pastChecks_unlessErr ?_)
  split
  · exact pastChecks_ok 0 _
  · exact pastChecks_flush s

/-- BS_CLOSE answers the stored error, or OK or the error of the flush (R135). -/
theorem checked_execBsClose (s : State) : Checked .bsClose s (execBsClose s) := by
  refine .stateOnly ((mayMove_iff s).trans (by simp [BadStateWhen])) id ?_
  cases s.bs.err with
  | some x => exact pastChecks_raise x _
  | none =>
    dsimp only
    split
    · cases flushPartial s.stream with
      | done a t => exact pastChecks_ok 0 _
      | raised x t => exact pastChecks_raise x _
    · exact pastChecks_ok 0 _

/-- CTX_INIT checks the context id, then the counts (R165). -/
theorem checked_execCtxInit (c : Nat) (one total maxf : BitVec 16) (adaptive : Bool) (s : State) :
    Checked (.ctxInit c one total maxf adaptive) s (execCtxInit c one total maxf adaptive s) := by
  refine .context id .inl fun hc _ => .argument id ((countsOk_iff one total maxf).trans ?_) (pastChecks_ok 0 _)
  simp only [BadArgumentWhen]
  omega

/-- DEC_TERMINATE's own failure is DecodeFailure (R218). -/
theorem checked_execDecTerminate (s : State) : Checked .decTerminate s (execDecTerminate s) := by
  refine .stateOnly ((decoding_iff s).trans (by simp [BadStateWhen])) id (pastChecks_unlessFaulted ?_)
  split
  · exact pastChecks_ok 0 _
  · exact pastChecks_ended (by decide) 0 _

/-! ## Every command -/

/-- Every command makes its checks in the order of R247, and no other check has their statuses. -/
theorem exec_checked (i : Instr) (s : State) : Checked i s (exec i s) := by
  cases i with
  | bsBind => exact .stateOnly ((mayBind_iff s).trans (by simp [BadStateWhen])) id (pastChecks_ok 0 _)
  | bsSetLimit | bsClearLimit | bsClearError =>
    exact .stateOnly ((bound_iff s).trans (by simp [BadStateWhen])) id (pastChecks_ok 0 _)
  | bsGetbits n =>
    refine .state ((mayGet_iff s).trans (by simp [BadStateWhen])) fun hs => .argument hs ?_ ?_
    · exact (countOk_iff n).trans (by simp [BadArgumentWhen, Nat.one_le_iff_ne_zero])
    · exact pastChecks_runStream fun _ _ => pastChecks_ok _ _
  | bsPutbits n value =>
    refine .state ((mayPut_iff s).trans (by simp [BadStateWhen])) fun hs => .argument hs ?_ ?_
    · exact (putArgsOk_iff n value).trans (by simp [BadArgumentWhen, Nat.one_le_iff_ne_zero, and_assoc])
    · exact pastChecks_runStream fun _ _ => pastChecks_ok _ _
  | bsAlign => exact checked_execBsAlign s
  | bsFlush =>
    exact .stateOnly ((mayPut_iff s).trans (by simp [BadStateWhen])) id (pastChecks_unlessErr (pastChecks_flush s))
  | bsClose => exact checked_execBsClose s
  | bsStatus | bsGetLimit | acInit | acStatus => exact .passed id id (pastChecks_ok _ _)
  | ctxInit c one total maxf adaptive => exact checked_execCtxInit c one total maxf adaptive s
  | ctxRead | ctxReadCfg => exact .contextOnly id .rfl fun _ => pastChecks_ok _ _
  | encStart =>
    exact .stateOnly ((mayStartEnc_iff s).trans (by simp [BadStateWhen])) id (pastChecks_unlessFaulted (pastChecks_ok 0 _))
  | decStart =>
    refine .stateOnly ((mayStartDec_iff s).trans (by simp [BadStateWhen])) id (pastChecks_unlessFaulted ?_)
    exact pastChecks_runCoder fun _ _ => pastChecks_ok 0 _
  | encRegular =>
    refine .state ((encoding_iff s).trans (by simp [BadStateWhen])) fun hs => .contextOnly hs .rfl fun _ => ?_
    exact pastChecks_unlessFaulted (pastChecks_runCoder fun _ _ => pastChecks_ok 0 _)
  | decRegular =>
    refine .state ((decoding_iff s).trans (by simp [BadStateWhen])) fun hs => .contextOnly hs .rfl fun _ => ?_
    exact pastChecks_unlessFaulted (pastChecks_runCoder fun _ _ => pastChecks_ok _ _)
  | encBypass | encTerminate =>
    refine .stateOnly ((encoding_iff s).trans (by simp [BadStateWhen])) id (pastChecks_unlessFaulted ?_)
    exact pastChecks_runCoder fun _ _ => pastChecks_ok 0 _
  | decBypass =>
    refine .stateOnly ((decoding_iff s).trans (by simp [BadStateWhen])) id (pastChecks_unlessFaulted ?_)
    exact pastChecks_runCoder fun _ _ => pastChecks_ok _ _
  | decTerminate => exact checked_execDecTerminate s

/-- Settles O13: a failed state check answers BadState, and neither of the other two ways through the checks does. -/
theorem badStateExactlyWhenThePreconditionFails : Obligations.BadStateExactlyWhenThePreconditionFails := fun i s =>
  ⟨(exec_checked i s).of_badState, fun hs _ _ => (exec_checked i s).not_badState hs⟩

/-- Settles O14: past the state check only a failed operand check answers BadArgument. -/
theorem badArgumentExactlyWhenAnOperandIsOutOfRange : Obligations.BadArgumentExactlyWhenAnOperandIsOutOfRange :=
  fun i s hs =>
    ⟨(exec_checked i s).of_badArgument hs, fun ha t r ht hr => ((exec_checked i s).pastChecks hs ha t r ht hr).2⟩

end Sys2Proof.Machine
end

section
/-! Every command completes (70_reset_and_hazards.md R283; 42_arith_coder.md R223): outside a block's own commands in every
state, and these too where the invariant holds and PENDING has room for what they can hold back. -/

namespace Sys2Proof.Machine

/-! ## The ends of a command -/

/-- The command gives a next state: it neither faults nor is refused. -/
def Completes (r : Result) : Prop := ∃ t, r = .next t

theorem completes_ended {st : Status} {v : BitVec 32} {s : State} : Completes (ended st v s) := ⟨_, rfl⟩

theorem completes_require {b : Bool} {st : Status} {s : State} {k : Result} (hk : b = true → Completes k) :
    Completes (require b st s k) := by
  cases b with
  | false => exact completes_ended
  | true => exact hk rfl

theorem completes_unlessErr {s : State} {k : Result} (hk : Completes k) : Completes (unlessErr s k) := by
  rw [unlessErr]
  cases s.bs.err with
  | some x => exact completes_ended
  | none => exact hk

theorem completes_unlessFaulted {s : State} {k : Result} (hk : s.bs.err = none → Completes k) :
    Completes (unlessFaulted s k) := by
  cases he : s.bs.err with
  | some x => exact ⟨_, unlessFaulted_some he k⟩
  | none => rw [unlessFaulted_none s k he]; exact hk he

/-- A command on a context: BadArgument where there is none (R248). -/
theorem completes_ctxAt {s : State} {c : Nat} {k : Context → Result} (hk : ∀ x, s.ctxAt c = some x → Completes (k x)) :
    Completes (match s.ctxAt c with | none => raise .badArgument s | some x => k x) := by
  cases hc : s.ctxAt c with
  | none => exact completes_ended
  | some x => exact hk x hc

/-- A Bit Stream procedure ends with a value or a raise (R63: every transfer answers). -/
theorem completes_runStream {α : Type} {p : Stream → Run Stream α} {s : State} {k : α → State → Result}
    (hk : ∀ a t, Completes (k a t)) : Completes (runStream p s k) := by
  rw [runStream]
  cases p s.stream with
  | done a u => exact hk a _
  | raised x u => exact completes_ended

/-- A coder procedure ends with a value or a raise: PENDING does not overflow, and the renormalization ends. -/
def Coded.Finishes {α : Type} (r : Coded α) : Prop := (∃ a e, r = .done a e) ∨ ∃ x e, r = .raised x e

theorem completes_runCoder {α : Type} {p : Engine → Coded α} {s : State} {k : α → State → Result}
    (hp : (p s.engine).Finishes) (hk : ∀ a t, Completes (k a t)) : Completes (runCoder p s k) := by
  rcases hp with ⟨a, e, eq⟩ | ⟨x, e, eq⟩
  · rw [runCoder_done eq]; exact hk a _
  · exact ⟨_, runCoder_next.mpr (.inr ⟨x, e, eq, rfl⟩)⟩

/-! ## Commands that are no part of a block -/

theorem completes_execBsAlign (s : State) : Completes (execBsAlign s) := by
  refine completes_require fun _ => completes_unlessErr ?_
  split
  · exact completes_ended
  · exact completes_runStream fun _ _ => completes_ended

/-- BS_CLOSE unbinds, whatever the stored error and the flush are (R135). -/
theorem execBsClose_unbinds {s : State} (hs : s.mayMove = true) : ∃ t, execBsClose s = .next t ∧ t.bs = .reset := by
  rw [execBsClose, hs, require_true]
  cases s.bs.err with
  | some x => exact ⟨_, rfl, rfl⟩
  | none =>
    dsimp only
    split
    · cases flushPartial s.stream with
      | done a t => exact ⟨_, rfl, rfl⟩
      | raised x t => exact ⟨_, rfl, rfl⟩
    · exact ⟨_, rfl, rfl⟩

theorem completes_execBsClose (s : State) : Completes (execBsClose s) := by
  cases hs : s.mayMove with
  | false => rw [execBsClose, hs]; exact completes_ended
  | true =>
    obtain ⟨t, ht, -⟩ := execBsClose_unbinds hs
    exact ⟨t, ht⟩

/-- A command that is no part of a block completes in every state, whether it meets the invariant or not. -/
theorem exec_completes_outside_block {i : Instr} (hi : failsBlock i = false) (s : State) : Completes (exec i s) := by
  cases i with
  | bsBind | bsSetLimit | bsClearLimit | bsClearError => exact completes_require fun _ => completes_ended
  | bsGetbits | bsPutbits =>
    exact completes_require fun _ => completes_require fun _ => completes_runStream fun _ _ => completes_ended
  | bsAlign => exact completes_execBsAlign s
  | bsFlush =>
    exact completes_require fun _ => completes_unlessErr (completes_runStream fun _ _ => completes_ended)
  | bsClose => exact completes_execBsClose s
  | bsStatus | bsGetLimit | acInit | acStatus => exact completes_ended
  | ctxInit => exact completes_ctxAt fun _ _ => completes_require fun _ => completes_ended
  | ctxRead | ctxReadCfg => exact completes_ctxAt fun _ _ => completes_ended
  | encStart | encRegular | encBypass | encTerminate | decStart | decRegular | decBypass | decTerminate => cases hi

/-! ## The coder's procedures -/

/-- A running encoder's symbol takes fewer than four steps, each of which can hold back one byte more (R206, R223). -/
theorem Symbol.encode_finishes {x : Symbol} {s : State} {f0 n : Nat} (h : s.Inv) (hs : s.encoding = true)
    (hp : s.ac.pending.toNat + 4 < 2 ^ 32) (hc : x.counts s.ctx = some (f0, n)) :
    (encodeSymbol f0 n x.bit s.engine).Finishes := by
  obtain ⟨hstate, hrole⟩ := (encoding_iff s).mp hs
  obtain ⟨hcan, -, hr, -⟩ := Inv.canEncode h hstate hrole
  obtain ⟨h1, h2⟩ := Symbol.split_bounds (Inv.ctx h) hr hc
  obtain ⟨hsteps, hk⟩ := symbolSteps_spec h1 h2 x.bit
  rcases encodeSymbol_ends (e := s.engine) (bit := x.bit) hcan (Nat.le_trans (by decide) h1)
    (by simp only [State.engine_ac]; omega) hk hsteps with ⟨e, eq, -⟩ | ⟨y, e, eq, -⟩ | ⟨-, hover⟩
  · exact .inl ⟨_, e, eq⟩
  · exact .inr ⟨y, e, eq⟩
  · exact absurd (Coder.keepsCount_of_lt (by simp only [State.engine_ac]; omega)) hover

/-- The flush can hold back one byte in each of its four rounds (R210). -/
theorem encFlush_finishes {s : State} (h : s.Inv) (hs : s.encoding = true) (hp : s.ac.pending.toNat + 4 < 2 ^ 32) :
    (encFlush s.engine).Finishes := by
  obtain ⟨hstate, hrole⟩ := (encoding_iff s).mp hs
  obtain ⟨hcan, -⟩ := Inv.canEncode h hstate hrole
  rcases encFlush_ends hcan.canPut hcan.err hcan.resolvable with ⟨e, eq, -⟩ | ⟨x, e, eq, -⟩ | ⟨-, hover⟩
  · exact .inl ⟨_, e, eq⟩
  · exact .inr ⟨x, e, eq⟩
  · exact absurd (Coder.keepsCount_of_lt hp) hover

/-- A running decoder's symbol needs no more steps than its loop has (R209, R223; log entry 9). -/
theorem Symbol.decode_finishes {x : Symbol} {s : State} {f0 n : Nat} (h : s.Inv) (hs : s.decoding = true)
    (hc : x.counts s.ctx = some (f0, n)) : (decodeSymbol f0 n s.engine).Finishes := by
  obtain ⟨hstate, hrole⟩ := (decoding_iff s).mp hs
  obtain ⟨hcan, -, hr, -⟩ := Inv.canDecode h hstate hrole
  obtain ⟨h1, h2⟩ := Symbol.split_bounds (Inv.ctx h) hr hc
  obtain ⟨hsteps, hk⟩ := symbolSteps_spec h1 h2 (s.ac.decision (split s.ac.range f0 n))
  rcases decodeSymbol_ends (e := s.engine) hcan (Nat.le_trans (by decide) h1) (by simp only [State.engine_ac]; omega) hk
    hsteps with ⟨e, eq, -⟩ | ⟨y, e, eq, -⟩
  · exact .inl ⟨_, e, eq⟩
  · exact .inr ⟨y, e, eq⟩

theorem loadCode_finishes (n : Nat) {s : State} (h : s.Inv) (hm : s.bs.mode = .reader) (he : s.bs.err = none) :
    (loadCode n s.openDecoder.engine).Finishes := by
  have hcount := (Inv.stream h).count_le hm
  rcases loadCode_ends n (e := s.openDecoder.engine) hcount he with ⟨e, eq, -⟩ | ⟨x, e, eq, -⟩
  · exact .inl ⟨_, e, eq⟩
  · exact .inr ⟨x, e, eq⟩

/-! ## The commands of a block -/

theorem completes_execEncRegular {s : State} (h : s.Inv) (hp : s.ac.pending.toNat + 4 < 2 ^ 32) (c : Nat) (bit : Bool) :
    Completes (execEncRegular c bit s) :=
  completes_require fun hs => completes_ctxAt fun _ hx => completes_unlessFaulted fun _ =>
    completes_runCoder (Symbol.encode_finishes (x := .regular c bit) h hs hp (congrArg (Option.map _) hx)) fun _ _ =>
      completes_ended

theorem completes_execEncBypass {s : State} (h : s.Inv) (hp : s.ac.pending.toNat + 4 < 2 ^ 32) (bit : Bool) :
    Completes (execEncBypass bit s) :=
  completes_require fun hs => completes_unlessFaulted fun _ =>
    completes_runCoder (Symbol.encode_finishes (x := .bypass bit) h hs hp rfl) fun _ _ => completes_ended

theorem completes_execEncTerminate {s : State} (h : s.Inv) (hp : s.ac.pending.toNat + 4 < 2 ^ 32) :
    Completes (execEncTerminate s) :=
  completes_require fun hs => completes_unlessFaulted fun _ =>
    completes_runCoder (encFlush_finishes h hs hp) fun _ _ => completes_ended

theorem completes_execDecStart {s : State} (h : s.Inv) : Completes (execDecStart s) :=
  completes_require fun hs => completes_unlessFaulted fun he =>
    completes_runCoder (loadCode_finishes _ h ((mayStartDec_iff s).mp hs).2 he) fun _ _ => completes_ended

theorem completes_execDecRegular {s : State} (h : s.Inv) (c : Nat) : Completes (execDecRegular c s) :=
  completes_require fun hs => completes_ctxAt fun _ hx => completes_unlessFaulted fun _ =>
    completes_runCoder (Symbol.decode_finishes (x := .regular c false) h hs (congrArg (Option.map _) hx)) fun _ _ =>
      completes_ended

theorem completes_execDecBypass {s : State} (h : s.Inv) : Completes (execDecBypass s) :=
  completes_require fun hs => completes_unlessFaulted fun _ =>
    completes_runCoder (Symbol.decode_finishes (x := .bypass false) h hs rfl) fun _ _ => completes_ended

theorem completes_execDecTerminate (s : State) : Completes (execDecTerminate s) := by
  refine completes_require fun _ => completes_unlessFaulted fun _ => ?_
  split
  · exact completes_ended
  · exact completes_ended

/-- Settles O55: only a block's procedures could stop the machine, and under the invariant these finish. -/
theorem everyCommandCompletes : Obligations.EveryCommandCompletes := by
  intro i s h hp
  show Completes (exec i s)
  cases i with
  | encStart => exact completes_require fun _ => completes_unlessFaulted fun _ => completes_ended
  | encRegular c bit => exact completes_execEncRegular h hp c bit
  | encBypass bit => exact completes_execEncBypass h hp bit
  | encTerminate => exact completes_execEncTerminate h hp
  | decStart => exact completes_execDecStart h
  | decRegular c => exact completes_execDecRegular h c
  | decBypass => exact completes_execDecBypass h
  | decTerminate => exact completes_execDecTerminate s
  | _ => exact exec_completes_outside_block rfl s

end Sys2Proof.Machine
end

section
/-! Which commands are legal right after reset, and the commands whose effect on a part is that of reset
(70_reset_and_hazards.md R270, R272). -/

namespace Sys2Proof.Machine

/-! ## Right after reset -/

/-- The commands R272 lists: legal with no stream bound and no block started. -/
abbrev legalAfterReset : List Op := [.bsBind, .ctxInit, .ctxRead, .ctxReadCfg, .acInit, .bsStatus, .bsGetLimit, .acStatus]

/-- With MODE = NONE and STATE = UNSTARTED the preconditions of R249 hold for the listed commands only. -/
theorem badStateWhen_after_reset_iff (i : Instr) {s : State} (hb : s.bs = .reset) (ha : s.ac = .reset) :
    BadStateWhen i s ↔ i.op ∉ legalAfterReset := by
  have hmode : s.bs.mode = .none := by rw [hb]; rfl
  have hstate : s.ac.state = .unstarted := by rw [ha]; rfl
  cases i <;> simp [BadStateWhen, Instr.op, hmode, hstate]

/-- The listed commands are no part of a block. -/
theorem not_failsBlock_of_legalAfterReset {i : Instr} (hi : i.op ∈ legalAfterReset) : failsBlock i = false := by
  revert hi
  cases i <;> simp [failsBlock, ofEncoder, ofDecoder, Instr.op]

/-- Of the listed commands only BS_BIND writes a Bit Stream register. -/
theorem exec_keeps_bs_of_legalAfterReset {i : Instr} {s t : State} (hi : i.op ∈ legalAfterReset) (hne : i.op ≠ .bsBind)
    (ht : exec i s = .next t) : t.bs = s.bs := by
  cases i with
  | bsBind => exact absurd rfl hne
  | ctxInit | ctxRead | ctxReadCfg => exact ((exec_groups ht).contexts rfl).1
  | acInit | bsStatus | bsGetLimit | acStatus => cases ht; rfl
  | _ => simp [Instr.op] at hi

/-- Of the listed commands only AC_INIT writes a coder register, and it writes the values of reset (R219). -/
theorem exec_keeps_reset_coder {i : Instr} {s t : State} (hi : i.op ∈ legalAfterReset) (ha : s.ac = .reset)
    (ht : exec i s = .next t) : t.ac = .reset := by
  by_cases hinit : i = .acInit
  · subst hinit; cases ht; rfl
  · exact (exec_keeps_coder (not_failsBlock_of_legalAfterReset hi) hinit ht).trans ha

/-- The first block needs no AC_INIT: the reset coder is UNSTARTED (R201, R272). -/
theorem bind_then_encStart {s : State} (hb : s.bs = .reset) (ha : s.ac = .reset) :
    ∃ t u, exec (.bsBind .writer) s = .next t ∧ exec .encStart t = .next u ∧ u.resp = some ⟨.ok, 0⟩ := by
  have hbind := (bindSetsTheStreamRegisters s (by rw [hb]; rfl) (by rw [ha]; decide)).2
  exact ⟨_, _, hbind, exec_encStart (congrArg Coder.state ha) rfl rfl, rfl⟩

/-- Settles O11: a command's state check right after reset is whether it is listed, and the listed ones complete. -/
theorem onlyTheListedCommandsAreLegalAfterReset : Obligations.OnlyTheListedCommandsAreLegalAfterReset := by
  intro i s hb ha
  have hbad := badStateWhen_after_reset_iff i hb ha
  refine ⟨fun hi => ?_, fun hi => (exec_checked i s).of_badState (hbad.mpr hi), bind_then_encStart hb ha⟩
  obtain ⟨t, ht⟩ := exec_completes_outside_block (not_failsBlock_of_legalAfterReset hi) s
  obtain ⟨r, hr, -⟩ := exec_answers i s t ht
  exact ⟨t, r, ht, hr, (exec_checked i s).not_badState (fun h => hbad.mp h hi) ht hr, fun hne =>
    ⟨(exec_keeps_bs_of_legalAfterReset hi hne ht).trans hb, exec_keeps_reset_coder hi ha ht⟩⟩

/-! ## Reset by a command -/

/-- The external reset leaves every context there is as after reset (R270). -/
theorem externalReset_context {s : State} {c : Nat} (hc : c < s.ctx.length) :
    s.externalReset.ctx[c]? = some Context.reset := by
  rw [State.externalReset_ctx, List.getElem?_map, List.getElem?_eq_getElem hc]
  rfl

/-- Settles O12: AC_INIT and CTX_INIT write the reset values, and BS_CLOSE unbinds however it ends. -/
theorem commandsReinitializeAsResetDoes : Obligations.CommandsReinitializeAsResetDoes := by
  intro s t
  refine ⟨fun ht => ?_, fun c hc ht => ?_, fun hlegal ht => ?_⟩
  · cases ht; rfl
  · obtain ⟨u, hu, -, hget, -⟩ :=
      ctxInitWritesOneContext c 1 2 65535 true s hc (by decide) (by decide) (by decide) (by decide)
    cases hu.symm.trans ht
    exact hget.trans (externalReset_context hc).symm
  · obtain ⟨u, hu, hbs⟩ := execBsClose_unbinds ((mayMove_iff s).mpr (not_or.mp hlegal))
    cases hu.symm.trans ht
    exact hbs

end Sys2Proof.Machine
end
